-- ==== Sys2Proof/Word.lean ====
section
/-! DEFINITION. The parameters of the block whose value the source states (00_scope.md R5) or the spec decides (R6),
and the word types, which read them (R8: every quantity is unsigned). -/

namespace Sys2Proof.Config

/-! Stated by the source (00_scope.md R5); the stated value is the only validated setting (log entry 33). -/

/-- `BATCH_SIZE`: bytes of one batch, the sentinel included. -/
abbrev batchSize : Nat := 64

/-- `BATCH_COUNT`: batches of the Batch Buffer. -/
abbrev batchCount : Nat := 8

/-- `FQ_CAPACITY`: entries of one Frame Queue. -/
abbrev fqCapacity : Nat := 16

/-- `CAN_CHANNELS`: the controllers CAN1, CAN2, .. that are there (`Chan.all`, `PerChan`). -/
abbrev canChannels : Nat := 3

/-- `UART_CHANNELS`: the UARTs, source ids 5..10 (`emits`). -/
abbrev uartChannels : Nat := 6

/-- `MAX_DATA`: data bytes of one CAN frame. -/
abbrev maxData : Nat := 8

/-- `STD_ID_BITS`: the width of a standard id (`StdId`). -/
abbrev stdIdBits : Nat := 11

/-- `EXT_ID_BITS`: the width of an extended id (`ExtId`). -/
abbrev extIdBits : Nat := 29

/-- `LEN_BITS`: the width of `lenf` (`LenField`). -/
abbrev lenBits : Nat := 3

/-! Decided by the spec (00_scope.md R6). -/

/-- `BATCH_PAYLOAD_MAX = BATCH_SIZE - 1`: record bytes of one batch (10_state.md R22). -/
abbrev batchPayloadMax : Nat := batchSize - 1

/-- `CURSOR_BITS`: the width of `Cursor` (92_eei_decisions.md D3). -/
abbrev cursorBits : Nat := 32

/-- `WLEN_BITS`: the width of `WLen` (D3). -/
abbrev wlenBits : Nat := 7

/-- `XTD_BIT` (D26). -/
abbrev xtdBit : Nat := 30

/-- `RTR_BIT` (D26). -/
abbrev rtrBit : Nat := 29

/-- `STD_ID_SHIFT` (D26). -/
abbrev stdIdShift : Nat := 18

/-- `DLC_SHIFT` (D26). -/
abbrev dlcShift : Nat := 16

/-- `RX_FIFO_SELECT` (D31). -/
abbrev rxFifoSelect : Nat := 0

end Sys2Proof.Config

namespace Sys2Proof

/-- `u8`: one byte of a byte space or of the wire. -/
abbrev Byte := BitVec 8

/-- `u32`: an arbitration or control word (30_encoding.md R106, R107). -/
abbrev Word := BitVec 32

/-- A cursor register (00_scope.md R6); `+` and `-` are the spec's `+%` and `-%`. -/
abbrev Cursor := BitVec Config.cursorBits

/-- A written-length counter (R6, 10_state.md R21). -/
abbrev WLen := BitVec Config.wlenBits

/-- A standard CAN id (R5, 30_encoding.md R94). -/
abbrev StdId := BitVec Config.stdIdBits

/-- An extended CAN id (R5, 30_encoding.md R95). -/
abbrev ExtId := BitVec Config.extIdBits

/-- The length field of an id field (R5, 30_encoding.md R99). -/
abbrev LenField := BitVec Config.lenBits

/-- The number of a batch (R5, 10_state.md R21). -/
abbrev Slot := Fin Config.batchCount

end Sys2Proof
end

