-- ==== Sys2Proof/Syntax.lean ====
section
/-! DEFINITION. The names of the block (controllers, agents), the shapes of its data (frames, Frame
Queue entries, receive elements) and its instructions: one constructor of `Instr` per row of
spec/opcode_table.json (30_encoding.md R114, R115). -/

namespace Sys2Proof

/-- The CAN controllers by the names 00_scope.md R5 gives them. -/
inductive Chan where
  | can1
  | can2
  | can3
  deriving DecidableEq, Repr, Inhabited

/-- The controller's number `k`. -/
def Chan.number : Chan → Nat
  | .can1 => 1
  | .can2 => 2
  | .can3 => 3

/-- The controllers `k` = 1..`CAN_CHANNELS`, in order (00_scope.md R5). -/
def Chan.all : List Chan := [Chan.can1, Chan.can2, Chan.can3].take Config.canChannels

/-- The controller after `k`, where there is one. -/
def Chan.next (k : Chan) : Option Chan := Chan.all[k.number]?

/-- The source id of controller `k`, `sid = k + 1` (30_encoding.md R96). -/
def Chan.sid (k : Chan) : BitVec 4 := BitVec.ofNat 4 (k.number + 1)

/-- The place of controller `k` among `CAN_CHANNELS`. -/
def Chan.index (k : Chan) : Fin Config.canChannels := ⟨k.number - 1, by cases k <;> decide⟩

/-- One value of `α` for each of the `CAN_CHANNELS` controllers, CAN1's first. -/
structure PerChan (α : Type) where
  all : Vector α Config.canChannels
  deriving DecidableEq, Repr

/-- The value that belongs to controller `k`. -/
def PerChan.get {α : Type} (p : PerChan α) (k : Chan) : α := p.all[k.index]

/-- Replace the value that belongs to controller `k`. -/
def PerChan.set {α : Type} (p : PerChan α) (k : Chan) (v : α) : PerChan α := ⟨p.all.set k.index v⟩

/-- Apply one function to each controller's value. -/
def PerChan.map {α β : Type} (f : α → β) (p : PerChan α) : PerChan β := ⟨p.all.map f⟩

/-- One value for all controllers. -/
def PerChan.const {α : Type} (v : α) : PerChan α := ⟨Vector.replicate Config.canChannels v⟩

/-- The agents that take steps (10_state.md R20). -/
inductive Agent where
  | main
  | canRx (k : Chan)
  | usbRx
  | extProd (j : Nat)
  deriving DecidableEq, Repr

/-- A Frame Queue entry: arbitration word, data-length code, 8 data bytes (10_state.md R30); which values the rules
admit is `Entry.wf`. -/
structure Entry where
  arb  : Word
  dlc  : BitVec 4
  data : Vector Byte Config.maxData
  deriving DecidableEq, Repr, Inhabited

/-- A receive element as `rx_peek` shows it: the words `R0`, `R1` and 8 data bytes (30_encoding.md R109). -/
structure RxElement where
  r0   : Word
  r1   : Word
  data : Vector Byte Config.maxData
  deriving DecidableEq, Repr, Inhabited

/-- A transmit slot as `tx_write` writes it: the words `T0`, `T1` and 8 data bytes (30_encoding.md R110). -/
structure TxElement where
  t0   : Word
  t1   : Word
  data : Vector Byte Config.maxData
  deriving DecidableEq, Repr, Inhabited

/-- A CAN id: 11 bits of a standard frame, 29 of an extended one (00_scope.md R5; 42_wire_framing.md R188). -/
inductive CanId where
  | std (id : StdId)
  | ext (id : ExtId)
  deriving DecidableEq, Repr

/-- The operand `ext` (R188). -/
def CanId.isExt : CanId → Bool
  | .std _ => false
  | .ext _ => true

/-- The operand `id` (R188), in the width of an extended id. -/
def CanId.bits : CanId → ExtId
  | .std id => id.setWidth Config.extIdBits
  | .ext id => id

/-- The width of an id below its bound (R188): `2^11` where `ext` = 0, `2^29` where `ext` = 1. -/
abbrev CanId.width (ext : Bool) : Nat := if ext then Config.extIdBits else Config.stdIdBits

/-- The id of the operands `ext` and `id` (R188). -/
def CanId.of : (ext : Bool) → BitVec (CanId.width ext) → CanId
  | false, id => .std id
  | true, id => .ext id

/-- The operand `id` in its own width. -/
def CanId.field : (i : CanId) → BitVec (CanId.width i.isExt)
  | .std id => id
  | .ext id => id

/-- The data bytes of a CAN frame: the operand `len` is in 0..`MAX_DATA` (42_wire_framing.md R188; 30_encoding.md R98, R99). -/
@[ext]
structure Payload where
  bytes : List Byte
  fits  : bytes.length ≤ Config.maxData
  deriving DecidableEq, Repr

/-- No data bytes. -/
def Payload.empty : Payload := ⟨[], Nat.zero_le _⟩

/-- What a CAN wire record carries (30_encoding.md R90 to R99): the operands of `enc_can` (42_wire_framing.md R188), which
have no value outside its domain. `len` is `data.bytes.length`, and `has_data` is 1 exactly when there are data bytes
(R99, R116). -/
structure CanFrame where
  rtr  : Bool
  id   : CanId
  data : Payload
  deriving DecidableEq, Repr

/-- The builder a caller of `FQ.ENQ` supplies (41_frame_queue.md R161), as plain data. -/
inductive Builder where
  /-- `CAN.TXBUILD`: the entry of the record at `dl.rd`, which it consumes (43_can_codec.md R213). -/
  | txBuild
  /-- a caller's own builder, by the entries it returns in call order -/
  | entries (es : List Entry)
  deriving DecidableEq, Repr

/-- The callback a caller of `FQ.DEQ` supplies (41_frame_queue.md R162), as plain data. -/
inductive Callback where
  /-- `CAN.TXSLOT[k]`: write the entry into a hardware slot (43_can_codec.md R215). -/
  | txSlot
  /-- a caller's own callback: it takes the entries it is given -/
  | collect
  deriving DecidableEq, Repr

/-- The instructions: 20 downlink records, 19 uplink records, 16 port operations. `hi` is the header
nibble `H[7:4]`, kept for the sources whose layout is out of scope (93_implementation_defined.md U12). -/
inductive Instr where
  -- downlink records (30_encoding.md R97, R114)
  | dCtrlConnect
  | dCtrlReserved (cmd : BitVec 4)
  | dGpio (hi : BitVec 4)
  | dCan1Std (rtr : Bool) (id : StdId) (data : Payload)
  | dCan1Ext (rtr : Bool) (id : ExtId) (data : Payload)
  | dCan2Std (rtr : Bool) (id : StdId) (data : Payload)
  | dCan2Ext (rtr : Bool) (id : ExtId) (data : Payload)
  | dCan3Std (rtr : Bool) (id : StdId) (data : Payload)
  | dCan3Ext (rtr : Bool) (id : ExtId) (data : Payload)
  | dUart1 (hi : BitVec 4)
  | dUart2 (hi : BitVec 4)
  | dUart3 (hi : BitVec 4)
  | dUart4 (hi : BitVec 4)
  | dUart5 (hi : BitVec 4)
  | dUart6 (hi : BitVec 4)
  | dLed (hi : BitVec 4)
  | dBuzzer (hi : BitVec 4)
  | dReserved13 (hi : BitVec 4)
  | dReserved14 (hi : BitVec 4)
  | dReserved15 (hi : BitVec 4)
  -- uplink records (30_encoding.md R96): the emission of the record by a producer
  | uCtrl (hi : BitVec 4) (rest : List Byte)
  | uGpio (hi : BitVec 4) (rest : List Byte)
  | uCan1Std (rtr : Bool) (id : StdId) (data : Payload)
  | uCan1Ext (rtr : Bool) (id : ExtId) (data : Payload)
  | uCan2Std (rtr : Bool) (id : StdId) (data : Payload)
  | uCan2Ext (rtr : Bool) (id : ExtId) (data : Payload)
  | uCan3Std (rtr : Bool) (id : StdId) (data : Payload)
  | uCan3Ext (rtr : Bool) (id : ExtId) (data : Payload)
  | uUart1 (hi : BitVec 4) (rest : List Byte)
  | uUart2 (hi : BitVec 4) (rest : List Byte)
  | uUart3 (hi : BitVec 4) (rest : List Byte)
  | uUart4 (hi : BitVec 4) (rest : List Byte)
  | uUart5 (hi : BitVec 4) (rest : List Byte)
  | uUart6 (hi : BitVec 4) (rest : List Byte)
  | uSensor (hi : BitVec 4) (rest : List Byte)
  | uReserved12 (hi : BitVec 4) (rest : List Byte)
  | uReserved13 (hi : BitVec 4) (rest : List Byte)
  | uReserved14 (hi : BitVec 4) (rest : List Byte)
  | uReserved15 (hi : BitVec 4) (rest : List Byte)
  -- port operations (30_encoding.md R115)
  | bbAlloc (size : Nat)
  | bbWrite (slot off : Nat) (byte : Byte)
  | bbPop
  | bbReset
  | bbRead (slot off : Nat)
  | bbDiscardAll
  | ulPump
  | fqEnq (k : Chan) (build : Builder) (count : Nat)
  | fqDeq (k : Chan) (cb : Callback) (max : Nat)
  | fqFlush (k : Chan)
  | ulCan (k : Chan) (ext rtr : Bool) (id : BitVec (CanId.width ext)) (data : Payload)
  | dlDecode
  | canRx (k : Chan)
  | canPump (k : Chan)
  | canInit (k : Chan)
  | mainIter
  deriving DecidableEq, Repr

end Sys2Proof
end

