-- ==== Sys2Proof/Config.lean ====
section
/-! DEFINITION. The parameters of the block that the spec leaves OPEN (00_scope.md R6, 93_implementation_defined.md U21:
constants without a body, so that a claim holds for every value), and the free values of the model. Those with a stated
or decided value (R5, R6) are in Word.lean, because the types of the block read them. -/

namespace Sys2Proof.Config

/-! OPEN (00_scope.md R6): uninterpreted. Log entry 1. -/

/-- `SENTINEL` (D1): the value of byte 0 of every batch. -/
opaque sentinel : Byte

/-- `TX_INCLUDES_SENTINEL` (D9). -/
opaque txIncludesSentinel : Bool

/-- `FLUSH_FQ_ON_CONNECT` (D34). -/
opaque flushFqOnConnect : Bool

/-- `TX_SLOTS - 1`. -/
opaque txSlotsBelow : Nat

/-- `TX_SLOTS ≥ 1` (D30). -/
def txSlots : Nat := txSlotsBelow + 1

/-- `RX_FIFO_DEPTH - 1`. -/
opaque rxFifoDepthBelow : Nat

/-- `RX_FIFO_DEPTH ≥ 1` (D30). -/
def rxFifoDepth : Nat := rxFifoDepthBelow + 1

/-- `DL_MAX - 1`. -/
opaque dlMaxBelow : Nat

/-- `DL_MAX ≥ 1` (D21). -/
def dlMax : Nat := dlMaxBelow + 1

/-- `PRIO` (D35), for the interrupt agents; `Main` is below them all (60_exceptions.md R250). -/
opaque prio : Agent → Nat

/-- `N_EXT_PRODUCERS` (D41). -/
opaque nExtProducers : Nat

/-- `EXT_DECODE(sid, buf, rd, len)` (D20): the bytes the external handler consumes, where State holds
no answer for the call. -/
opaque extDecode : BitVec 4 → List Byte → Nat → Nat → Nat

/-! Free values: what the spec calls unspecified (93_implementation_defined.md, treatment "any
value") and answers of the environment that State does not hold. Each is applied to the counter
`draws` of State, the bytes to their address too. Log entries 2, 3, 4, 6. -/

/-- An unwritten byte of `BATCH` (U1, U3). -/
opaque freeBatchByte : Nat → Nat → Byte

/-- A byte of `DLBUF` that no packet holds (U6). -/
opaque freeDlByte : Nat → Nat → Byte

/-- A byte the transport sends from a batch that was reset in flight (U4). -/
opaque freeWireByte : Nat → Nat → Byte

/-- An unspecified Frame Queue entry (U2), and what a caller's builder returns beyond its list; a read of it
brings it into the range of 10_state.md R30 (`entryInRange`). -/
opaque freeEntry : Nat → Nat → Entry

/-- An answer of `tp.ready()` (U18). -/
opaque freeReady : Nat → Bool

/-- An answer of a `tx_put()`, or of a `tx_free()` before it is brought into range (U18). -/
opaque freeCount : Nat → Nat

/-- An answer of a configuration call, `true` for `ok` (U18). -/
opaque freeCfg : Nat → Bool

end Sys2Proof.Config
end

