-- ==== Sys2Proof/WellFormed.lean ====
section
/-! DEFINITION. Which operands the spec admits for each instruction (00_scope.md R11: a call outside
an operation's stated domain is refused). -/

namespace Sys2Proof

/-- The uplink encoder never writes `rtr = 1` with a payload (30_encoding.md R100). -/
def uplinkDataOk (rtr : Bool) (data : Payload) : Bool := !rtr || data.bytes.isEmpty

/-- A record is allocated whole: header and rest are at most `BATCH_PAYLOAD_MAX` bytes (42_wire_framing.md R182). -/
def opaqueOk (rest : List Byte) : Bool := decide (rest.length + 1 ≤ Config.batchPayloadMax)

/-- `dlc` holds 0..8 (10_state.md R30). -/
def Entry.dlcOk (e : Entry) : Bool := decide (e.dlc.toNat ≤ Config.maxData)

/-- The arbitration word has bit 31 zero, and bits 17:0 zero beside a standard id (30_encoding.md R106, R108). -/
def Entry.arbOk (e : Entry) : Bool :=
  !e.arb.getLsbD 31 && (e.arb.getLsbD Config.xtdBit || decide (e.arb.extractLsb' 0 Config.stdIdShift = 0))

/-- A Frame Queue entry as the rules have it. -/
def Entry.wf (e : Entry) : Bool := e.dlcOk && e.arbOk

/-- A builder whose entries are all well formed; `CAN.TXBUILD` builds no other (30_encoding.md R111). -/
def Builder.wf : Builder → Bool
  | .txBuild => true
  | .entries es => es.all Entry.wf

/-- Well-formed instructions: the operands lie in the domains of the rules named in the arms. The domain of a CAN frame
(42_wire_framing.md R188) is its type, `CanFrame`. -/
def Instr.wf : Instr → Bool
  | .dCtrlConnect => true
  | .dCtrlReserved cmd => decide (cmd ≠ 0#4)          -- R93: command 0 is connect
  | .dGpio _ => true
  | .dCan1Std _ _ _ => true
  | .dCan1Ext _ _ _ => true
  | .dCan2Std _ _ _ => true
  | .dCan2Ext _ _ _ => true
  | .dCan3Std _ _ _ => true
  | .dCan3Ext _ _ _ => true
  | .dUart1 _ => true
  | .dUart2 _ => true
  | .dUart3 _ => true
  | .dUart4 _ => true
  | .dUart5 _ => true
  | .dUart6 _ => true
  | .dLed _ => true
  | .dBuzzer _ => true
  | .dReserved13 _ => true
  | .dReserved14 _ => true
  | .dReserved15 _ => true
  | .uCtrl _ rest => opaqueOk rest
  | .uGpio _ rest => opaqueOk rest
  | .uCan1Std rtr _ data => uplinkDataOk rtr data
  | .uCan1Ext rtr _ data => uplinkDataOk rtr data
  | .uCan2Std rtr _ data => uplinkDataOk rtr data
  | .uCan2Ext rtr _ data => uplinkDataOk rtr data
  | .uCan3Std rtr _ data => uplinkDataOk rtr data
  | .uCan3Ext rtr _ data => uplinkDataOk rtr data
  | .uUart1 _ rest => opaqueOk rest
  | .uUart2 _ rest => opaqueOk rest
  | .uUart3 _ rest => opaqueOk rest
  | .uUart4 _ rest => opaqueOk rest
  | .uUart5 _ rest => opaqueOk rest
  | .uUart6 _ rest => opaqueOk rest
  | .uSensor _ rest => opaqueOk rest
  | .uReserved12 _ rest => opaqueOk rest
  | .uReserved13 _ rest => opaqueOk rest
  | .uReserved14 _ rest => opaqueOk rest
  | .uReserved15 _ rest => opaqueOk rest
  | .bbAlloc size => decide (1 ≤ size) && decide (size ≤ Config.batchPayloadMax)   -- R131
  | .bbWrite slot off _ =>                                                         -- R61, R131: 1 ≤ off
      decide (slot < Config.batchCount) && decide (1 ≤ off) && decide (off < Config.batchSize)
  | .bbPop => true
  | .bbReset => true
  | .bbRead slot off => decide (slot < Config.batchCount) && decide (off < Config.batchSize)   -- R61
  | .bbDiscardAll => true
  | .ulPump => true
  | .fqEnq _ build count => build.wf && decide (1 ≤ count)                         -- R30, R106, R161
  | .fqDeq _ _ _ => true
  | .fqFlush _ => true
  | .ulCan _ _ _ _ _ => true
  | .dlDecode => true
  | .canRx _ => true
  | .canPump _ => true
  | .canInit _ => true
  | .mainIter => true

end Sys2Proof
end

