-- ==== Sys2Proof/Decode.lean ====
section
/-! DEFINITION. Wire records: bit fields and byte order (00_scope.md R8, 20_memory.md R65, R66), the
decoder of a downlink record, the decoder of an uplink record, and the encoder
(30_encoding.md R90 to R105, R114; 42_wire_framing.md R188, R189). -/

namespace Sys2Proof

/-! Byte order and fields. -/

/-- `LE16(b0, b1) = b1 ++ b0` (R8). -/
def le16 (b0 b1 : Byte) : BitVec 16 := b1 ++ b0

/-- `LE32(b0, b1, b2, b3) = b3 ++ b2 ++ b1 ++ b0` (R8). -/
def le32 (b0 b1 b2 b3 : Byte) : BitVec 32 := b3 ++ b2 ++ b1 ++ b0

/-- `bytesLE16(v)` (R8). -/
def bytesLE16 (v : BitVec 16) : List Byte := [v.extractLsb' 0 8, v.extractLsb' 8 8]

/-- `bytesLE32(v)` (R8). -/
def bytesLE32 (v : BitVec 32) : List Byte :=
  [v.extractLsb' 0 8, v.extractLsb' 8 8, v.extractLsb' 16 8, v.extractLsb' 24 8]

/-- The source id `H[3:0]` (R91). -/
def headerSid (h : Byte) : BitVec 4 := h.extractLsb' 0 4

/-- `H[7:4]`: the command of a control record (R93), or the opaque nibble of an out-of-scope source (R91). -/
def headerHi (h : Byte) : BitVec 4 := h.extractLsb' 4 4

/-- A header byte from its two nibbles (R91). -/
def headerOf (hi sid : BitVec 4) : Byte := hi ++ sid

/-- The header byte of a CAN record: `sid`, `ext` at bit 4, `rtr` at 5, `has_data` at 6, bit 7 zero
(R91, R92, R102). -/
def canHeader (sid : BitVec 4) (ext rtr hasData : Bool) : Byte :=
  headerOf (0#1 ++ BitVec.ofBool hasData ++ BitVec.ofBool rtr ++ BitVec.ofBool ext) sid

/-- `lenf = len - 1` where there is data, 0 where there is none (R99). -/
def lenField (data : List Byte) : LenField := BitVec.ofNat Config.lenBits (data.length - 1)

/-- The standard id field: id at 10:0, `lenf` at 13:11, bits 15:14 zero (R94, R102). -/
def stdField (id : StdId) (lenf : LenField) : BitVec 16 := 0#2 ++ lenf ++ id

/-- The extended id field: id at 28:0, `lenf` at 31:29 (R95). -/
def extField (id : ExtId) (lenf : LenField) : BitVec 32 := lenf ++ id

/-- The bytes of a CAN record with the given payload; `has_data` is 1 exactly when the payload is not
empty (R90, R98, R99). -/
def canBytes (sid : BitVec 4) (f : CanFrame) : List Byte :=
  let idf := match f.id with
    | .ext id => bytesLE32 (extField id (lenField f.data.bytes))
    | .std id => bytesLE16 (stdField id (lenField f.data.bytes))
  canHeader sid f.id.isExt f.rtr (!f.data.bytes.isEmpty) :: (idf ++ f.data.bytes)

/-- `enc_can`: the uplink encoder. A remote frame is written without payload (42_wire_framing.md R188). -/
def encCan (sid : BitVec 4) (f : CanFrame) : List Byte :=
  canBytes sid { f with data := if f.rtr then .empty else f.data }

/-- Bytes of the id field (R90). -/
def CanFrame.idLen (f : CanFrame) : Nat := if f.id.isExt then 4 else 2

/-- The size of the record (R101). -/
def CanFrame.size (f : CanFrame) : Nat := 1 + f.idLen + f.data.bytes.length

/-! `dec_can` (42_wire_framing.md R189). The list is `buf[a .. limit-1]`; `none` is `TRUNCATED`. -/

/-- `len` (30_encoding.md R99). -/
def dataLen (hasData : Bool) (lenf : LenField) : Nat := if hasData then lenf.toNat + 1 else 0

/-- No length field says more than `MAX_DATA` bytes. -/
theorem dataLen_le (hasData : Bool) (lenf : LenField) : dataLen hasData lenf ≤ Config.maxData := by
  have h : lenf.toNat < 8 := lenf.isLt
  show dataLen hasData lenf ≤ 8
  unfold dataLen
  split <;> omega

/-- The payload of a record whose flags and id field are read: `len` bytes, or `TRUNCATED`. -/
def withPayload (rtr hasData : Bool) (id : CanId) (lenf : LenField) (p : List Byte) : Option CanFrame :=
  if p.length < dataLen hasData lenf then none
  else some ⟨rtr, id, p.take (dataLen hasData lenf),
    le_trans (List.length_take_le _ _) (dataLen_le hasData lenf)⟩

/-- `dec_can` (R189); `H[7]` and `V16[15:14]` are read by nothing (R102). -/
def decCan : List Byte → Option CanFrame
  | [] => none
  | h :: t =>
    let rtr := h.getLsbD 5
    let hasData := h.getLsbD 6
    if h.getLsbD 4 then
      match t with
      | b1 :: b2 :: b3 :: b4 :: p =>
        let v := le32 b1 b2 b3 b4
        withPayload rtr hasData (.ext (v.extractLsb' 0 Config.extIdBits)) (v.extractLsb' Config.extIdBits Config.lenBits) p
      | _ => none
    else
      match t with
      | b1 :: b2 :: p =>
        let v := le16 b1 b2
        withPayload rtr hasData (.std (v.extractLsb' 0 Config.stdIdBits)) (v.extractLsb' Config.stdIdBits Config.lenBits) p
      | _ => none

/-! Decoding by direction (R104: the direction is known from which way the bytes travel). -/

/-- Why no record can be read. -/
inductive DecodeError where
  /-- there is no byte to read -/
  | empty
  /-- a CAN record runs past the last byte: fatal cause 3 (60_exceptions.md R243) -/
  | truncated
  deriving DecidableEq, Repr

/-- The downlink instruction of a decoded CAN record of controller `k` (R97, R114). -/
def downlinkCan (k : Chan) (f : CanFrame) : Instr :=
  match k, f.id with
  | .can1, .std id => .dCan1Std f.rtr id f.data
  | .can1, .ext id => .dCan1Ext f.rtr id f.data
  | .can2, .std id => .dCan2Std f.rtr id f.data
  | .can2, .ext id => .dCan2Ext f.rtr id f.data
  | .can3, .std id => .dCan3Std f.rtr id f.data
  | .can3, .ext id => .dCan3Ext f.rtr id f.data

/-- The uplink instruction of a decoded CAN record of controller `k` (R96, R114). -/
def uplinkCan (k : Chan) (f : CanFrame) : Instr :=
  match k, f.id with
  | .can1, .std id => .uCan1Std f.rtr id f.data
  | .can1, .ext id => .uCan1Ext f.rtr id f.data
  | .can2, .std id => .uCan2Std f.rtr id f.data
  | .can2, .ext id => .uCan2Ext f.rtr id f.data
  | .can3, .std id => .uCan3Std f.rtr id f.data
  | .can3, .ext id => .uCan3Ext f.rtr id f.data

/-- A downlink CAN record of controller `k`, or that it is truncated. -/
def decodeDownlinkCan (k : Chan) (bs : List Byte) : Except DecodeError Instr :=
  match decCan bs with
  | some f => .ok (downlinkCan k f)
  | none => .error .truncated

/-- The downlink decoder: the record at the head of the bytes that are left of the packet (R114, R183).
An out-of-scope record is read up to its header: `EXT_DECODE` says how long it is (R186). -/
def decode : List Byte → Except DecodeError Instr
  | [] => .error .empty
  | h :: t =>
    match (headerSid h).toNat with
    | 0 => .ok (if headerHi h = 0#4 then .dCtrlConnect else .dCtrlReserved (headerHi h))
    | 1 => .ok (.dGpio (headerHi h))
    | 2 => decodeDownlinkCan .can1 (h :: t)
    | 3 => decodeDownlinkCan .can2 (h :: t)
    | 4 => decodeDownlinkCan .can3 (h :: t)
    | 5 => .ok (.dUart1 (headerHi h))
    | 6 => .ok (.dUart2 (headerHi h))
    | 7 => .ok (.dUart3 (headerHi h))
    | 8 => .ok (.dUart4 (headerHi h))
    | 9 => .ok (.dUart5 (headerHi h))
    | 10 => .ok (.dUart6 (headerHi h))
    | 11 => .ok (.dLed (headerHi h))
    | 12 => .ok (.dBuzzer (headerHi h))
    | 13 => .ok (.dReserved13 (headerHi h))
    | 14 => .ok (.dReserved14 (headerHi h))
    | _ => .ok (.dReserved15 (headerHi h))

/-- An uplink CAN record of controller `k`, or that it is truncated. -/
def decodeUplinkCan (k : Chan) (bs : List Byte) : Except DecodeError Instr :=
  match decCan bs with
  | some f => .ok (uplinkCan k f)
  | none => .error .truncated

/-- The uplink decoder, the host's side (R114): the record at the head of the bytes. The layout of an
out-of-scope record is not known (00_scope.md R4): all the bytes after its header are taken as its own. -/
def decodeUplink : List Byte → Except DecodeError Instr
  | [] => .error .empty
  | h :: t =>
    match (headerSid h).toNat with
    | 0 => .ok (.uCtrl (headerHi h) t)
    | 1 => .ok (.uGpio (headerHi h) t)
    | 2 => decodeUplinkCan .can1 (h :: t)
    | 3 => decodeUplinkCan .can2 (h :: t)
    | 4 => decodeUplinkCan .can3 (h :: t)
    | 5 => .ok (.uUart1 (headerHi h) t)
    | 6 => .ok (.uUart2 (headerHi h) t)
    | 7 => .ok (.uUart3 (headerHi h) t)
    | 8 => .ok (.uUart4 (headerHi h) t)
    | 9 => .ok (.uUart5 (headerHi h) t)
    | 10 => .ok (.uUart6 (headerHi h) t)
    | 11 => .ok (.uSensor (headerHi h) t)
    | 12 => .ok (.uReserved12 (headerHi h) t)
    | 13 => .ok (.uReserved13 (headerHi h) t)
    | 14 => .ok (.uReserved14 (headerHi h) t)
    | _ => .ok (.uReserved15 (headerHi h) t)

/-! Encoding. -/

/-- A standard frame's operands as a frame. -/
def stdFrame (rtr : Bool) (id : StdId) (data : Payload) : CanFrame := ⟨rtr, .std id, data⟩

/-- An extended frame's operands as a frame. -/
def extFrame (rtr : Bool) (id : ExtId) (data : Payload) : CanFrame := ⟨rtr, .ext id, data⟩

/-- The bytes of a record; `none` for a port operation, which is no word in memory (R115). A downlink
CAN record may carry a payload with `rtr` = 1 (R100); an uplink one is written by `enc_can`. -/
def encode : Instr → Option (List Byte)
  | .dCtrlConnect => some [headerOf 0#4 0#4]
  | .dCtrlReserved cmd => some [headerOf cmd 0#4]
  | .dGpio hi => some [headerOf hi 1#4]
  | .dCan1Std rtr id data => some (canBytes Chan.can1.sid (stdFrame rtr id data))
  | .dCan1Ext rtr id data => some (canBytes Chan.can1.sid (extFrame rtr id data))
  | .dCan2Std rtr id data => some (canBytes Chan.can2.sid (stdFrame rtr id data))
  | .dCan2Ext rtr id data => some (canBytes Chan.can2.sid (extFrame rtr id data))
  | .dCan3Std rtr id data => some (canBytes Chan.can3.sid (stdFrame rtr id data))
  | .dCan3Ext rtr id data => some (canBytes Chan.can3.sid (extFrame rtr id data))
  | .dUart1 hi => some [headerOf hi 5#4]
  | .dUart2 hi => some [headerOf hi 6#4]
  | .dUart3 hi => some [headerOf hi 7#4]
  | .dUart4 hi => some [headerOf hi 8#4]
  | .dUart5 hi => some [headerOf hi 9#4]
  | .dUart6 hi => some [headerOf hi 10#4]
  | .dLed hi => some [headerOf hi 11#4]
  | .dBuzzer hi => some [headerOf hi 12#4]
  | .dReserved13 hi => some [headerOf hi 13#4]
  | .dReserved14 hi => some [headerOf hi 14#4]
  | .dReserved15 hi => some [headerOf hi 15#4]
  | .uCtrl hi rest => some (headerOf hi 0#4 :: rest)
  | .uGpio hi rest => some (headerOf hi 1#4 :: rest)
  | .uCan1Std rtr id data => some (encCan Chan.can1.sid (stdFrame rtr id data))
  | .uCan1Ext rtr id data => some (encCan Chan.can1.sid (extFrame rtr id data))
  | .uCan2Std rtr id data => some (encCan Chan.can2.sid (stdFrame rtr id data))
  | .uCan2Ext rtr id data => some (encCan Chan.can2.sid (extFrame rtr id data))
  | .uCan3Std rtr id data => some (encCan Chan.can3.sid (stdFrame rtr id data))
  | .uCan3Ext rtr id data => some (encCan Chan.can3.sid (extFrame rtr id data))
  | .uUart1 hi rest => some (headerOf hi 5#4 :: rest)
  | .uUart2 hi rest => some (headerOf hi 6#4 :: rest)
  | .uUart3 hi rest => some (headerOf hi 7#4 :: rest)
  | .uUart4 hi rest => some (headerOf hi 8#4 :: rest)
  | .uUart5 hi rest => some (headerOf hi 9#4 :: rest)
  | .uUart6 hi rest => some (headerOf hi 10#4 :: rest)
  | .uSensor hi rest => some (headerOf hi 11#4 :: rest)
  | .uReserved12 hi rest => some (headerOf hi 12#4 :: rest)
  | .uReserved13 hi rest => some (headerOf hi 13#4 :: rest)
  | .uReserved14 hi rest => some (headerOf hi 14#4 :: rest)
  | .uReserved15 hi rest => some (headerOf hi 15#4 :: rest)
  | .bbAlloc _ => none
  | .bbWrite _ _ _ => none
  | .bbPop => none
  | .bbReset => none
  | .bbRead _ _ => none
  | .bbDiscardAll => none
  | .ulPump => none
  | .fqEnq _ _ _ => none
  | .fqDeq _ _ _ => none
  | .fqFlush _ => none
  | .ulCan _ _ _ _ _ => none
  | .dlDecode => none
  | .canRx _ => none
  | .canPump _ => none
  | .canInit _ => none
  | .mainIter => none

/-! The select codes of the port operations (R115): labels of the table; every operand is zero. -/

/-- The port operation a 4-bit select code labels. -/
def decodeSelect (op : BitVec 4) : Instr :=
  match op.toNat with
  | 0 => .bbAlloc 0
  | 1 => .bbWrite 0 0 0
  | 2 => .bbPop
  | 3 => .bbReset
  | 4 => .bbRead 0 0
  | 5 => .bbDiscardAll
  | 6 => .ulPump
  | 7 => .fqEnq .can1 .txBuild 0
  | 8 => .fqDeq .can1 .txSlot 0
  | 9 => .fqFlush .can1
  | 10 => .ulCan .can1 false false 0 .empty
  | 11 => .dlDecode
  | 12 => .canRx .can1
  | 13 => .canPump .can1
  | 14 => .canInit .can1
  | _ => .mainIter

/-- The longest record: 13 bytes (30_encoding.md R101). -/
def longestRecord : Nat := 13

/-- The bytes of an instruction whose bits are `w`, the first byte least significant, every bit above
`nbits` zero. -/
def tableBytes (nbits w : Nat) : List Byte :=
  (List.range longestRecord).map fun i => BitVec.ofNat 8 ((w % 2 ^ nbits) / 2 ^ (8 * i))

/-- The instruction the decoder reads from a table word: 8 bits and more are the bytes of a downlink
record (the direction in which the block fetches, log entry 8); 4 bits are a select code. -/
def decodeTableWord (nbits w : Nat) : Option Instr :=
  if nbits < 8 then some (decodeSelect (BitVec.ofNat 4 (w % 2 ^ nbits)))
  else
    match decode (tableBytes nbits w) with
    | .ok i => some i
    | .error _ => none

end Sys2Proof
end

