-- ==== Sys2Proof/Machine/State.lean ====
section
/-! DEFINITION. The state of the block as plain data (10_state.md), the reasons a step can stop, and
the state after reset (10_state.md R50, 70_reset_and_hazards.md R280). Fields the spec does not name
are marked MODEL and have a log entry. -/

namespace Sys2Proof.Machine

/-- Where the machine stops although no rule refuses the call. -/
inductive Fault where
  /-- raised by every operation and every step of a halted state: after the fatal entry "no agent has a
  step" (60_exceptions.md R247). Safe: the model stops where the block stops. -/
  | halted
  /-- raised by a retry loop that found no end within the bound of 40_batch_buffer.md R141: only from
  states that break the cursor invariant R25. Safe: no next state is claimed. -/
  | noProgress
  deriving DecidableEq, Repr

/-- A call outside the operation's stated domain, which the spec refuses (00_scope.md R11). Every one
is safe: no next state is claimed. -/
inductive Refusal where
  /-- raised by `exec`'s arm of an instruction that has no meaning yet -/
  | notModelled (mnemonic : String)
  /-- a call from a context that 60_exceptions.md R253 does not list for the operation; `DL.DECODE`'s loop is none for an
  instruction that is no downlink record, and meets none (`decode_downlink`) -/
  | wrongContext
  /-- `CAN.INIT` after boot step B3 (R253, R282) -/
  | afterBoot
  /-- `BB.ALLOC` of 0 or of more than `BATCH_PAYLOAD_MAX` bytes (40_batch_buffer.md R131) -/
  | allocSize
  /-- `BB.WRITE` outside a grant the caller holds (R133, R287) -/
  | notGranted
  /-- `BB.READ` of a batch that is not the one popped, or at `off ≥ len` (R137) -/
  | notPopped
  /-- `BB.RESET` with no opened batch (R135) -/
  | nothingOpened
  /-- `FQ.ENQ` with `count = 0` (41_frame_queue.md R161) -/
  | countZero
  /-- `CAN.TXBUILD` where `dl.rd` is at no whole CAN record: `DL.CAN` step 2 checks it first (R213) -/
  | noRecordToBuild
  /-- a downlink record run where the packet has no byte left at `dl.rd` (42_wire_framing.md R183) -/
  | noRecord
  /-- `DL.DEPOSIT` of 0 or of more than `DL_MAX` bytes (10_state.md R47) -/
  | depositSize
  /-- `DL.DEPOSIT` while the previous packet is not fully decoded (R47, R291) -/
  | depositBusy
  /-- a handler returned with granted bytes it has not written (R285, 93_implementation_defined.md U3) -/
  | unwrittenGrant
  /-- a record of an unassigned uplink source 12..15, by its row or by the first byte of a grant (R96, U15) -/
  | unassignedUplinkSource
  /-- a record of a source id that is another agent's, or `CAN.RX(k)` or `UL.CAN(k, ..)` outside `CanRx[k]`
  (42_wire_framing.md R180, R182; 43_can_codec.md R210; 60_exceptions.md R248) -/
  | foreignSource
  /-- `tx_free()` answered more than `TX_SLOTS`, or `rx_peek()` found nothing after `rx_fill()` had answered more
  than 0: outside the port's contract (R46, U18) -/
  | portContract
  /-- the environment started a handler `ExtProd[j]` with `j` outside 1..`N_EXT_PRODUCERS` (R20) -/
  | noSuchAgent
  deriving DecidableEq, Repr

/-- A byte space: (address, byte) pairs in canonical form (`Memory.wf`). -/
abbrev Memory := List Host.Cell

/-- The byte spaces of 20_memory.md R60 that are memory of the block. -/
inductive Space where
  | batch
  | dlbuf
  deriving DecidableEq, Repr

/-- The value of `fatal.info` per cause (60_exceptions.md R242). -/
inductive FatalInfo where
  /-- nothing latched: the model's value at reset (log entry 5) -/
  | none
  | cmd (c : BitVec 4)
  | sid (v : BitVec 4)
  | rd (a : Nat)
  | chan (k : Chan)
  | initStep (k : Chan) (step : Nat)
  deriving DecidableEq, Repr

/-- An event of the diagnostic port (10_state.md R45). -/
inductive DiagEvent where
  | uplinkCongestion
  | downlinkCongestion
  | diagReset
  | fatal (code : BitVec 3) (info : FatalInfo)
  deriving DecidableEq, Repr

/-- Which list a filter element belongs to (43_can_codec.md R216). -/
inductive FilterKind where
  | standard
  | extended
  deriving DecidableEq, Repr

/-- A mask filter as `cfg_filter` is given it (30_encoding.md R112). -/
structure Filter where
  kind  : FilterKind
  index : Nat
  id    : Nat
  mask  : Nat
  fifo  : Nat
  deriving DecidableEq, Repr

/-- An output to a CAN controller (10_state.md R46); a configuration call stands with its result. -/
inductive HwEvent where
  | rxAck
  | txWrite (i : Nat) (e : TxElement)
  | txRequest (i : Nat)
  | cfgFilter (f : Filter) (ok : Bool)
  | cfgNotify (ok : Bool)
  deriving DecidableEq, Repr

/-- One CAN controller as the block meets it through `hw[k]` (10_state.md R46, R41; 43_can_codec.md R217). -/
structure HwPort where
  /-- the receive FIFO, oldest element first (R64, R217) -/
  rxFifo    : List RxElement
  /-- the transmit slots written so far, by slot index, rising (R64, log entry 28) -/
  txSlots   : List (Nat × TxElement)
  /-- the transmit request register: the slots requested and not yet sent, rising (R46, log entry 28) -/
  txRequest : List Nat
  /-- the "new message" notification is armed (60_exceptions.md R249) -/
  rxArmed   : Bool
  /-- `hw[k].trace` (R46) -/
  trace     : List HwEvent
  /-- MODEL: answers of `tx_free()` to come (log entry 2) -/
  txFreeIn  : List Nat
  /-- MODEL: answers of `tx_put()` to come -/
  txPutIn   : List Nat
  /-- MODEL: answers of `cfg_filter` and `cfg_notify` to come, `true` for `ok` -/
  cfgIn     : List Bool
  deriving DecidableEq, Repr

/-- One Frame Queue (10_state.md R30, R31). A slot whose contents are unspecified holds `none` (log entry 6). -/
structure FrameQueue where
  slots    : Vector (Option Entry) Config.fqCapacity
  produced : Cursor
  consumed : Cursor
  deriving DecidableEq, Repr

/-- A range of bytes of one batch that `BB.ALLOC` granted (20_memory.md R61, 40_batch_buffer.md R131),
with the offsets its owner has not written yet (R285). -/
structure Grant where
  owner : Agent
  slot  : Slot
  off   : Nat
  size  : Nat
  left  : List Nat
  deriving DecidableEq, Repr

/-- What a handler or the main loop is asked to do: an instruction, or `DL.DEPOSIT` (R47), which has no
row in the opcode table. -/
inductive Call where
  | op (i : Instr)
  | deposit (bytes : List Byte)
  deriving DecidableEq, Repr

/-- An interrupt that has fired (60_exceptions.md R248): the handler's agent and what only the
environment knows of its work. -/
inductive IrqReq where
  | canRx (k : Chan)
  | usbRx (bytes : List Byte)
  | extProd (j : Nat) (ops : List Instr)
  deriving DecidableEq, Repr

/-- A handler inside its operation and the calls it has still to make (R251). -/
structure Activation where
  agent : Agent
  todo  : List Call
  deriving DecidableEq, Repr

/-- A move of the environment between two micro-steps (10_state.md R20, 43_can_codec.md R217). -/
inductive EnvEvent where
  /-- an interrupt source fires -/
  | fire (r : IrqReq)
  /-- controller `k` receives a frame -/
  | rxFrame (k : Chan) (e : RxElement)
  /-- controller `k` has sent what was in slot `i` -/
  | txDone (k : Chan) (i : Nat)
  deriving DecidableEq, Repr

/-- A batch in flight at the transport (10_state.md R41, R44), and whether it was reset since (R286). -/
structure Flight where
  slot      : Slot
  len       : Nat
  disturbed : Bool
  deriving DecidableEq, Repr

/-- The position of `Main`: the boot steps B2 and B3 (70_reset_and_hazards.md R282), then the parts of
an iteration (60_exceptions.md R256). -/
inductive Phase where
  | boot (k : Chan)
  | unmask
  | decode
  | canPump (k : Chan)
  deriving DecidableEq, Repr

/-- The result an operation ends in (00_scope.md R11). -/
inductive OpResult where
  | done
  | granted (slot : Slot) (off : Nat)
  | fail
  | popped (slot : Slot) (len : Nat)
  | noBatch
  | byte (b : Byte)
  | bool (b : Bool)
  | dequeued (ok : Bool) (es : List Entry)
  | sent
  | idle
  | written
  | dropped
  deriving DecidableEq, Repr

/-- The state of the block. -/
structure State where
  /-- `B[i].data` (10_state.md R21): byte `off` of batch `slot` at address `64 * slot + off` -/
  batch            : Memory
  /-- `B[i].wlen` (R21, R22) -/
  wlen             : Vector WLen Config.batchCount
  /-- MODEL: the ranges (offset, size) granted in each batch since it was last empty, oldest first, which clause 6 of
  40_batch_buffer.md R140 speaks of; no operation reads it (log entry 32) -/
  ranges           : Vector (List (Nat × Nat)) Config.batchCount
  /-- `bb.produced` (R24) -/
  bbProduced       : Cursor
  /-- `bb.consumed` (R24) -/
  bbConsumed       : Cursor
  /-- `ul.tx_pending` (R28) -/
  txPending        : Bool
  /-- `fq[k]` (R29) -/
  fq               : PerChan FrameQueue
  /-- `dl.buf` (R33) -/
  dlBuf            : Memory
  /-- `dl.len` (R33) -/
  dlLen            : Nat
  /-- `dl.rd` (R36) -/
  dlRd             : Nat
  /-- `diag.uplink_congested` (R38) -/
  uplinkCongested  : Bool
  /-- `diag.downlink_congested` (R38) -/
  downlinkCongested : Bool
  /-- `fatal.halted` (R39) -/
  halted           : Bool
  /-- `fatal.code` (R39) -/
  fatalCode        : BitVec 3
  /-- `fatal.info` (R39) -/
  fatalInfo        : FatalInfo
  /-- `irq_masked` (R39) -/
  irqMasked        : Bool
  /-- `diag.trace` (R45) -/
  diagTrace        : List DiagEvent
  /-- the calls `tp.send(slot, len)` (R44) -/
  tpTrace          : List (Slot × Nat)
  /-- the packets the transport has put on the wire (R44, log entry 15) -/
  wire             : List (List Byte)
  /-- the batch in flight at the transport (R41, log entry 15) -/
  inFlight         : Option Flight
  /-- the controllers (R46) -/
  hw               : PerChan HwPort
  /-- interrupts that have fired and wait (R41, R249) -/
  pending          : List IrqReq
  /-- the handlers inside an operation, innermost first; empty when `Main` runs (R251, R252) -/
  stack            : List Activation
  /-- the grants of the handlers inside an operation (40_batch_buffer.md R131, R133) -/
  grants           : List Grant
  /-- the batch and length the latest `BB.POP` returned, until it is reset (R137) -/
  popped           : Option (Slot × Nat)
  /-- the position of `Main` (R282, R256) -/
  phase            : Phase
  /-- MODEL: the result of the last operation (log entry 11) -/
  result           : OpResult
  /-- MODEL: operations asked of `Main` by the firmware around the block (10_state.md R43, log entry 21) -/
  calls            : List Instr
  /-- MODEL: the environment's moves at the preemption points to come (log entry 9) -/
  arrivals         : List (List EnvEvent)
  /-- MODEL: answers of `tp.ready()` to come (log entry 2) -/
  readyIn          : List Bool
  /-- MODEL: answers of `EXT_DECODE` to come (log entry 2) -/
  extLenIn         : List Nat
  /-- MODEL: the counter the free values are applied to (log entry 3) -/
  draws            : Nat
  deriving DecidableEq, Repr

/-- A controller at reset: nothing received, requested or armed (log entries 24, 28). -/
def HwPort.reset : HwPort where
  rxFifo := []
  txSlots := []
  txRequest := []
  rxArmed := false
  trace := []
  txFreeIn := []
  txPutIn := []
  cfgIn := []

/-- A Frame Queue at reset (10_state.md R50). -/
def FrameQueue.reset : FrameQueue where
  slots := Vector.replicate Config.fqCapacity none
  produced := 0
  consumed := 0

/-- The machine right after reset (10_state.md R50, 70_reset_and_hazards.md R280). `fatal.code` and
`fatal.info` are DESIGN CHOICEs (log entry 5). -/
def State.reset : State where
  batch := []
  wlen := Vector.replicate Config.batchCount 1
  ranges := Vector.replicate Config.batchCount []
  bbProduced := 0
  bbConsumed := 0
  txPending := false
  fq := .const FrameQueue.reset
  dlBuf := []
  dlLen := 0
  dlRd := 0
  uplinkCongested := false
  downlinkCongested := false
  halted := false
  fatalCode := 0
  fatalInfo := .none
  irqMasked := true
  diagTrace := []
  tpTrace := []
  wire := []
  inFlight := none
  hw := .const HwPort.reset
  pending := []
  stack := []
  grants := []
  popped := none
  phase := .boot .can1
  result := .done
  calls := []
  arrivals := []
  readyIn := []
  extLenIn := []
  draws := 0

end Sys2Proof.Machine
end

