-- ==== Sys2Proof/Machine/Ops.lean ====
section
/-! DEFINITION. The shared operations: the canonical memory, outcomes in the middle of an operation,
the fatal entry (60_exceptions.md R246), the environment's moves, interrupt entry and return (R251,
R252), contexts (R253). -/

namespace Sys2Proof.Machine

/-! Memory (20_memory.md R60, R61, R63). -/

/-- The entry listed for address `a`. -/
def Memory.find : Memory → Nat → Option Byte
  | [], _ => none
  | (k, b) :: t, a => if k = a then some b else Memory.find t a

/-- List `b` at address `a`, keeping the addresses rising. -/
def Memory.insert : Memory → Nat → Byte → Memory
  | [], a, b => [(a, b)]
  | (k, v) :: t, a, b =>
    if a < k then (a, b) :: (k, v) :: t
    else if a = k then (a, b) :: t
    else (k, v) :: Memory.insert t a b

/-- Unlist address `a`. -/
def Memory.erase : Memory → Nat → Memory
  | [], _ => []
  | (k, v) :: t, a => if k = a then t else (k, v) :: Memory.erase t a

/-- What an unlisted address reads as: the sentinel at offset 0 of a batch, "written at construction"
(10_state.md R22, R50); elsewhere no value (U1, U6). Log entry 4. -/
def Memory.unlisted : Space → Nat → Option Byte
  | .batch, a => if a % Config.batchSize = 0 then some Config.sentinel else none
  | .dlbuf, _ => none

/-- One byte of a space; `none` where nothing has given it a value. -/
def Memory.read (sp : Space) (m : Memory) (a : Nat) : Option Byte :=
  match Memory.find m a with
  | some b => some b
  | none => Memory.unlisted sp a

/-- Write one byte, keeping the canonical form. -/
def Memory.write (sp : Space) (m : Memory) (a : Nat) (b : Byte) : Memory :=
  if Memory.unlisted sp a = some b then Memory.erase m a else Memory.insert m a b

/-- The addresses are all above `lo`, strictly rising. -/
def Memory.sortedFrom : Nat → Memory → Bool
  | _, [] => true
  | lo, (k, _) :: t => decide (lo ≤ k) && Memory.sortedFrom (k + 1) t

/-- The canonical form: addresses strictly rising, no entry equal to what an unlisted address reads as. -/
def Memory.wf (sp : Space) (m : Memory) : Bool :=
  Memory.sortedFrom 0 m && m.all fun c => decide (Memory.unlisted sp c.1 ≠ some c.2)

/-- A byte array from address 0 on: what `DL.DEPOSIT` leaves in `dl.buf` (10_state.md R47). -/
def Memory.ofBytes : Nat → List Byte → Memory
  | _, [] => []
  | a, b :: t => (a, b) :: Memory.ofBytes (a + 1) t

/-! Outcomes in the middle of an operation. -/

/-- How a part of an operation ends: with a value, in the fatal halt (00_scope.md R11), or in a stop. -/
inductive Res (α : Type) where
  | ok (a : α) (s : State)
  | halt (s : State)
  | fault (f : Fault)
  | refused (r : Refusal)
  deriving Repr

/-- Go on with the value; a halt or a stop abandons the rest of the operation (60_exceptions.md R246). -/
def Res.bind {α β : Type} (r : Res α) (f : α → State → Res β) : Res β :=
  match r with
  | .ok a s => f a s
  | .halt s => .halt s
  | .fault e => .fault e
  | .refused e => .refused e

/-- The outcome of a whole operation: its result is latched; a fatal entry is a next state. -/
def Res.outcome : Res OpResult → Host.Outcome State Fault Refusal
  | .ok r s => .next { s with result := r }
  | .halt s => .next s
  | .fault e => .fault e
  | .refused e => .refused e

/-- The outcome of a part of the machine that is no operation with a result of its own. -/
def Res.outcomeUnit : Res Unit → Host.Outcome State Fault Refusal
  | .ok _ s => .next s
  | .halt s => .next s
  | .fault e => .fault e
  | .refused e => .refused e

/-! Named updates of the state. -/

/-- The `CAS` of `BB.APPEND` that succeeds (40_batch_buffer.md R132 step P2): `B[i].wlen <- off + size`; the granted
range is noted. -/
def State.extend (s : State) (i : Slot) (off size : Nat) : State :=
  { s with
    wlen := s.wlen.set i (BitVec.ofNat Config.wlenBits (off + size))
    ranges := s.ranges.set i (s.ranges[i] ++ [(off, size)]) }

/-- `B[i].wlen <- 1` (R135 step T2): the batch is empty, and no range of it is granted any more. -/
def State.emptyBatch (s : State) (i : Slot) : State :=
  { s with wlen := s.wlen.set i 1, ranges := s.ranges.set i [] }

/-- `fq[k] <- q` (10_state.md R29). -/
def State.setFq (s : State) (k : Chan) (q : FrameQueue) : State :=
  { s with fq := s.fq.set k q }

/-- Replace what State holds of controller `k`. -/
def State.setHw (s : State) (k : Chan) (h : HwPort) : State :=
  { s with hw := s.hw.set k h }

/-- An output to controller `k`, recorded in `hw[k].trace` (10_state.md R46). -/
def State.traceHw (s : State) (k : Chan) (e : HwEvent) : State :=
  s.setHw k { s.hw.get k with trace := (s.hw.get k).trace ++ [e] }

/-- `signal E` (00_scope.md R9, 10_state.md R45). -/
def State.signal (s : State) (e : DiagEvent) : State :=
  { s with diagTrace := s.diagTrace ++ [e] }

/-- The address of byte `off` of batch `slot` in `State.batch`. -/
def batchAddr (slot : Slot) (off : Nat) : Nat := Config.batchSize * slot.val + off

/-- The batch a cursor value denotes: `v mod BATCH_COUNT` (10_state.md R26). -/
def slotOf (v : Cursor) : Slot := ⟨v.toNat % Config.batchCount, Nat.mod_lt _ (by decide)⟩

/-- The entry a cursor value denotes: `v mod FQ_CAPACITY` (10_state.md R31). -/
def entryOf (v : Cursor) : Fin Config.fqCapacity :=
  ⟨v.toNat % Config.fqCapacity, Nat.mod_lt _ (by decide)⟩

/-! The fatal entry. -/

/-- `raise Fatal(code, info)`: one indivisible step (60_exceptions.md R246). There is no return from it
(R247). -/
def State.raiseFatal (s : State) (code : BitVec 3) (info : FatalInfo) : State :=
  ({ s with irqMasked := true, fatalCode := code, fatalInfo := info, halted := true }).signal
    (.fatal code info)

/-! Contexts (60_exceptions.md R253). -/

/-- The running agent: the innermost handler, or `Main` (R252). -/
def State.running (s : State) : Agent :=
  match s.stack with
  | [] => .main
  | a :: _ => a.agent

/-- The running agent is an interrupt handler. -/
def State.inInterrupt (s : State) : Bool := decide (s.running ≠ .main)

/-- An operation of the interrupt context. -/
def inInterruptContext {α : Type} (s : State) (r : Res α) : Res α :=
  if s.inInterrupt then r else .refused .wrongContext

/-- An operation of the main context. -/
def inMainContext {α : Type} (s : State) (r : Res α) : Res α :=
  if s.inInterrupt then .refused .wrongContext else r

/-! Agents and the records they produce (10_state.md R20, 30_encoding.md R96). -/

/-- The source id of UART 1; UART n has `uartBase + n - 1` (30_encoding.md R96). -/
abbrev uartBase : Nat := 5

/-- The source id of the sensors (R96). -/
abbrev sensorSid : Nat := 11

/-- The source ids of the records an agent produces: `CanRx[k]` those of its controller, `sid = k + 1` (R96;
42_wire_framing.md R180), an `ExtProd` any of 0, 1, the `UART_CHANNELS` from 5 on, and 11 (R182), the others none. Log
entry 31. -/
def emits : Agent → BitVec 4 → Bool
  | .main, _ => false
  | .canRx k, sid => decide (sid = k.sid)
  | .usbRx, _ => false
  | .extProd _, sid => decide (sid.toNat ≤ 1) ||
    (decide (uartBase ≤ sid.toNat) && decide (sid.toNat < uartBase + Config.uartChannels)) ||
    decide (sid.toNat = sensorSid)

/-- An operation that emits a record of source `sid`: the running agent must be one that produces such records. -/
def asProducerOf {α : Type} (s : State) (sid : BitVec 4) (r : Res α) : Res α :=
  if emits s.running sid then r else .refused .foreignSource

/-! The environment (10_state.md R20, 43_can_codec.md R217). -/

/-- The FIFO of controller `k` takes one more element. -/
def HwPort.hasRoom (h : HwPort) : Bool := decide (h.rxFifo.length < Config.rxFifoDepth)

/-- A received frame enters the FIFO of controller `k`, and one "new message" interrupt more is pending, one
for each element (60_exceptions.md R249); with the FIFO full the frame is lost inside the controller (R217). -/
def State.receiveFrame (s : State) (k : Chan) (e : RxElement) : State :=
  { s.setHw k { s.hw.get k with
      rxFifo := if (s.hw.get k).hasRoom then (s.hw.get k).rxFifo ++ [e] else (s.hw.get k).rxFifo } with
    pending := if (s.hw.get k).hasRoom then s.pending ++ [.canRx k] else s.pending }

/-- Controller `k` has sent the frame of slot `i`: its request bit falls (R217 clause 4). -/
def State.transmitDone (s : State) (k : Chan) (i : Nat) : State :=
  s.setHw k { s.hw.get k with txRequest := (s.hw.get k).txRequest.filter fun j => decide (j ≠ i) }

/-- One move of the environment. -/
def State.applyEvent (s : State) : EnvEvent → State
  | .fire r => { s with pending := s.pending ++ [r] }
  | .rxFrame k e => s.receiveFrame k e
  | .txDone k i => s.transmitDone k i

/-- The environment's moves at this preemption point. -/
def State.takeArrivals (s : State) : State :=
  match s.arrivals with
  | [] => s
  | evs :: rest => evs.foldl State.applyEvent { s with arrivals := rest }

/-- Interrupts still to come: those pending, and the moves of the environment that make one pending. It
bounds how often an operation can be preempted (40_batch_buffer.md R141). -/
def State.budget (s : State) : Nat :=
  s.pending.length +
    (s.arrivals.map fun evs => (evs.filter fun
      | .fire _ => true
      | .rxFrame _ _ => true
      | .txDone _ _ => false).length).sum

/-! Interrupt entry and return (60_exceptions.md R248 to R252). -/

/-- The handler's agent (R248). -/
def IrqReq.agent : IrqReq → Agent
  | .canRx k => .canRx k
  | .usbRx _ => .usbRx
  | .extProd j _ => .extProd j

/-- What the handler does (R248). R248 does not say that an `ExtProd` that starts calls anything; the model admits an
empty list, which changes nothing (DESIGN CHOICE, log entry 31). -/
def IrqReq.calls : IrqReq → List Call
  | .canRx k => [.op (.canRx k)]
  | .usbRx bytes => [.deposit bytes]
  | .extProd _ ops => ops.map .op

/-- The source is enabled: step I3 of `CAN.INIT(k)` arms "new message" (R249); how the others are
enabled is outside the block. -/
def State.enabled (s : State) : IrqReq → Bool
  | .canRx k => (s.hw.get k).rxArmed
  | .usbRx _ => true
  | .extProd _ _ => true

/-- A pending interrupt may start: interrupts are not masked, its source is enabled, and every agent
inside an operation has a priority strictly below its own; `Main` is below all (R250, R252 clause 1). -/
def State.admissible (s : State) (r : IrqReq) : Bool :=
  !s.irqMasked && s.enabled r &&
    s.stack.all fun a => decide (Config.prio a.agent < Config.prio r.agent)

/-- The request of the highest priority among those `ok` admits, the earliest of them on a tie, and the
requests that stay pending (R250). -/
def pickRequest (ok : IrqReq → Bool) : List IrqReq → Option (IrqReq × List IrqReq)
  | [] => none
  | r :: rs =>
    match pickRequest ok rs with
    | none => if ok r then some (r, rs) else none
    | some (b, others) =>
      if ok r && decide (Config.prio b.agent ≤ Config.prio r.agent) then some (r, rs)
      else some (b, r :: others)

/-- Interrupt entry: the preempted agent is suspended as it stands, nothing else changes (R251). -/
def State.enterHandler (s : State) (r : IrqReq) (todo : List Call) : Res Unit :=
  match r with
  | .extProd j _ =>
    if 1 ≤ j ∧ j ≤ Config.nExtProducers then .ok () { s with stack := ⟨r.agent, todo⟩ :: s.stack }
    else .refused .noSuchAgent
  | _ => .ok () { s with stack := ⟨r.agent, todo⟩ :: s.stack }

/-- Return from the innermost handler (R251): its grants end with it, and every granted byte must have
been written (70_reset_and_hazards.md R285, 93_implementation_defined.md U3). -/
def State.leaveHandler (s : State) : Res Unit :=
  if s.grants.any fun g => decide (g.owner = s.running) && !g.left.isEmpty then
    .refused .unwrittenGrant
  else
    .ok () { s with
      stack := s.stack.tail
      grants := s.grants.filter fun g => decide (g.owner ≠ s.running) }

/-- A preemption point: what may happen between two micro-steps of the running agent (R252). -/
abbrev Hook := State → Res Unit

end Sys2Proof.Machine
end

