-- ==== Sys2Proof/Machine/Flags.lean ====
section
/-! DEFINITION. The two status flags (10_state.md R38) and the congestion signals that set them
(60_exceptions.md R241). -/

namespace Sys2Proof.Machine

/-- `diag.uplink_congested <- b`. -/
def State.uplinkFlag (s : State) (b : Bool) : State := { s with uplinkCongested := b }

/-- `diag.downlink_congested <- b`. -/
def State.downlinkFlag (s : State) (b : Bool) : State := { s with downlinkCongested := b }

/-- `signal UPLINK_CONGESTION ; diag.uplink_congested <- 1` (40_batch_buffer.md R131 step A4). -/
def uplinkCongestion (pt : Hook) (s : State) : Res Unit :=
  (pt (s.signal .uplinkCongestion)).bind fun _ s => .ok () (s.uplinkFlag true)

/-- `signal DOWNLINK_CONGESTION ; diag.downlink_congested <- 1` (42_wire_framing.md R185 step 4). -/
def downlinkCongestion (pt : Hook) (s : State) : Res Unit :=
  (pt (s.signal .downlinkCongestion)).bind fun _ s => .ok () (s.downlinkFlag true)

/-- The connect command clears both flags (42_wire_framing.md R184). -/
def clearFlags (pt : Hook) (s : State) : Res Unit :=
  (pt (s.uplinkFlag false)).bind fun _ s => .ok () (s.downlinkFlag false)

end Sys2Proof.Machine
end

