-- ==== Sys2Proof/Machine/Operands.lean ====
section
/-! DEFINITION. Where operations take their operands from: bytes of the spaces (20_memory.md R61, R63),
entries of the Frame Queues (R62), the packet at `dl.rd` (10_state.md R36), and the answers of the
ports (R44, R46). An answer State does not hold is a free value (log entry 2). -/

namespace Sys2Proof.Machine

/-! Bytes. -/

/-- Byte `off` of batch `slot`; a byte nothing has written is a free value (U1, U3). -/
def State.peekBatch (s : State) (slot : Slot) (off : Nat) : Byte :=
  match Memory.read .batch s.batch (batchAddr slot off) with
  | some b => b
  | none => Config.freeBatchByte (batchAddr slot off) s.draws

/-- Byte `a` of `dl.buf`; a byte no packet holds is a free value (20_memory.md R63, U6). -/
def State.peekDl (s : State) (a : Nat) : Byte :=
  match Memory.read .dlbuf s.dlBuf a with
  | some b => b
  | none => Config.freeDlByte a s.draws

/-- The free values already taken are not taken again. -/
def State.drawn (s : State) : State := { s with draws := s.draws + 1 }

/-- The bytes of the packet that are not decoded yet: `dl.buf[dl.rd .. dl.len-1]` (10_state.md R36). -/
def State.packetRest (s : State) : List Byte :=
  (List.range (s.dlLen - s.dlRd)).map fun i => s.peekDl (s.dlRd + i)

/-- The bytes of the whole packet, `dl.buf[0 .. dl.len-1]`. -/
def State.packet (s : State) : List Byte :=
  (List.range s.dlLen).map fun i => s.peekDl i

/-! Frame Queue entries. -/

/-- An entry brought into the range of 10_state.md R30 and 30_encoding.md R106, R108: an entry in range is left as it
is, so a free entry brought into range is any entry of that range. -/
def entryInRange (e : Entry) : Entry where
  arb := e.arb &&& if e.arb.getLsbD Config.xtdBit then 0x7FFFFFFF else 0x3FFC0000
  dlc := BitVec.ofNat 4 (e.dlc.toNat % (Config.maxData + 1))
  data := e.data

/-- The entry `e` with what no rule admits of it replaced from `free`: a length code above 8 (10_state.md R30), an
arbitration word out of the layout of 30_encoding.md R106, R108. The rest, and an entry that the rules admit, is left as
it is. -/
def entryAdmitted (e free : Entry) : Entry where
  arb := if e.arbOk then e.arb else (entryInRange free).arb
  dlc := if e.dlcOk then e.dlc else (entryInRange free).dlc
  data := e.data

/-- The entry at cursor value `v`; an unspecified slot is a free value (U2). -/
def State.peekEntry (s : State) (k : Chan) (v : Cursor) : Entry :=
  match (s.fq.get k).slots[entryOf v] with
  | some e => e
  | none => entryInRange (Config.freeEntry (entryOf v).val s.draws)

/-- The fill of a Frame Queue (10_state.md R31). -/
def FrameQueue.fill (q : FrameQueue) : Nat := (q.produced - q.consumed).toNat

/-- The free count of a Frame Queue (10_state.md R31). -/
def FrameQueue.free (q : FrameQueue) : Nat := Config.fqCapacity - q.fill

/-! Answers of the ports (10_state.md R44, R46; 42_wire_framing.md R186). -/

/-- `tp.ready()`. -/
def State.askReady (s : State) : Bool × State :=
  match s.readyIn with
  | b :: t => (b, { s with readyIn := t })
  | [] => (Config.freeReady s.draws, s.drawn)

/-- `hw[k].tx_free()`; an answer the environment has not given is any of 0..`TX_SLOTS`. -/
def State.askTxFree (s : State) (k : Chan) : Nat × State :=
  match (s.hw.get k).txFreeIn with
  | n :: t => (n, s.setHw k { s.hw.get k with txFreeIn := t })
  | [] => (Config.freeCount s.draws % (Config.txSlots + 1), s.drawn)

/-- `hw[k].tx_put()`. -/
def State.askTxPut (s : State) (k : Chan) : Nat × State :=
  match (s.hw.get k).txPutIn with
  | n :: t => (n, s.setHw k { s.hw.get k with txPutIn := t })
  | [] => (Config.freeCount s.draws, s.drawn)

/-- `hw[k].cfg_filter(..)` and `hw[k].cfg_notify()`: `true` for `ok`. -/
def State.askCfg (s : State) (k : Chan) : Bool × State :=
  match (s.hw.get k).cfgIn with
  | b :: t => (b, s.setHw k { s.hw.get k with cfgIn := t })
  | [] => (Config.freeCfg s.draws, s.drawn)

/-- `EXT_DECODE(sid, dl.buf, dl.rd, dl.len)`. -/
def State.askExtLen (s : State) (sid : BitVec 4) : Nat × State :=
  match s.extLenIn with
  | n :: t => (n, { s with extLenIn := t })
  | [] => (Config.extDecode sid s.packet s.dlRd s.dlLen, s)

/-! The controller's words (30_encoding.md R106, R107, R111). -/

/-- The arbitration word: `xtd`, `rtr`, and the id, a standard id's 11 bits shifted to bits 28:18 (R106, R111). -/
def arbWord (rtr : Bool) (id : CanId) : Word :=
  ((BitVec.ofBool id.isExt).setWidth 32 <<< Config.xtdBit) |||
  ((BitVec.ofBool rtr).setWidth 32 <<< Config.rtrBit) |||
  match id with
  | .ext id => id.setWidth 32
  | .std id => id.setWidth 32 <<< Config.stdIdShift

/-- The control word `T1 = zext_32(dlc) << DLC_SHIFT` (R107, R110). -/
def ctrlWord (dlc : BitVec 4) : Word := dlc.setWidth 32 <<< Config.dlcShift

/-- What `rx_decode` reads from a receive element (43_can_codec.md R212). -/
structure RxHeader where
  rtr : Bool
  id  : CanId
  len : Nat
  deriving DecidableEq, Repr

/-- `rx_decode(R0, R1)` (43_can_codec.md R212, 30_encoding.md R108). -/
def rxDecode (r0 r1 : Word) : RxHeader where
  rtr := r0.getLsbD Config.rtrBit
  id := if r0.getLsbD Config.xtdBit then .ext (r0.extractLsb' 0 Config.extIdBits)
        else .std (r0.extractLsb' Config.stdIdShift Config.stdIdBits)
  len := min (r1.extractLsb' Config.dlcShift 4).toNat Config.maxData

end Sys2Proof.Machine
end

