-- ==== Sys2Proof/Machine/BatchBuffer.lean ====
section
/-! DEFINITION. The Batch Buffer's operations micro-step by micro-step (40_batch_buffer.md). `pt` is
the preemption point: it stands between every two micro-steps (60_exceptions.md R252). The shared
operations come first, the meanings of the opcode table's rows are in Ports.lean. -/

namespace Sys2Proof.Machine

/-! Producer side. -/

/-- `BB.APPEND(slot, size)` (R132). The first argument bounds the retries: one more than the interrupts
that can still preempt (R141). -/
def append (pt : Hook) (slot : Slot) (size : Nat) : Nat → State → Res (Option Nat)
  | 0, _ => .fault .noProgress
  | n + 1, s =>
    let w := s.wlen[slot]                                                -- P1
    if Config.batchSize < w.toNat + size then .ok none s
    else
      (pt s).bind fun _ s =>
      if s.wlen[slot] = w then                                           -- P2
        .ok (some w.toNat) (s.extend slot w.toNat size)
      else (pt s).bind fun _ s => append pt slot size n s

/-- The append a step of `BB.ALLOC` makes, as a grant. -/
def appendGrant (pt : Hook) (slot : Slot) (size : Nat) (s : State) : Res (Option (Slot × Nat)) :=
  (append pt slot size (s.budget + 1) s).bind fun r s => .ok (r.map fun off => (slot, off)) s

/-- `BB.ALLOC(size)`, the algorithm (R131). The first argument bounds the rounds from A1: each further
round follows an interrupt, or opens one of the at most `BATCH_COUNT` batches (R141). -/
def allocRounds (pt : Hook) (size : Nat) : Nat → State → Res (Option (Slot × Nat))
  | 0, _ => .fault .noProgress
  | n + 1, s =>
    let p := s.bbProduced                                                   -- A1
    (pt s).bind fun _ s =>
    let c := s.bbConsumed                                                   -- A2
    (if p ≠ c then (pt s).bind fun _ s => appendGrant pt (slotOf (p - 1)) size s   -- A3
     else .ok none s).bind fun r s =>
    match r with
    | some g => .ok (some g) s
    | none =>
      (pt s).bind fun _ s =>
      if (p - c).toNat = Config.batchCount then
        (uplinkCongestion pt s).bind fun _ s => .ok none s                  -- A4
      else
        (pt s).bind fun _ s =>
        if s.bbProduced = p then                                            -- A5
          (pt { s with bbProduced := p + 1 }).bind fun _ s =>
          (appendGrant pt (slotOf p) size s).bind fun r s =>                -- A6
          match r with
          | some g => .ok (some g) s
          | none => (pt s).bind fun _ s => allocRounds pt size n s
        else (pt s).bind fun _ s => allocRounds pt size n s

/-- `BB.ALLOC(size)` with its domain (R131). -/
def alloc (pt : Hook) (size : Nat) (s : State) : Res (Option (Slot × Nat)) :=
  if size = 0 ∨ Config.batchPayloadMax < size then .refused .allocSize
  else allocRounds pt size (s.budget + Config.batchCount + 2) s

/-- The caller of `BB.ALLOC` holds the granted bytes until its handler returns (R131, R133). -/
def State.addGrant (s : State) (slot : Slot) (off size : Nat) : State :=
  { s with grants := s.grants ++ [⟨s.running, slot, off, size, (List.range size).map fun i => off + i⟩] }

/-- One byte of `BATCH` (R133): `MemWrite(BATCH, (slot, off), 1, [byte])`. -/
def State.pokeBatch (s : State) (slot : Slot) (off : Nat) (b : Byte) : State :=
  { s with batch := Memory.write .batch s.batch (batchAddr slot off) b }

/-- The grant covers the byte and belongs to the agent. -/
def Grant.covers (g : Grant) (a : Agent) (slot off : Nat) : Bool :=
  decide (g.owner = a) && decide (g.slot.val = slot) && decide (g.off ≤ off) &&
    decide (off < g.off + g.size)

/-- The byte is written. -/
def Grant.wrote (g : Grant) (a : Agent) (slot off : Nat) : Grant :=
  if g.covers a slot off then { g with left := g.left.filter fun o => decide (o ≠ off) } else g

/-- The first byte of a grant is the header of the record: its source id must be one the agent produces (42_wire_framing.md
R182), and 12..15 are nobody's (30_encoding.md R96, 93_implementation_defined.md U15). -/
def headerRefusal (a : Agent) (g : Grant) (off : Nat) (b : Byte) : Option Refusal :=
  if off = g.off ∧ emits a (headerSid b) = false then
    some (if 12 ≤ (headerSid b).toNat then .unassignedUplinkSource else .foreignSource)
  else none

/-- `BB.WRITE(slot, off, byte)` (R133): refused outside the caller's own grants, and where the byte is the header of
a record the caller does not produce. -/
def writeGranted (slot off : Nat) (b : Byte) (s : State) : Res Unit :=
  match s.grants.find? fun g => g.covers s.running slot off with
  | none => .refused .notGranted
  | some g =>
    match headerRefusal s.running g off b with
    | some e => .refused e
    | none =>
      .ok () { s.pokeBatch g.slot off b with
        grants := s.grants.map fun h => h.wrote s.running slot off }

/-- The bytes of a record into its grant, one micro-step each (42_wire_framing.md R181). -/
def writeRecord (pt : Hook) (slot : Slot) : Nat → List Byte → State → Res Unit
  | _, [], s => .ok () s
  | off, b :: bs, s => (pt (s.pokeBatch slot off b)).bind fun _ s => writeRecord pt slot (off + 1) bs s

/-- A producer's record: one `BB.ALLOC` of its whole length, then all its bytes (42_wire_framing.md
R181, R182; 70_reset_and_hazards.md R284, R285). `false` when it was dropped. -/
def emit (pt : Hook) (bytes : List Byte) (s : State) : Res Bool :=
  (alloc pt bytes.length s).bind fun r s =>
  match r with
  | none => .ok false s
  | some (slot, off) =>
    (pt s).bind fun _ s => (writeRecord pt slot off bytes s).bind fun _ s => .ok true s

/-! Consumer side. -/

/-- Step Q5 of `BB.POP`: the length of the closed batch (R134). -/
def popClosed (slot : Slot) (s : State) : Res (Option (Slot × Nat)) :=
  let len := (s.wlen[slot]).toNat                                        -- Q5
  if len ≤ 1 then .ok none { s with popped := none }
  else .ok (some (slot, len)) { s with popped := some (slot, len) }

/-- `BB.POP()` (R134). -/
def pop (pt : Hook) (s : State) : Res (Option (Slot × Nat)) :=
  let c := s.bbConsumed                                                     -- Q1
  (pt s).bind fun _ s =>
  let p := s.bbProduced                                                     -- Q2
  let slot := slotOf c
  if p = c then .ok none { s with popped := none }
  else if p = c + 1 then
    (pt s).bind fun _ s =>
    if (s.wlen[slot]).toNat ≤ 1 then .ok none { s with popped := none }  -- Q3
    else
      (pt s).bind fun _ s =>
      let s := if s.bbProduced = p then { s with bbProduced := p + 1 } else s   -- P4
      (pt s).bind fun _ s => popClosed slot s
  else (pt s).bind fun _ s => popClosed slot s

/-- The batch is reset while the transport may still read it (70_reset_and_hazards.md R286). -/
def State.disturb (s : State) (slot : Slot) : State :=
  match s.inFlight with
  | some f => if f.slot = slot then { s with inFlight := some { f with disturbed := true } } else s
  | none => s

/-- `BB.RESET()` (R135). -/
def resetOldest (pt : Hook) (s : State) : Res Unit :=
  if s.bbProduced = s.bbConsumed then .refused .nothingOpened
  else
    let c := s.bbConsumed                                                   -- T1
    (pt s).bind fun _ s =>
    (pt ((s.emptyBatch (slotOf c)).disturb (slotOf c))).bind fun _ s =>     -- T2
    .ok () { s with bbConsumed := c + 1, popped := none }                   -- T3

/-- `BB.READ(slot, off)` (R137): only the popped batch, only below its length. -/
def readPopped (slot off : Nat) (s : State) : Res Byte :=
  match s.popped with
  | some (sl, len) =>
    if sl.val = slot ∧ off < len then .ok (s.peekBatch sl off) s.drawn else .refused .notPopped
  | none => .refused .notPopped

/-- The loop of `BB.DISCARD_ALL` (R138, corner case (c)). -/
def discardRounds (pt : Hook) : Nat → State → Res Unit
  | 0, _ => .fault .noProgress
  | n + 1, s =>
    (pop pt s).bind fun r s =>
    match r with
    | none => .ok () s
    | some _ =>
      (pt s).bind fun _ s => (resetOldest pt s).bind fun _ s => (pt s).bind fun _ s => discardRounds pt n s

/-- `BB.DISCARD_ALL()` (R138). -/
def discardAll (pt : Hook) (s : State) : Res Unit :=
  (discardRounds pt (s.budget * (Config.batchCount + 1) + Config.batchCount + 2) s).bind fun _ s =>
  (pt s).bind fun _ s => .ok () { s with txPending := false }

/-! The USB transmit attempt. -/

/-- The bytes the transport sends of a batch: `data[1 .. len-1]`, preceded by `data[0]` exactly when
`TX_INCLUDES_SENTINEL` (10_state.md R44); any bytes where the batch was reset in flight (U4). -/
def State.packetOf (s : State) (f : Flight) : List Byte :=
  (if Config.txIncludesSentinel then [if f.disturbed then Config.freeWireByte 0 s.draws else s.peekBatch f.slot 0]
   else []) ++
  (List.range (f.len - 1)).map fun i =>
    if f.disturbed then Config.freeWireByte (i + 1) s.draws else s.peekBatch f.slot (i + 1)

/-- The transport answered ready: the packet in flight is complete (40_batch_buffer.md R139, D12). -/
def State.completeFlight (s : State) : State :=
  match s.inFlight with
  | some f => { s.drawn with wire := s.wire ++ [s.packetOf f], inFlight := none }
  | none => s

/-- `tp.send(slot, len)` (10_state.md R44). -/
def State.tpSend (s : State) (slot : Slot) (len : Nat) : State :=
  { s with tpTrace := s.tpTrace ++ [(slot, len)], inFlight := some ⟨slot, len, false⟩ }

/-- `UL.PUMP()` (R139): `true` for `sent`, `false` for `idle`. -/
def pump (pt : Hook) (s : State) : Res Bool :=
  match s.askReady with
  | (false, s) => .ok false s
  | (true, s) =>
    (pt s.completeFlight).bind fun _ s =>
    (if s.txPending then
      (resetOldest pt s).bind fun _ s => (pt s).bind fun _ s => (pt { s with txPending := false })
     else .ok () s).bind fun _ s =>
    (pop pt s).bind fun r s =>
    match r with
    | none => .ok false s
    | some (slot, len) =>
      (pt s).bind fun _ s =>
      (pt (s.tpSend slot len)).bind fun _ s => .ok true { s with txPending := true }

end Sys2Proof.Machine
end

