-- ==== Sys2Proof/Machine/FrameQueue.lean ====
section
/-! DEFINITION. The Frame Queue's operations (41_frame_queue.md). Each is one transition: both sides
run in `Main` (R160). -/

namespace Sys2Proof.Machine

/-- Write the entry at cursor value `v` (10_state.md R31). -/
def State.putEntry (s : State) (k : Chan) (v : Cursor) (e : Entry) : State :=
  s.setFq k { s.fq.get k with slots := (s.fq.get k).slots.set (entryOf v) (some e) }

/-- Step E3: build `rem` entries in slot order, the next being number `i` (R161). -/
def enqFill (k : Chan) (build : Nat → State → Res Entry) (p : Cursor) : Nat → Nat → State → Res Unit
  | 0, _, s => .ok () s
  | rem + 1, i, s =>
    (build i s).bind fun e s =>
    enqFill k build p rem (i + 1) (s.putEntry k (p + BitVec.ofNat Config.cursorBits i) e)

/-- `FQ.ENQ(k, build, count)` (R161). -/
def fqEnqueue (k : Chan) (build : Nat → State → Res Entry) (count : Nat) (s : State) : Res Bool :=
  if count = 0 then .refused .countZero
  else
    let p := (s.fq.get k).produced                                          -- E1
    let n := min count (s.fq.get k).free                                    -- E2
    if n = 0 then .ok false s
    else
      (enqFill k build p n 0 s).bind fun _ s =>                             -- E3
      .ok true (s.setFq k { s.fq.get k with produced := p + BitVec.ofNat Config.cursorBits n })   -- E4

/-- Step G3: hand `rem` entries to the callback, oldest first, and list them (R162). -/
def deqTake (k : Chan) (cb : Entry → State → Res Unit) (c : Cursor) :
    Nat → Nat → State → Res (List Entry)
  | 0, _, s => .ok [] s
  | rem + 1, i, s =>
    let e := s.peekEntry k (c + BitVec.ofNat Config.cursorBits i)
    (cb e s).bind fun _ s =>
    (deqTake k cb c rem (i + 1) s).bind fun es s => .ok (e :: es) s

/-- The entries of a moved-out record are unspecified (R162 corner case (d), U2). -/
def State.moveOut (s : State) (k : Chan) (c : Cursor) : Nat → State
  | 0 => s
  | n + 1 =>
    let s := State.moveOut s k c n
    s.setFq k { s.fq.get k with
      slots := (s.fq.get k).slots.set (entryOf (c + BitVec.ofNat Config.cursorBits n)) none }

/-- `FQ.DEQ(k, cb, max)` (R162): whether any callback was used, and the entries it was given. -/
def fqDequeue (k : Chan) (cb : Entry → State → Res Unit) (max : Nat) (s : State) :
    Res (Bool × List Entry) :=
  let c := (s.fq.get k).consumed                                            -- G1
  let n := min max (s.fq.get k).fill                                        -- G2
  if n = 0 then .ok (false, []) s
  else
    (deqTake k cb c n 0 s).bind fun es s =>                                 -- G3
    let s := s.drawn.moveOut k c n
    .ok (true, es) (s.setFq k { s.fq.get k with consumed := c + BitVec.ofNat Config.cursorBits n })   -- G4

/-- `FQ.FLUSH(k)` (R163). -/
def fqFlushAll (k : Chan) (s : State) : State :=
  s.setFq k { s.fq.get k with consumed := (s.fq.get k).produced }

end Sys2Proof.Machine
end

