-- ==== Sys2Proof/Machine/CanCodec.lean ====
section
/-! DEFINITION. The CAN Hardware Codec (43_can_codec.md) and the uplink encoder that ends its receive
path (42_wire_framing.md R181). `pt` is the preemption point (60_exceptions.md R252). -/

namespace Sys2Proof.Machine

/-! Receive path. -/

/-- `UL.CAN(k, ext, rtr, id, len, data)` (42_wire_framing.md R181): `true` for `written`. -/
def uplinkFrame (pt : Hook) (k : Chan) (f : CanFrame) (s : State) : Res Bool :=
  emit pt (encCan k.sid f) s

/-- `hw[k].rx_ack()`: the oldest element is freed (R217 clause 1); emptying the FIFO clears the controller's
interrupt (60_exceptions.md R249). -/
def State.rxAck (s : State) (k : Chan) : State :=
  (({ s with
      pending := if (s.hw.get k).rxFifo.tail.isEmpty then s.pending.filter fun r => decide (r ≠ IrqReq.canRx k)
                 else s.pending }).setHw k
    { s.hw.get k with rxFifo := (s.hw.get k).rxFifo.tail }).traceHw k .rxAck

/-- The first `len` data bytes of a receive element (R211 step X4). -/
def rxPayload (e : RxElement) (len : Nat) : Payload :=
  ⟨e.data.toList.take len, by simp only [List.length_take, Vector.length_toList]; omega⟩

/-- `CAN.RX(k)` (R211). Fatal cause 4 is X1's alone (60_exceptions.md R243). A FIFO found empty at X2, after X1 found an
element, is a port outside its contract, which U18 refuses (DEDUCED, log entry 24): no run of `step` meets it, since
only `CanRx[k]` acknowledges and it does not preempt itself (R252 clause 5). -/
def receive (pt : Hook) (k : Chan) (s : State) : Res Bool :=
  match (s.hw.get k).rxFifo with
  | [] => .halt (s.raiseFatal 4 (.chan k))                                  -- X1
  | _ :: _ =>
    (pt s).bind fun _ s =>
    match (s.hw.get k).rxFifo with                                          -- X2
    | [] => .refused .portContract
    | e :: _ =>
      (pt s).bind fun _ s =>
      let h := rxDecode e.r0 e.r1                                           -- X3
      (pt s).bind fun _ s =>
      (uplinkFrame pt k ⟨h.rtr, h.id, rxPayload e h.len⟩ s).bind fun r s =>   -- X4
      (pt s).bind fun _ s => .ok r (s.rxAck k)                              -- X5

/-! Transmit path. -/

/-- The entry of a decoded record at `dl.rd` (R213, 30_encoding.md R111): its own data bytes, then what
follows it in `DLBUF`, 8 bytes in all, read from the index of the first payload byte on. -/
def State.entryFor (s : State) (f : CanFrame) : Entry where
  arb := arbWord f.rtr f.id
  dlc := BitVec.ofNat 4 f.data.bytes.length
  data := Vector.ofFn fun i : Fin Config.maxData => f.data.bytes.getD i.val (s.peekDl (s.dlRd + 1 + f.idLen + i.val))

/-- `CAN.TXBUILD()` for a record that is decoded (R213): `dl.rd` advances by its size. -/
def txBuildFrame (f : CanFrame) (s : State) : Res Entry :=
  .ok (s.entryFor f) { s.drawn with dlRd := s.dlRd + f.size }

/-- `CAN.TXBUILD()` (R213). It is called where `DL.CAN` step 2 has found a whole record; elsewhere it is
outside its contract. -/
def txBuild (s : State) : Res Entry :=
  match decCan s.packetRest with
  | some f => txBuildFrame f s
  | none => .refused .noRecordToBuild

/-- The builder of an `FQ.ENQ` call, by the number of the call (41_frame_queue.md R161). No rule says what is published of a
length code or an arbitration word that 10_state.md R30 and 30_encoding.md R106, R108 do not admit: that one value is free
in their range (DESIGN CHOICE, log entry 26). Beyond its list a caller's builder returns any entry of that range (log
entry 6). -/
def runBuilder : Builder → Nat → State → Res Entry
  | .txBuild, _, s => txBuild s
  | .entries es, i, s =>
    match es[i]? with
    | some e => .ok (entryAdmitted e (Config.freeEntry (Config.fqCapacity + i) s.draws)) s.drawn
    | none => .ok (entryInRange (Config.freeEntry (Config.fqCapacity + i) s.draws)) s.drawn

/-- Write slot `i`, keeping the list of slots rising (R64). -/
def putSlot (i : Nat) (e : TxElement) : List (Nat × TxElement) → List (Nat × TxElement)
  | [] => [(i, e)]
  | (j, f) :: t =>
    if i < j then (i, e) :: (j, f) :: t else if i = j then (i, e) :: t else (j, f) :: putSlot i e t

/-- Set request bit `i`, keeping the list rising. -/
def requestSlot (i : Nat) : List Nat → List Nat
  | [] => [i]
  | j :: t => if i < j then i :: j :: t else if i = j then j :: t else j :: requestSlot i t

/-- `hw[k].tx_write(i, T0, T1, D)` (10_state.md R46). -/
def State.txWrite (s : State) (k : Chan) (i : Nat) (e : TxElement) : State :=
  (s.setHw k { s.hw.get k with txSlots := putSlot i e (s.hw.get k).txSlots }).traceHw k (.txWrite i e)

/-- `hw[k].tx_request(i)` (10_state.md R46). -/
def State.txRequest (s : State) (k : Chan) (i : Nat) : State :=
  (s.setHw k { s.hw.get k with txRequest := requestSlot i (s.hw.get k).txRequest }).traceHw k (.txRequest i)

/-- The transmit slot's words of an entry (30_encoding.md R110). -/
def slotWords (e : Entry) : TxElement := ⟨e.arb, ctrlWord e.dlc, e.data⟩

/-- `CAN.TXSLOT[k](e)` (R215). -/
def txSlot (k : Chan) (e : Entry) (s : State) : Res Unit :=
  let (i, s) := s.askTxPut k
  if Config.txSlots ≤ i then .halt (s.raiseFatal 4 (.chan k))
  else .ok () ((s.txWrite k i (slotWords e)).txRequest k i)

/-- The callback of an `FQ.DEQ` call (41_frame_queue.md R162). -/
def runCallback (k : Chan) : Callback → Entry → State → Res Unit
  | .txSlot, e, s => txSlot k e s
  | .collect, _, s => .ok () s

/-- `CAN.PUMP(k)` (R214). An answer of `tx_free()` above `TX_SLOTS` is outside the port's contract (U18). -/
def transmitPump (pt : Hook) (k : Chan) (s : State) : Res Bool :=
  let (free, s) := s.askTxFree k
  if Config.txSlots < free then .refused .portContract
  else (pt s).bind fun _ s => (fqDequeue k (txSlot k) free s).bind fun r s => .ok r.1 s

/-! Start-up. -/

/-- An accept-all mask filter (30_encoding.md R112). -/
def acceptAll (kind : FilterKind) : Filter := ⟨kind, 0, 0, 0, Config.rxFifoSelect⟩

/-- One configuration call: its result is traced, `err` is fatal cause 5 (R216). -/
def configure (k : Chan) (step : Nat) (event : Bool → HwEvent) (s : State) : Res Unit :=
  let (ok, s) := s.askCfg k
  let s := s.traceHw k (event ok)
  if ok then .ok () s else .halt (s.raiseFatal 5 (.initStep k step))

/-- `CAN.INIT(k)` (R216): step I3 arms the "new message" interrupt (60_exceptions.md R249). -/
def initController (pt : Hook) (k : Chan) (s : State) : Res Unit :=
  (configure k 1 (.cfgFilter (acceptAll .standard)) s).bind fun _ s =>      -- I1
  (pt s).bind fun _ s =>
  (configure k 2 (.cfgFilter (acceptAll .extended)) s).bind fun _ s =>      -- I2
  (pt s).bind fun _ s =>
  (configure k 3 .cfgNotify s).bind fun _ s =>                              -- I3
  .ok () (s.setHw k { s.hw.get k with rxArmed := true })

end Sys2Proof.Machine
end

