-- ==== Sys2Proof/Machine/WireFraming.lean ====
section
/-! DEFINITION. The downlink side of the Wire Framing Codec (42_wire_framing.md R183 to R186) and the
iteration of the main loop that drives it (60_exceptions.md R256). `pt` is the preemption point. -/

namespace Sys2Proof.Machine

/-- `FQ.FLUSH(k)` exactly when `FLUSH_FQ_ON_CONNECT` (R184, D34). -/
def flushIfAsked (k : Chan) (s : State) : State :=
  { s with fq := if Config.flushFqOnConnect then (fqFlushAll k s).fq else s.fq }

/-- The flushes of the connect command, `for k = 1 .. CAN_CHANNELS` (R184), each one transition (41_frame_queue.md R160)
with a preemption point after it. Where none is asked for, the points stand in one place, where one would do (log
entry 10). -/
def flushOnConnect (pt : Hook) : List Chan → State → Res Unit
  | [], s => .ok () s
  | k :: ks, s => (pt (flushIfAsked k s)).bind fun _ s => flushOnConnect pt ks s

/-- What `DL.CTRL()` does for command 0, connect (R184). -/
def connect (pt : Hook) (s : State) : Res Unit :=
  (discardAll pt s).bind fun _ s =>
  (pt s).bind fun _ s =>
  (clearFlags pt s).bind fun _ s =>
  (pt s).bind fun _ s =>
  (pt (s.signal .diagReset)).bind fun _ s =>
  (flushOnConnect pt Chan.all s).bind fun _ s =>
  .ok () { s with dlRd := s.dlRd + 1 }

/-- `DL.CTRL()` (R184): a command other than 0 is fatal cause 1, command 0 is connect, under whichever row of the
opcode table the record came. -/
def control (pt : Hook) (cmd : BitVec 4) (s : State) : Res Unit :=
  if cmd ≠ 0#4 then .halt (s.raiseFatal 1 (.cmd cmd)) else connect pt s

/-- A source id 13..15: fatal cause 2 (R183). -/
def unknownSource (sid : BitVec 4) (s : State) : Res Unit :=
  .halt (s.raiseFatal 2 (.sid sid))

/-- `DL.CAN(k)` for the decoded record at `dl.rd` (R185): the record must lie in the packet, its entry is
enqueued, and where the queue is full the throwaway record is built all the same. -/
def downlinkFrame (pt : Hook) (k : Chan) (f : CanFrame) (s : State) : Res Unit :=
  if s.dlLen < s.dlRd + f.size then .halt (s.raiseFatal 3 (.rd s.dlRd))     -- 2
  else
    (pt s).bind fun _ s =>
    (fqEnqueue k (fun _ => txBuildFrame f) 1 s).bind fun ok s =>                 -- 3
    (pt s).bind fun _ s =>
    if ok then .ok () s
    else
      (downlinkCongestion pt s).bind fun _ s =>                                  -- 4
      (pt s).bind fun _ s =>
      (txBuildFrame f s).bind fun _ s => .ok () s

/-- `DL.EXT(sid)` (R186). -/
def external (sid : BitVec 4) (s : State) : Res Unit :=
  let (n, s) := s.askExtLen sid
  if 1 ≤ n ∧ n ≤ s.dlLen - s.dlRd then .ok () { s with dlRd := s.dlRd + n }
  else .halt (s.raiseFatal 3 (.rd s.dlRd))

/-- The handler that a decoded downlink record selects (R183, 30_encoding.md R114). No other instruction comes here, since
`decode` reads none (`decode_downlink`). -/
def runRecord (pt : Hook) (s : State) : Instr → Res Unit
  | .dCtrlConnect => connect pt s
  | .dCtrlReserved cmd => control pt cmd s
  | .dGpio _ => external 1#4 s
  | .dCan1Std rtr id data => downlinkFrame pt .can1 (stdFrame rtr id data) s
  | .dCan1Ext rtr id data => downlinkFrame pt .can1 (extFrame rtr id data) s
  | .dCan2Std rtr id data => downlinkFrame pt .can2 (stdFrame rtr id data) s
  | .dCan2Ext rtr id data => downlinkFrame pt .can2 (extFrame rtr id data) s
  | .dCan3Std rtr id data => downlinkFrame pt .can3 (stdFrame rtr id data) s
  | .dCan3Ext rtr id data => downlinkFrame pt .can3 (extFrame rtr id data) s
  | .dUart1 _ => external 5#4 s
  | .dUart2 _ => external 6#4 s
  | .dUart3 _ => external 7#4 s
  | .dUart4 _ => external 8#4 s
  | .dUart5 _ => external 9#4 s
  | .dUart6 _ => external 10#4 s
  | .dLed _ => external 11#4 s
  | .dBuzzer _ => external 12#4 s
  | .dReserved13 _ => unknownSource 13#4 s
  | .dReserved14 _ => unknownSource 14#4 s
  | .dReserved15 _ => unknownSource 15#4 s
  | .uCtrl _ _ | .uGpio _ _ | .uCan1Std _ _ _ | .uCan1Ext _ _ _ | .uCan2Std _ _ _ | .uCan2Ext _ _ _
  | .uCan3Std _ _ _ | .uCan3Ext _ _ _ | .uUart1 _ _ | .uUart2 _ _ | .uUart3 _ _ | .uUart4 _ _
  | .uUart5 _ _ | .uUart6 _ _ | .uSensor _ _ | .uReserved12 _ _ | .uReserved13 _ _ | .uReserved14 _ _
  | .uReserved15 _ _ | .bbAlloc _ | .bbWrite _ _ _ | .bbPop | .bbReset | .bbRead _ _ | .bbDiscardAll
  | .ulPump | .fqEnq _ _ _ | .fqDeq _ _ _ | .fqFlush _ | .ulCan _ _ _ _ _ | .dlDecode | .canRx _
  | .canPump _ | .canInit _ | .mainIter => .refused .wrongContext

/-- One pass of `DL.DECODE`'s loop: the record at `dl.rd` (R183); a CAN record that runs past the packet
is fatal cause 3 (R185 step 2). -/
def decodeOne (pt : Hook) (s : State) : Res Unit :=
  match decode s.packetRest with
  | .ok i => runRecord pt s i
  | .error .truncated => .halt (s.raiseFatal 3 (.rd s.dlRd))
  | .error .empty => .ok () s

/-- The loop of `DL.DECODE` (R183): every pass advances `dl.rd` or halts, so `dl.len - dl.rd` bounds it. -/
def decodeLoop (pt : Hook) : Nat → State → Res Unit
  | 0, s => .ok () s
  | n + 1, s =>
    if s.dlRd < s.dlLen then
      (decodeOne pt s).bind fun _ s => (pt s).bind fun _ s => decodeLoop pt n s
    else .ok () s

/-- Bytes a packet deposited by an interrupt of the given kind brings; see `State.packetBudget`. -/
def IrqReq.packetBytes : IrqReq → Nat
  | .usbRx bytes => bytes.length
  | _ => 0

/-- Bytes of the packet that are left and of the packets that may still be deposited: the bound of
`DL.DECODE`'s passes, since `UsbRx` may deposit a packet when the last one is decoded. -/
def State.packetBudget (s : State) : Nat :=
  (s.dlLen - s.dlRd) + (s.pending.map IrqReq.packetBytes).sum +
    (s.arrivals.map fun evs => (evs.map fun
      | .fire r => r.packetBytes
      | _ => 0).sum).sum

/-- `DL.DECODE()` (R183). -/
def decodePacket (pt : Hook) (s : State) : Res Unit := decodeLoop pt s.packetBudget s

/-- `DL.DEPOSIT(bytes)` (10_state.md R47, 70_reset_and_hazards.md R291): the rest of `dl.buf` becomes
unspecified. -/
def deposit (bytes : List Byte) (s : State) : Res Unit :=
  if bytes.length = 0 ∨ Config.dlMax < bytes.length then .refused .depositSize
  else if s.dlRd < s.dlLen then .refused .depositBusy
  else .ok () { s with dlBuf := Memory.ofBytes 0 bytes, dlLen := bytes.length, dlRd := 0 }

/-- The transmit pumps of an iteration, `for k = 1 .. CAN_CHANNELS` (60_exceptions.md R256). -/
def pumpEach (pt : Hook) : List Chan → State → Res Unit
  | [], s => .ok () s
  | k :: ks, s => (pt s).bind fun _ s => (transmitPump pt k s).bind fun _ s => pumpEach pt ks s

/-- `MAIN.ITER()` (60_exceptions.md R256). -/
def iterate (pt : Hook) (s : State) : Res Unit :=
  (if s.dlRd < s.dlLen then (decodePacket pt s).bind fun _ s => pt s else .ok () s).bind fun _ s =>
  (pump pt s).bind fun _ s => pumpEach pt Chan.all s

end Sys2Proof.Machine
end

