-- ==== Sys2Proof/Machine/Interrupts.lean ====
section
/-! DEFINITION. The preemption point (60_exceptions.md R250 to R252): between two micro-steps of the
running agent, a pending interrupt of higher priority runs its handler from entry to return, itself
preemptible in the same way; last in, first out. And the frame every meaning shares. -/

namespace Sys2Proof.Machine

/-- A result carried into the operation's outcome (00_scope.md R11). -/
def Res.map {α β : Type} (f : α → β) (r : Res α) : Res β := r.bind fun a s => .ok (f a) s

/-- The result of `BB.ALLOC` (40_batch_buffer.md R131). -/
def allocResult : Option (Slot × Nat) → OpResult
  | some (slot, off) => .granted slot off
  | none => .fail

/-- The result of `BB.POP` (R134). -/
def popResult : Option (Slot × Nat) → OpResult
  | some (slot, len) => .popped slot len
  | none => .noBatch

/-- The result of an emission (42_wire_framing.md R181). -/
def emitResult (b : Bool) : OpResult := if b then .written else .dropped

/-- `BB.ALLOC(size)` as a call: the caller holds the grant (40_batch_buffer.md R131, R133). -/
def allocOp (pt : Hook) (size : Nat) (s : State) : Res OpResult :=
  inInterruptContext s <|
  (alloc pt size s).bind fun r s =>
  match r with
  | some (slot, off) => .ok (.granted slot off) (s.addGrant slot off size)
  | none => .ok .fail s

/-- `BB.WRITE(slot, off, byte)` as a call (R133). -/
def writeOp (slot off : Nat) (b : Byte) (s : State) : Res OpResult :=
  inInterruptContext s <| (writeGranted slot off b s).map fun _ => .done

/-- `UL.CAN(k, ..)` as a call (42_wire_framing.md R181, R188), by `CanRx[k]` (R180). -/
def uplinkOp (pt : Hook) (k : Chan) (f : CanFrame) (s : State) : Res OpResult :=
  inInterruptContext s <| asProducerOf s k.sid <| (uplinkFrame pt k f s).map emitResult

/-- `CAN.RX(k)` as a call (43_can_codec.md R211), by `CanRx[k]` (R210). -/
def receiveOp (pt : Hook) (k : Chan) (s : State) : Res OpResult :=
  inInterruptContext s <| asProducerOf s k.sid <| (receive pt k s).map emitResult

/-- The record of an out-of-scope producer, an `ExtProd` (42_wire_framing.md R182). -/
def externalEmitOp (pt : Hook) (sid hi : BitVec 4) (rest : List Byte) (s : State) : Res OpResult :=
  inInterruptContext s <| asProducerOf s sid <| (emit pt (headerOf hi sid :: rest) s).map emitResult

/-- A record of an unassigned uplink source id: "never produced by the block" (30_encoding.md R103), and
a producer that emits one is outside the contract (93_implementation_defined.md U15). -/
def unassignedEmitOp (s : State) : Res OpResult :=
  inInterruptContext s <| .refused .unassignedUplinkSource

/-- An operation of the interrupt context (60_exceptions.md R253); a handler may call no other, and none that emits a
record of a source that is not its own (`emits`, log entry 31). `BB.ALLOC` is any handler's, as R253 has it. -/
def producerOp (pt : Hook) (s : State) : Instr → Res OpResult
  | .uCtrl hi rest => externalEmitOp pt 0#4 hi rest s
  | .uGpio hi rest => externalEmitOp pt 1#4 hi rest s
  | .uCan1Std rtr id data => uplinkOp pt .can1 (stdFrame rtr id data) s
  | .uCan1Ext rtr id data => uplinkOp pt .can1 (extFrame rtr id data) s
  | .uCan2Std rtr id data => uplinkOp pt .can2 (stdFrame rtr id data) s
  | .uCan2Ext rtr id data => uplinkOp pt .can2 (extFrame rtr id data) s
  | .uCan3Std rtr id data => uplinkOp pt .can3 (stdFrame rtr id data) s
  | .uCan3Ext rtr id data => uplinkOp pt .can3 (extFrame rtr id data) s
  | .uUart1 hi rest => externalEmitOp pt 5#4 hi rest s
  | .uUart2 hi rest => externalEmitOp pt 6#4 hi rest s
  | .uUart3 hi rest => externalEmitOp pt 7#4 hi rest s
  | .uUart4 hi rest => externalEmitOp pt 8#4 hi rest s
  | .uUart5 hi rest => externalEmitOp pt 9#4 hi rest s
  | .uUart6 hi rest => externalEmitOp pt 10#4 hi rest s
  | .uSensor hi rest => externalEmitOp pt 11#4 hi rest s
  | .uReserved12 _ _ => unassignedEmitOp s
  | .uReserved13 _ _ => unassignedEmitOp s
  | .uReserved14 _ _ => unassignedEmitOp s
  | .uReserved15 _ _ => unassignedEmitOp s
  | .bbAlloc size => allocOp pt size s
  | .bbWrite slot off b => writeOp slot off b s
  | .ulCan k ext rtr id data => uplinkOp pt k ⟨rtr, .of ext id, data⟩ s
  | .canRx k => receiveOp pt k s
  | .dCtrlConnect | .dCtrlReserved _ | .dGpio _ | .dCan1Std _ _ _ | .dCan1Ext _ _ _
  | .dCan2Std _ _ _ | .dCan2Ext _ _ _ | .dCan3Std _ _ _ | .dCan3Ext _ _ _ | .dUart1 _ | .dUart2 _
  | .dUart3 _ | .dUart4 _ | .dUart5 _ | .dUart6 _ | .dLed _ | .dBuzzer _ | .dReserved13 _
  | .dReserved14 _ | .dReserved15 _ | .bbPop | .bbReset | .bbRead _ _ | .bbDiscardAll | .ulPump
  | .fqEnq _ _ _ | .fqDeq _ _ _ | .fqFlush _ | .dlDecode | .canPump _ | .canInit _ | .mainIter =>
    .refused .wrongContext

/-- One call of a handler. `DL.DEPOSIT` is `UsbRx`'s alone (R253). -/
def handlerCall (pt : Hook) (s : State) : Call → Res Unit
  | .op i => (producerOp pt s i).map fun _ => ()
  | .deposit bytes => if s.running = .usbRx then deposit bytes s else .refused .wrongContext

/-- The calls of a handler in order, with a preemption point after each. -/
def handlerCalls (pt : Hook) : List Call → State → Res Unit
  | [], s => .ok () s
  | c :: cs, s => (handlerCall pt s c).bind fun _ s => (pt s).bind fun _ s => handlerCalls pt cs s

/-- A handler from entry to return (R251, R252 clause 2). -/
def runHandler (pt : Hook) (r : IrqReq) (s : State) : Res Unit :=
  (s.enterHandler r []).bind fun _ s =>
  (pt s).bind fun _ s =>
  (handlerCalls pt r.calls s).bind fun _ s => s.leaveHandler

/-- The preemption point (R252). The first argument is at least the number of interrupts the
environment still asks for (`State.budget`), so no admissible interrupt is left out: each handler that
starts takes one of them. -/
def point : Nat → State → Res Unit
  | 0, s => .ok () s.takeArrivals
  | n + 1, s =>
    let s := s.takeArrivals
    match pickRequest s.admissible s.pending with
    | none => .ok () s
    | some (r, others) =>
      (runHandler (point n) r { s with pending := others }).bind fun _ s => point n s

/-! The frame of every meaning. -/

/-- An operation from its call to its result: none has a step while the block is halted (R247). -/
def runOp (body : Hook → State → Res OpResult) (s : State) : Host.Outcome State Fault Refusal :=
  if s.halted then .fault .halted else (body (point s.budget) s).outcome

/-- The meaning of a downlink record: one pass of `DL.DECODE`'s loop, in `Main`, where the packet has a
record left (42_wire_framing.md R183; 60_exceptions.md R253). -/
def runDownlink (body : Hook → State → Res Unit) (s : State) : Host.Outcome State Fault Refusal :=
  runOp (fun pt s => inMainContext s <|
    if s.dlRd < s.dlLen then (body pt s).map fun _ => .done else .refused .noRecord) s

end Sys2Proof.Machine
end

