-- ==== Sys2Proof/Machine/Downlink.lean ====
section
/-! DEFINITION. The meanings of the downlink records `D.*` (42_wire_framing.md R183 to R186): executing one is one
pass of `DL.DECODE`'s loop, the record being the one at `dl.rd`. -/

namespace Sys2Proof.Machine

/-- `D.CTRL.CONNECT` (R184): discard queued uplink data, reset the diagnostic state. -/
def execDCtrlConnect (s : State) : Host.Outcome State Fault Refusal :=
  runDownlink connect s

/-- `D.CTRL.RESERVED` (R184): fatal cause 1. The record with command 0 is connect's (30_encoding.md R93). -/
def execDCtrlReserved (cmd : BitVec 4) (s : State) : Host.Outcome State Fault Refusal :=
  runDownlink (fun pt => control pt cmd) s

/-- `D.GPIO` (R186); the header nibble is `EXT_DECODE`'s to read (93_implementation_defined.md U12). -/
def execDGpio (_hi : BitVec 4) (s : State) : Host.Outcome State Fault Refusal :=
  runDownlink (fun _ => external 1#4) s

/-- `D.CAN1.STD` (R185). -/
def execDCan1Std (rtr : Bool) (id : StdId) (data : Payload) (s : State) :
    Host.Outcome State Fault Refusal :=
  runDownlink (fun pt => downlinkFrame pt .can1 (stdFrame rtr id data)) s

/-- `D.CAN1.EXT` (R185). -/
def execDCan1Ext (rtr : Bool) (id : ExtId) (data : Payload) (s : State) :
    Host.Outcome State Fault Refusal :=
  runDownlink (fun pt => downlinkFrame pt .can1 (extFrame rtr id data)) s

/-- `D.CAN2.STD` (R185). -/
def execDCan2Std (rtr : Bool) (id : StdId) (data : Payload) (s : State) :
    Host.Outcome State Fault Refusal :=
  runDownlink (fun pt => downlinkFrame pt .can2 (stdFrame rtr id data)) s

/-- `D.CAN2.EXT` (R185). -/
def execDCan2Ext (rtr : Bool) (id : ExtId) (data : Payload) (s : State) :
    Host.Outcome State Fault Refusal :=
  runDownlink (fun pt => downlinkFrame pt .can2 (extFrame rtr id data)) s

/-- `D.CAN3.STD` (R185). -/
def execDCan3Std (rtr : Bool) (id : StdId) (data : Payload) (s : State) :
    Host.Outcome State Fault Refusal :=
  runDownlink (fun pt => downlinkFrame pt .can3 (stdFrame rtr id data)) s

/-- `D.CAN3.EXT` (R185). -/
def execDCan3Ext (rtr : Bool) (id : ExtId) (data : Payload) (s : State) :
    Host.Outcome State Fault Refusal :=
  runDownlink (fun pt => downlinkFrame pt .can3 (extFrame rtr id data)) s

/-- `D.UART1` (R186). -/
def execDUart1 (_hi : BitVec 4) (s : State) : Host.Outcome State Fault Refusal :=
  runDownlink (fun _ => external 5#4) s

/-- `D.UART2` (R186). -/
def execDUart2 (_hi : BitVec 4) (s : State) : Host.Outcome State Fault Refusal :=
  runDownlink (fun _ => external 6#4) s

/-- `D.UART3` (R186). -/
def execDUart3 (_hi : BitVec 4) (s : State) : Host.Outcome State Fault Refusal :=
  runDownlink (fun _ => external 7#4) s

/-- `D.UART4` (R186). -/
def execDUart4 (_hi : BitVec 4) (s : State) : Host.Outcome State Fault Refusal :=
  runDownlink (fun _ => external 8#4) s

/-- `D.UART5` (R186). -/
def execDUart5 (_hi : BitVec 4) (s : State) : Host.Outcome State Fault Refusal :=
  runDownlink (fun _ => external 9#4) s

/-- `D.UART6` (R186). -/
def execDUart6 (_hi : BitVec 4) (s : State) : Host.Outcome State Fault Refusal :=
  runDownlink (fun _ => external 10#4) s

/-- `D.LED` (R186). -/
def execDLed (_hi : BitVec 4) (s : State) : Host.Outcome State Fault Refusal :=
  runDownlink (fun _ => external 11#4) s

/-- `D.BUZZER` (R186). -/
def execDBuzzer (_hi : BitVec 4) (s : State) : Host.Outcome State Fault Refusal :=
  runDownlink (fun _ => external 12#4) s

/-- `D.RESERVED13` (R183): fatal cause 2. -/
def execDReserved13 (_hi : BitVec 4) (s : State) : Host.Outcome State Fault Refusal :=
  runDownlink (fun _ => unknownSource 13#4) s

/-- `D.RESERVED14` (R183): fatal cause 2. -/
def execDReserved14 (_hi : BitVec 4) (s : State) : Host.Outcome State Fault Refusal :=
  runDownlink (fun _ => unknownSource 14#4) s

/-- `D.RESERVED15` (R183): fatal cause 2. -/
def execDReserved15 (_hi : BitVec 4) (s : State) : Host.Outcome State Fault Refusal :=
  runDownlink (fun _ => unknownSource 15#4) s

end Sys2Proof.Machine
end

