-- ==== Sys2Proof/Machine/Ports.lean ====
section
/-! DEFINITION. The meanings of the port operations (30_encoding.md R115). Each runs from its call to its result
with every preemption the environment asks for (60_exceptions.md R252). -/

namespace Sys2Proof.Machine

/-- `BB.ALLOC` (40_batch_buffer.md R131). -/
def execBbAlloc (size : Nat) (s : State) : Host.Outcome State Fault Refusal :=
  runOp (fun pt => allocOp pt size) s

/-- `BB.WRITE` (R133). -/
def execBbWrite (slot off : Nat) (byte : Byte) (s : State) : Host.Outcome State Fault Refusal :=
  runOp (fun _ => writeOp slot off byte) s

/-- `BB.POP` (R134). -/
def execBbPop (s : State) : Host.Outcome State Fault Refusal :=
  runOp (fun pt s => inMainContext s <| (pop pt s).map popResult) s

/-- `BB.RESET` (R135). -/
def execBbReset (s : State) : Host.Outcome State Fault Refusal :=
  runOp (fun pt s => inMainContext s <| (resetOldest pt s).map fun _ => .done) s

/-- `BB.READ` (R137). -/
def execBbRead (slot off : Nat) (s : State) : Host.Outcome State Fault Refusal :=
  runOp (fun _ s => inMainContext s <| (readPopped slot off s).map .byte) s

/-- `BB.DISCARD_ALL` (R138). -/
def execBbDiscardAll (s : State) : Host.Outcome State Fault Refusal :=
  runOp (fun pt s => inMainContext s <| (discardAll pt s).map fun _ => .done) s

/-- `UL.PUMP` (R139). -/
def execUlPump (s : State) : Host.Outcome State Fault Refusal :=
  runOp (fun pt s => inMainContext s <| (pump pt s).map fun b => if b then .sent else .idle) s

/-- `FQ.ENQ` (41_frame_queue.md R161). -/
def execFqEnq (k : Chan) (build : Builder) (count : Nat) (s : State) : Host.Outcome State Fault Refusal :=
  runOp (fun _ s => inMainContext s <| (fqEnqueue k (runBuilder build) count s).map .bool) s

/-- `FQ.DEQ` (R162). -/
def execFqDeq (k : Chan) (cb : Callback) (max : Nat) (s : State) : Host.Outcome State Fault Refusal :=
  runOp (fun _ s => inMainContext s <|
    (fqDequeue k (runCallback k cb) max s).map fun r => .dequeued r.1 r.2) s

/-- `FQ.FLUSH` (R163). -/
def execFqFlush (k : Chan) (s : State) : Host.Outcome State Fault Refusal :=
  runOp (fun _ s => inMainContext s <| .ok .done (fqFlushAll k s)) s

/-- `UL.CAN` (42_wire_framing.md R181). -/
def execUlCan (k : Chan) (ext rtr : Bool) (id : BitVec (CanId.width ext)) (data : Payload) (s : State) :
    Host.Outcome State Fault Refusal :=
  runOp (fun pt => uplinkOp pt k ⟨rtr, .of ext id, data⟩) s

/-- `DL.DECODE` (R183). -/
def execDlDecode (s : State) : Host.Outcome State Fault Refusal :=
  runOp (fun pt s => inMainContext s <| (decodePacket pt s).map fun _ => .done) s

/-- `CAN.RX` (43_can_codec.md R211). -/
def execCanRx (k : Chan) (s : State) : Host.Outcome State Fault Refusal :=
  runOp (fun pt => receiveOp pt k) s

/-- `CAN.PUMP` (R214). -/
def execCanPump (k : Chan) (s : State) : Host.Outcome State Fault Refusal :=
  runOp (fun pt s => inMainContext s <| (transmitPump pt k s).map .bool) s

/-- The boot steps before B3 (70_reset_and_hazards.md R282). -/
def Phase.inBoot : Phase → Bool
  | .boot _ => true
  | .unmask => true
  | .decode => false
  | .canPump _ => false

/-- `CAN.INIT` (R216): during boot only (60_exceptions.md R253). -/
def execCanInit (k : Chan) (s : State) : Host.Outcome State Fault Refusal :=
  runOp (fun pt s => inMainContext s <|
    if s.phase.inBoot then (initController pt k s).map fun _ => .done else .refused .afterBoot) s

/-- `MAIN.ITER` (60_exceptions.md R256). -/
def execMainIter (s : State) : Host.Outcome State Fault Refusal :=
  runOp (fun pt s => inMainContext s <| (iterate pt s).map fun _ => .done) s

end Sys2Proof.Machine
end

