-- ==== Sys2Proof/Machine/Uplink.lean ====
section
/-! DEFINITION. The meanings of the uplink records `U.*`: executing one is its emission by the producer whose
handler runs (42_wire_framing.md R181, R182): one `BB.ALLOC` of the whole record, then its bytes. -/

namespace Sys2Proof.Machine

/-- `U.CTRL` (R182). -/
def execUCtrl (hi : BitVec 4) (rest : List Byte) (s : State) : Host.Outcome State Fault Refusal :=
  runOp (fun pt => externalEmitOp pt 0#4 hi rest) s

/-- `U.GPIO` (R182). -/
def execUGpio (hi : BitVec 4) (rest : List Byte) (s : State) : Host.Outcome State Fault Refusal :=
  runOp (fun pt => externalEmitOp pt 1#4 hi rest) s

/-- `U.UART1` (R182). -/
def execUUart1 (hi : BitVec 4) (rest : List Byte) (s : State) : Host.Outcome State Fault Refusal :=
  runOp (fun pt => externalEmitOp pt 5#4 hi rest) s

/-- `U.UART2` (R182). -/
def execUUart2 (hi : BitVec 4) (rest : List Byte) (s : State) : Host.Outcome State Fault Refusal :=
  runOp (fun pt => externalEmitOp pt 6#4 hi rest) s

/-- `U.UART3` (R182). -/
def execUUart3 (hi : BitVec 4) (rest : List Byte) (s : State) : Host.Outcome State Fault Refusal :=
  runOp (fun pt => externalEmitOp pt 7#4 hi rest) s

/-- `U.UART4` (R182). -/
def execUUart4 (hi : BitVec 4) (rest : List Byte) (s : State) : Host.Outcome State Fault Refusal :=
  runOp (fun pt => externalEmitOp pt 8#4 hi rest) s

/-- `U.UART5` (R182). -/
def execUUart5 (hi : BitVec 4) (rest : List Byte) (s : State) : Host.Outcome State Fault Refusal :=
  runOp (fun pt => externalEmitOp pt 9#4 hi rest) s

/-- `U.UART6` (R182). -/
def execUUart6 (hi : BitVec 4) (rest : List Byte) (s : State) : Host.Outcome State Fault Refusal :=
  runOp (fun pt => externalEmitOp pt 10#4 hi rest) s

/-- `U.SENSOR` (R182). -/
def execUSensor (hi : BitVec 4) (rest : List Byte) (s : State) : Host.Outcome State Fault Refusal :=
  runOp (fun pt => externalEmitOp pt 11#4 hi rest) s

/-- `U.CAN1.STD` (R181, R188). -/
def execUCan1Std (rtr : Bool) (id : StdId) (data : Payload) (s : State) :
    Host.Outcome State Fault Refusal :=
  runOp (fun pt => uplinkOp pt .can1 (stdFrame rtr id data)) s

/-- `U.CAN1.EXT` (R181, R188). -/
def execUCan1Ext (rtr : Bool) (id : ExtId) (data : Payload) (s : State) :
    Host.Outcome State Fault Refusal :=
  runOp (fun pt => uplinkOp pt .can1 (extFrame rtr id data)) s

/-- `U.CAN2.STD` (R181, R188). -/
def execUCan2Std (rtr : Bool) (id : StdId) (data : Payload) (s : State) :
    Host.Outcome State Fault Refusal :=
  runOp (fun pt => uplinkOp pt .can2 (stdFrame rtr id data)) s

/-- `U.CAN2.EXT` (R181, R188). -/
def execUCan2Ext (rtr : Bool) (id : ExtId) (data : Payload) (s : State) :
    Host.Outcome State Fault Refusal :=
  runOp (fun pt => uplinkOp pt .can2 (extFrame rtr id data)) s

/-- `U.CAN3.STD` (R181, R188). -/
def execUCan3Std (rtr : Bool) (id : StdId) (data : Payload) (s : State) :
    Host.Outcome State Fault Refusal :=
  runOp (fun pt => uplinkOp pt .can3 (stdFrame rtr id data)) s

/-- `U.CAN3.EXT` (R181, R188). -/
def execUCan3Ext (rtr : Bool) (id : ExtId) (data : Payload) (s : State) :
    Host.Outcome State Fault Refusal :=
  runOp (fun pt => uplinkOp pt .can3 (extFrame rtr id data)) s

/-- `U.RESERVED12` (30_encoding.md R103, 93_implementation_defined.md U15): outside the contract. -/
def execUReserved12 (_hi : BitVec 4) (_rest : List Byte) (s : State) : Host.Outcome State Fault Refusal :=
  runOp (fun _ => unassignedEmitOp) s

/-- `U.RESERVED13` (30_encoding.md R103, 93_implementation_defined.md U15): outside the contract. -/
def execUReserved13 (_hi : BitVec 4) (_rest : List Byte) (s : State) : Host.Outcome State Fault Refusal :=
  runOp (fun _ => unassignedEmitOp) s

/-- `U.RESERVED14` (30_encoding.md R103, 93_implementation_defined.md U15): outside the contract. -/
def execUReserved14 (_hi : BitVec 4) (_rest : List Byte) (s : State) : Host.Outcome State Fault Refusal :=
  runOp (fun _ => unassignedEmitOp) s

/-- `U.RESERVED15` (30_encoding.md R103, 93_implementation_defined.md U15): outside the contract. -/
def execUReserved15 (_hi : BitVec 4) (_rest : List Byte) (s : State) : Host.Outcome State Fault Refusal :=
  runOp (fun _ => unassignedEmitOp) s

end Sys2Proof.Machine
end

