-- ==== Sys2Proof/Machine/Dispatch.lean ====
section
/-! DEFINITION. One arm per instruction, each one direct call of its meaning. -/

namespace Sys2Proof.Machine

def exec (i : Instr) (s : State) : Host.Outcome State Fault Refusal :=
  match i with
  | .dCtrlConnect => Sys2Proof.Machine.execDCtrlConnect s
  | .dCtrlReserved cmd => Sys2Proof.Machine.execDCtrlReserved cmd s
  | .dGpio hi => Sys2Proof.Machine.execDGpio hi s
  | .dCan1Std rtr id data => Sys2Proof.Machine.execDCan1Std rtr id data s
  | .dCan1Ext rtr id data => Sys2Proof.Machine.execDCan1Ext rtr id data s
  | .dCan2Std rtr id data => Sys2Proof.Machine.execDCan2Std rtr id data s
  | .dCan2Ext rtr id data => Sys2Proof.Machine.execDCan2Ext rtr id data s
  | .dCan3Std rtr id data => Sys2Proof.Machine.execDCan3Std rtr id data s
  | .dCan3Ext rtr id data => Sys2Proof.Machine.execDCan3Ext rtr id data s
  | .dUart1 hi => Sys2Proof.Machine.execDUart1 hi s
  | .dUart2 hi => Sys2Proof.Machine.execDUart2 hi s
  | .dUart3 hi => Sys2Proof.Machine.execDUart3 hi s
  | .dUart4 hi => Sys2Proof.Machine.execDUart4 hi s
  | .dUart5 hi => Sys2Proof.Machine.execDUart5 hi s
  | .dUart6 hi => Sys2Proof.Machine.execDUart6 hi s
  | .dLed hi => Sys2Proof.Machine.execDLed hi s
  | .dBuzzer hi => Sys2Proof.Machine.execDBuzzer hi s
  | .dReserved13 hi => Sys2Proof.Machine.execDReserved13 hi s
  | .dReserved14 hi => Sys2Proof.Machine.execDReserved14 hi s
  | .dReserved15 hi => Sys2Proof.Machine.execDReserved15 hi s
  | .uCtrl hi rest => Sys2Proof.Machine.execUCtrl hi rest s
  | .uGpio hi rest => Sys2Proof.Machine.execUGpio hi rest s
  | .uCan1Std rtr id data => Sys2Proof.Machine.execUCan1Std rtr id data s
  | .uCan1Ext rtr id data => Sys2Proof.Machine.execUCan1Ext rtr id data s
  | .uCan2Std rtr id data => Sys2Proof.Machine.execUCan2Std rtr id data s
  | .uCan2Ext rtr id data => Sys2Proof.Machine.execUCan2Ext rtr id data s
  | .uCan3Std rtr id data => Sys2Proof.Machine.execUCan3Std rtr id data s
  | .uCan3Ext rtr id data => Sys2Proof.Machine.execUCan3Ext rtr id data s
  | .uUart1 hi rest => Sys2Proof.Machine.execUUart1 hi rest s
  | .uUart2 hi rest => Sys2Proof.Machine.execUUart2 hi rest s
  | .uUart3 hi rest => Sys2Proof.Machine.execUUart3 hi rest s
  | .uUart4 hi rest => Sys2Proof.Machine.execUUart4 hi rest s
  | .uUart5 hi rest => Sys2Proof.Machine.execUUart5 hi rest s
  | .uUart6 hi rest => Sys2Proof.Machine.execUUart6 hi rest s
  | .uSensor hi rest => Sys2Proof.Machine.execUSensor hi rest s
  | .uReserved12 hi rest => Sys2Proof.Machine.execUReserved12 hi rest s
  | .uReserved13 hi rest => Sys2Proof.Machine.execUReserved13 hi rest s
  | .uReserved14 hi rest => Sys2Proof.Machine.execUReserved14 hi rest s
  | .uReserved15 hi rest => Sys2Proof.Machine.execUReserved15 hi rest s
  | .bbAlloc size => Sys2Proof.Machine.execBbAlloc size s
  | .bbWrite slot off byte => Sys2Proof.Machine.execBbWrite slot off byte s
  | .bbPop => Sys2Proof.Machine.execBbPop s
  | .bbReset => Sys2Proof.Machine.execBbReset s
  | .bbRead slot off => Sys2Proof.Machine.execBbRead slot off s
  | .bbDiscardAll => Sys2Proof.Machine.execBbDiscardAll s
  | .ulPump => Sys2Proof.Machine.execUlPump s
  | .fqEnq k build count => Sys2Proof.Machine.execFqEnq k build count s
  | .fqDeq k cb max => Sys2Proof.Machine.execFqDeq k cb max s
  | .fqFlush k => Sys2Proof.Machine.execFqFlush k s
  | .ulCan k ext rtr id data => Sys2Proof.Machine.execUlCan k ext rtr id data s
  | .dlDecode => Sys2Proof.Machine.execDlDecode s
  | .canRx k => Sys2Proof.Machine.execCanRx k s
  | .canPump k => Sys2Proof.Machine.execCanPump k s
  | .canInit k => Sys2Proof.Machine.execCanInit k s
  | .mainIter => Sys2Proof.Machine.execMainIter s

end Sys2Proof.Machine
end

