-- ==== Sys2Proof/Machine/Schedule.lean ====
section
/-! DEFINITION. What one step does: an interrupt starts, or the running agent runs its next
instruction (60_exceptions.md R252). `Main` runs the boot sequence (70_reset_and_hazards.md R282) and
then its loop (60_exceptions.md R256), one instruction a step; a downlink record is fetched at `dl.rd`
(10_state.md R36). -/

namespace Sys2Proof.Machine

/-- `Main` between two calls: the boot steps B2 and B3, then the parts of an iteration in order. -/
def mainStep (s : State) : Host.Outcome State Fault Refusal :=
  match s.phase with
  | .boot k => exec (.canInit k) { s with phase := (k.next.map Phase.boot).getD .unmask }
  | .unmask => .next { s with irqMasked := false, phase := .decode }
  | .decode =>
    if s.dlRd < s.dlLen then
      match decode s.packetRest with
      | .ok i => exec i s
      | .error _ => .next (s.raiseFatal 3 (.rd s.dlRd))
    else exec .ulPump { s with phase := .canPump .can1 }
  | .canPump k => exec (.canPump k) { s with phase := (k.next.map Phase.canPump).getD .decode }

/-- The running agent's next instruction: the innermost handler's, or its return (R251); else the next
operation asked of `Main`; else `Main`'s own. -/
def runNext (s : State) : Host.Outcome State Fault Refusal :=
  match s.stack with
  | ⟨_, []⟩ :: _ => s.leaveHandler.outcomeUnit
  | ⟨a, .op i :: todo⟩ :: rest => exec i { s with stack := ⟨a, todo⟩ :: rest }
  | ⟨a, .deposit bytes :: todo⟩ :: rest =>
    (handlerCall (fun s => .ok () s) { s with stack := ⟨a, todo⟩ :: rest } (.deposit bytes)).outcomeUnit
  | [] =>
    match s.calls with
    | i :: calls => exec i { s with calls := calls }
    | [] => mainStep s

/-- One step. A halted block has none (R247); otherwise the environment moves, and a pending interrupt
that may start does (R252 clause 1), else the running agent goes on. -/
def stepOnce (s : State) : Host.Outcome State Fault Refusal :=
  if s.halted then .fault .halted
  else
    let s := s.takeArrivals
    match pickRequest s.admissible s.pending with
    | some (r, others) => (({ s with pending := others }).enterHandler r r.calls).outcomeUnit
    | none => runNext s

/-- `s` with an instruction stored where `step` fetches its next: the bits of a record in `dl.buf` at
`dl.rd`, `Main` at the head of its loop with nothing pending (log entry 7). Fewer than 8 bits are a
port operation's select code: the operation is asked of `Main`, or, where only a handler may call it,
of a handler. -/
def State.placeFetch (s : State) (nbits w : Nat) : State :=
  let s := { s with halted := false, stack := [], calls := [], pending := [], arrivals := [] }
  if nbits < 8 then
    match decodeSelect (BitVec.ofNat 4 (w % 2 ^ nbits)) with
    | .bbAlloc n => { s with stack := [⟨.canRx .can1, [.op (.bbAlloc n)]⟩] }
    | .bbWrite a b c => { s with stack := [⟨.canRx .can1, [.op (.bbWrite a b c)]⟩] }
    | .ulCan k x r i d => { s with stack := [⟨.canRx .can1, [.op (.ulCan k x r i d)]⟩] }
    | .canRx k => { s with stack := [⟨.canRx .can1, [.op (.canRx k)]⟩] }
    | i => { s with calls := [i] }
  else
    { s with phase := .decode, dlBuf := Memory.ofBytes 0 (tableBytes nbits w), dlLen := longestRecord, dlRd := 0 }

end Sys2Proof.Machine
end

