-- ==== Sys2Proof/Machine/Step.lean ====
section
/-! DEFINITION. The step of the machine and where it fetches; both are written in Schedule.lean. -/

namespace Sys2Proof.Machine

/-- One step of the machine (`stepOnce`). -/
def step (s : State) : Host.Outcome State Fault Refusal := stepOnce s

/-- `s` with an instruction stored where `step` fetches its next one (`State.placeFetch`). -/
def State.withFetchWord (s : State) (nbits w : Nat) : State := s.placeFetch nbits w

end Sys2Proof.Machine
end

