-- ==== Sys2Proof/Safety.lean ====
section
/-! DEFINITION. What counts as a good state and a safe run, in the terms the claims use: the
invariants the spec states (10_state.md R22, R25, R31; 40_batch_buffer.md R140; 41_frame_queue.md
R164), and the absence of a fatal halt (60_exceptions.md R247). -/

namespace Sys2Proof.Machine

/-- The Batch Buffer's cursors: `0 ≤ produced -% consumed ≤ BATCH_COUNT` (10_state.md R25). -/
def State.cursorsOk (s : State) : Prop := (s.bbProduced - s.bbConsumed).toNat ≤ Config.batchCount

/-- Every written length lies in 1..`BATCH_SIZE` (40_batch_buffer.md R140 clause 2). -/
def State.wlenOk (s : State) : Prop :=
  ∀ i : Slot, 1 ≤ (s.wlen[i]).toNat ∧ (s.wlen[i]).toNat ≤ Config.batchSize

/-- Byte 0 of every batch is the sentinel (10_state.md R22, 40_batch_buffer.md R140 clause 5). -/
def State.sentinelOk (s : State) : Prop :=
  ∀ i : Slot, Memory.read .batch s.batch (batchAddr i 0) = some Config.sentinel

/-- Both memories are in canonical form. -/
def State.memoryOk (s : State) : Prop :=
  Memory.wf .batch s.batch = true ∧ Memory.wf .dlbuf s.dlBuf = true

/-- Every Frame Queue's fill is at most its capacity (10_state.md R31, 41_frame_queue.md R164). -/
def State.queuesOk (s : State) : Prop := ∀ k : Chan, (s.fq.get k).fill ≤ Config.fqCapacity

/-- The read cursor stays in the packet (10_state.md R36). -/
def State.downlinkOk (s : State) : Prop := s.dlRd ≤ s.dlLen

/-- A halted block has its interrupts masked and one of the causes 1..5 latched (60_exceptions.md R246,
R247; 10_state.md R40). -/
def State.haltOk (s : State) : Prop :=
  s.halted = true → s.irqMasked = true ∧ 1 ≤ s.fatalCode.toNat ∧ s.fatalCode.toNat ≤ 5

/-- Every grant lies in its batch and leaves the sentinel alone (20_memory.md R61, 40_batch_buffer.md R131). -/
def State.grantsOk (s : State) : Prop :=
  ∀ g ∈ s.grants, 1 ≤ g.off ∧ g.off + g.size ≤ Config.batchSize

/-- The ranges follow each other without a gap from `lo` on and end at `hi`; none is empty. -/
def tiles (lo : Nat) : List (Nat × Nat) → Nat → Prop
  | [], hi => lo = hi
  | (off, size) :: rest, hi => off = lo ∧ 1 ≤ size ∧ tiles (lo + size) rest hi

/-- The ranges granted in a batch are disjoint and tile `data[1 .. wlen-1]` exactly (40_batch_buffer.md R140 clause 6). -/
def State.tilingOk (s : State) : Prop := ∀ i : Slot, tiles 1 s.ranges[i] (s.wlen[i]).toNat

/-- Every entry a Frame Queue slot holds is one the rules admit (10_state.md R30; 30_encoding.md R106, R108). -/
def State.entriesOk (s : State) : Prop :=
  ∀ (k : Chan) (j : Fin Config.fqCapacity) (e : Entry), (s.fq.get k).slots[j] = some e → e.wf = true

/-- The invariant of the machine: every clause above. -/
structure State.Inv (s : State) : Prop where
  cursors  : s.cursorsOk
  wlens    : s.wlenOk
  tiling   : s.tilingOk
  sentinel : s.sentinelOk
  memory   : s.memoryOk
  queues   : s.queuesOk
  entries  : s.entriesOk
  downlink : s.downlinkOk
  halt     : s.haltOk
  grants   : s.grantsOk

/-- Nothing preempts the running agent: the environment makes no move, and no interrupt that is pending may start. -/
def State.quiet (s : State) : Prop :=
  s.arrivals = [] ∧ ∀ r ∈ s.pending, s.admissible r = false

/-- A run is safe while no fatal cause is latched (R247: a claim about a run takes "no fatal recorded"
as a premise). -/
def State.safe (s : State) : Prop := s.halted = false

/-! Where an instruction runs, for the claims about one instruction. -/

/-- `Main` has the next instruction and runs it unpreempted. -/
structure State.MainTurn (s : State) : Prop where
  running : s.halted = false
  quiet   : s.quiet
  stack   : s.stack = []

/-- A handler has the next instruction and runs it unpreempted. -/
structure State.HandlerTurn (s : State) : Prop where
  running : s.halted = false
  quiet   : s.quiet
  context : s.inInterrupt = true

/-! Which batches are empty (40_batch_buffer.md R140 clauses 3 and 4). -/

/-- From the cursor value `v` on: every batch outside `v .. bb.produced - 1` is empty (R140 clause 3), every batch
inside but the newest holds data (clause 4), and `v` is `bb.consumed` or an opened batch. Between the steps T2 and T3
of `BB.RESET` it holds of `bb.consumed + 1` in place of `bb.consumed`. -/
structure State.OrderedFrom (s : State) (v : Cursor) : Prop where
  place  : v = s.bbConsumed ∨ (v - s.bbConsumed).toNat < (s.bbProduced - s.bbConsumed).toNat
  empty  : ∀ i : Slot, (∀ n < (s.bbProduced - v).toNat, slotOf (v + BitVec.ofNat Config.cursorBits n) ≠ i) → s.wlen[i] = 1
  filled : ∀ n, n + 1 < (s.bbProduced - v).toNat → 1 < (s.wlen[slotOf (v + BitVec.ofNat Config.cursorBits n)]).toNat

/-- The batch that `UL.PUMP` resets next, the one it handed to the transport, is closed. -/
def State.sentClosed (s : State) : Prop :=
  s.txPending = true → 2 ≤ (s.bbProduced - s.bbConsumed).toNat

/-- Clauses 3 and 4 of R140, with what `UL.PUMP` needs to keep them. -/
structure State.Orderly (s : State) : Prop where
  ordered : s.OrderedFrom s.bbConsumed
  sent    : s.sentClosed

/-- The instruction that the running agent has been asked to run next. -/
def State.nextCall (s : State) : Option Instr :=
  match s.stack with
  | [] => s.calls.head?
  | ⟨_, .op i :: _⟩ :: _ => some i
  | ⟨_, _⟩ :: _ => none

/-- The driver's obligation on a direct `BB.RESET` (R135; 70_reset_and_hazards.md R286): the batch is closed, and a
batch handed to the transport stays opened until `UL.PUMP` resets it. R135 corner case (b) lets a driver reset a batch that
is still open; a producer that preempts then breaks clause 3 (log entry 29). -/
def State.resetsClosed (s : State) : Prop :=
  s.nextCall = some .bbReset → (if s.txPending then 3 else 2) ≤ (s.bbProduced - s.bbConsumed).toNat

/-- The batch that would be opened next is empty, where there is one (40_batch_buffer.md R140 clause 3). -/
def State.nextEmpty (s : State) : Prop :=
  (s.bbProduced - s.bbConsumed).toNat ≠ Config.batchCount → s.wlen[slotOf s.bbProduced] = 1

/-- The newest opened batch has room for `size` more bytes (R131 step A3, R132). -/
def State.roomInNewest (s : State) (size : Nat) : Prop :=
  s.bbProduced ≠ s.bbConsumed ∧
    (s.wlen[slotOf (s.bbProduced - 1)]).toNat + size ≤ Config.batchSize

/-- What `FQ.ENQ` publishes of an entry that a caller's builder returned: an entry the rules admit, with every part of the
returned one that they admit (10_state.md R30; 30_encoding.md R106, R108; log entry 26). -/
structure publishedAs (returned e : Entry) : Prop where
  admitted : e.wf = true
  data     : e.data = returned.data
  dlc      : returned.dlcOk = true → e.dlc = returned.dlc
  arb      : returned.arbOk = true → e.arb = returned.arb

/-- The bytes a producer's instruction emits: the record itself, or what `UL.CAN` encodes
(42_wire_framing.md R181, R182). The unassigned sources 12..15 emit none (30_encoding.md R103). -/
def emittedBytes : Instr → Option (List Byte)
  | .uCtrl hi rest => encode (.uCtrl hi rest)
  | .uGpio hi rest => encode (.uGpio hi rest)
  | .uCan1Std rtr id data => encode (.uCan1Std rtr id data)
  | .uCan1Ext rtr id data => encode (.uCan1Ext rtr id data)
  | .uCan2Std rtr id data => encode (.uCan2Std rtr id data)
  | .uCan2Ext rtr id data => encode (.uCan2Ext rtr id data)
  | .uCan3Std rtr id data => encode (.uCan3Std rtr id data)
  | .uCan3Ext rtr id data => encode (.uCan3Ext rtr id data)
  | .uUart1 hi rest => encode (.uUart1 hi rest)
  | .uUart2 hi rest => encode (.uUart2 hi rest)
  | .uUart3 hi rest => encode (.uUart3 hi rest)
  | .uUart4 hi rest => encode (.uUart4 hi rest)
  | .uUart5 hi rest => encode (.uUart5 hi rest)
  | .uUart6 hi rest => encode (.uUart6 hi rest)
  | .uSensor hi rest => encode (.uSensor hi rest)
  | .ulCan k ext rtr id data => some (encCan k.sid ⟨rtr, .of ext id, data⟩)
  | _ => none

/-- The source id of a downlink record of an out-of-scope destination (30_encoding.md R97). -/
def externalSid : Instr → Option (BitVec 4)
  | .dGpio _ => some 1#4
  | .dUart1 _ => some 5#4
  | .dUart2 _ => some 6#4
  | .dUart3 _ => some 7#4
  | .dUart4 _ => some 8#4
  | .dUart5 _ => some 9#4
  | .dUart6 _ => some 10#4
  | .dLed _ => some 11#4
  | .dBuzzer _ => some 12#4
  | _ => none

/-- The downlink records `D.*` (30_encoding.md R97). -/
def downlinkRecord : Instr → Bool
  | .dCtrlConnect | .dCtrlReserved _ | .dGpio _ | .dCan1Std _ _ _ | .dCan1Ext _ _ _
  | .dCan2Std _ _ _ | .dCan2Ext _ _ _ | .dCan3Std _ _ _ | .dCan3Ext _ _ _ | .dUart1 _ | .dUart2 _
  | .dUart3 _ | .dUart4 _ | .dUart5 _ | .dUart6 _ | .dLed _ | .dBuzzer _ | .dReserved13 _
  | .dReserved14 _ | .dReserved15 _ => true
  | _ => false

/-- The uplink records `U.*` (30_encoding.md R96). -/
def uplinkRecord : Instr → Bool
  | .uCtrl _ _ | .uGpio _ _ | .uCan1Std _ _ _ | .uCan1Ext _ _ _ | .uCan2Std _ _ _ | .uCan2Ext _ _ _
  | .uCan3Std _ _ _ | .uCan3Ext _ _ _ | .uUart1 _ _ | .uUart2 _ _ | .uUart3 _ _ | .uUart4 _ _
  | .uUart5 _ _ | .uUart6 _ _ | .uSensor _ _ | .uReserved12 _ _ | .uReserved13 _ _ | .uReserved14 _ _
  | .uReserved15 _ _ => true
  | _ => false

/-- The operations of the interrupt context that have a row in the opcode table (60_exceptions.md R253). -/
def producerInstr (i : Instr) : Bool :=
  uplinkRecord i ||
  match i with
  | .bbAlloc _ | .bbWrite _ _ _ | .ulCan _ _ _ _ _ | .canRx _ => true
  | _ => false

/-- The next instruction after an outcome, with the latched result `r`; a halted block has none. -/
def thenExec (r : OpResult) (o : Host.Outcome State Fault Refusal) (i : Instr) :
    Host.Outcome State Fault Refusal :=
  match o with
  | .next t => if t.halted then .next t else exec i { t with result := r }
  | .fault e => .fault e
  | .refused e => .refused e

/-- An outcome up to the latched result. -/
def withoutResult (o : Host.Outcome State Fault Refusal) : Host.Outcome State Fault Refusal :=
  match o with
  | .next t => .next { t with result := .done }
  | .fault e => .fault e
  | .refused e => .refused e

/-- `n` steps, or the first stop. -/
def runSteps : Nat → State → Host.Outcome State Fault Refusal
  | 0, s => .next s
  | n + 1, s =>
    match step s with
    | .next t => runSteps n t
    | .fault e => .fault e
    | .refused e => .refused e

end Sys2Proof.Machine
end

