-- ==== Sys2Proof/Certificates/Slice0/Obligations.lean ====
section
/-! DEFINITION. The statements about the machine that the provers prove, each with the rule of spec/
it formalises. `State.MainTurn` and `State.HandlerTurn` (Safety.lean) say who has the next instruction
and that nothing preempts it; a statement without them holds with every preemption. A statement's next
state is written out in full: a field it does not name is unchanged. -/

open Sys2Proof Sys2Proof.Machine

/-! Reset, invariants, the step. -/

/-- 10_state.md R50: the table of reset values; an "unspecified" byte or entry is one nothing has given
a value (`none`), and `fatal.code`, `fatal.info` are left out, being unspecified. -/
def Obligations.ResetState : Prop :=
  (∀ i : Slot, State.reset.wlen[i] = 1 ∧
    Memory.read .batch State.reset.batch (batchAddr i 0) = some Config.sentinel ∧
    ∀ o, 1 ≤ o → o < Config.batchSize → Memory.read .batch State.reset.batch (batchAddr i o) = none) ∧
  State.reset.bbProduced = 0 ∧ State.reset.bbConsumed = 0 ∧ State.reset.txPending = false ∧
  (∀ k : Chan, (State.reset.fq.get k).produced = 0 ∧ (State.reset.fq.get k).consumed = 0 ∧
    (∀ j : Fin Config.fqCapacity, (State.reset.fq.get k).slots[j] = none) ∧ (State.reset.hw.get k).trace = []) ∧
  State.reset.dlLen = 0 ∧ State.reset.dlRd = 0 ∧
  (∀ a, Memory.read .dlbuf State.reset.dlBuf a = none) ∧
  State.reset.uplinkCongested = false ∧ State.reset.downlinkCongested = false ∧
  State.reset.diagTrace = [] ∧ State.reset.halted = false ∧ State.reset.irqMasked = true

/-- The invariant of the machine holds after reset, and its batches stand in order. -/
def Obligations.ResetInv : Prop := State.reset.Inv ∧ State.reset.Orderly

/-- Every step, with whatever preempts it, keeps the invariant (`State.Inv`): 10_state.md R22, R25, R30, R31, R36;
40_batch_buffer.md R140 clauses 1, 2, 5, 6; 41_frame_queue.md R164; 60_exceptions.md R247; the canonical memories. And it
keeps clauses 3 and 4 of R140 (`State.Orderly`), where no direct `BB.RESET` meets a batch that is still open
(`State.resetsClosed`) and the block has not halted inside an operation (log entry 29). What clause 6 tiles, the granted
ranges, is a field of the model (log entry 32). -/
def Obligations.StepKeepsInv : Prop :=
  ∀ s t : State, s.Inv → step s = .next t →
    t.Inv ∧ (s.Orderly → s.resetsClosed → t.halted = false → t.Orderly)

/-- A step at the head of `Main`'s loop runs the record that decodes at `dl.rd`: it is `exec` of that
record and nothing is added to it (10_state.md R36; 42_wire_framing.md R183). -/
def Obligations.StepRunsDecodedRecord : Prop :=
  ∀ (s : State) (i : Instr), s.MainTurn → s.calls = [] → s.phase = .decode → s.dlRd < s.dlLen →
    decode s.packetRest = .ok i → step s = exec i s

/-- A step of a handler runs its next call: `exec` of it at the state with that call taken off the
handler's list (60_exceptions.md R251, R252). -/
def Obligations.StepRunsHandlerCall : Prop :=
  ∀ (s : State) (a : Agent) (i : Instr) (todo : List Call) (rest : List Activation),
    s.halted = false → s.quiet → s.stack = ⟨a, .op i :: todo⟩ :: rest →
    step s = exec i { s with stack := ⟨a, todo⟩ :: rest }

/-- `Main` by itself: boot steps B2 and B3 (70_reset_and_hazards.md R282), then the parts of an iteration in
order, with no packet waiting (60_exceptions.md R256). `phase` is the model's (log entry 27). -/
def Obligations.MainSchedule : Prop :=
  ∀ s : State, s.MainTurn → s.calls = [] →
    (s.phase = .boot .can1 → step s = exec (.canInit .can1) { s with phase := .boot .can2 }) ∧
    (s.phase = .boot .can2 → step s = exec (.canInit .can2) { s with phase := .boot .can3 }) ∧
    (s.phase = .boot .can3 → step s = exec (.canInit .can3) { s with phase := .unmask }) ∧
    (s.phase = .unmask → step s = .next { s with irqMasked := false, phase := .decode }) ∧
    (s.phase = .decode → s.dlLen ≤ s.dlRd → step s = exec .ulPump { s with phase := .canPump .can1 }) ∧
    (s.phase = .canPump .can1 → step s = exec (.canPump .can1) { s with phase := .canPump .can2 }) ∧
    (s.phase = .canPump .can2 → step s = exec (.canPump .can2) { s with phase := .canPump .can3 }) ∧
    (s.phase = .canPump .can3 → step s = exec (.canPump .can3) { s with phase := .decode })

/-- From reset with every configuration call answering `ok`, four steps boot the block: interrupts are
unmasked, all three "new message" notifications are armed, nothing else moved but the configuration
traces (70_reset_and_hazards.md R282; 60_exceptions.md R249). -/
def Obligations.BootSequence : Prop :=
  ∀ answers : Chan → List Bool,
    let port (k : Chan) (l : List Bool) : HwPort := { State.reset.hw.get k with cfgIn := l }
    let trace : List HwEvent :=
      [.cfgFilter ⟨.standard, 0, 0, 0, 0⟩ true, .cfgFilter ⟨.extended, 0, 0, 0, 0⟩ true, .cfgNotify true]
    let booted (k : Chan) : HwPort :=
      { State.reset.hw.get k with cfgIn := answers k, trace := trace, rxArmed := true }
    runSteps 4 { State.reset with
        hw := ⟨#v[port .can1 (true :: true :: true :: answers .can1), port .can2 (true :: true :: true :: answers .can2),
                  port .can3 (true :: true :: true :: answers .can3)]⟩ } =
      .next { State.reset with
        hw := ⟨#v[booted .can1, booted .can2, booted .can3]⟩, irqMasked := false, phase := .decode }

/-! Encodings. -/

/-- 42_wire_framing.md R188: `enc_can` byte for byte, for every admitted operand tuple. -/
def Obligations.EncCanRule : Prop :=
  ∀ (sid : BitVec 4) (f : CanFrame), 2 ≤ sid.toNat → sid.toNat ≤ 4 →
    let len := f.data.bytes.length
    let hasData : Bool := !f.rtr && decide (0 < len)
    let lenf : Nat := if hasData then len - 1 else 0
    let h : BitVec 8 := sid.setWidth 8 ||| ((BitVec.ofBool f.id.isExt).setWidth 8 <<< 4) |||
      ((BitVec.ofBool f.rtr).setWidth 8 <<< 5) ||| ((BitVec.ofBool hasData).setWidth 8 <<< 6)
    let idf : List Byte :=
      if f.id.isExt then bytesLE32 (f.id.bits.setWidth 32 ||| (BitVec.ofNat 32 lenf <<< 29))
      else bytesLE16 (f.id.bits.setWidth 16 ||| (BitVec.ofNat 16 lenf <<< 11))
    encCan sid f = h :: (idf ++ if hasData then f.data.bytes else [])

/-- 42_wire_framing.md R189: `dec_can` of the bytes `buf[a .. limit-1]` (`bs`): when it is `TRUNCATED`
(`none`), and each field and the size where it is not. -/
def Obligations.DecCanRule : Prop :=
  ∀ bs : List Byte,
    let b (j : Nat) : Byte := bs.getD j 0
    let ext := (b 0).getLsbD 4
    let rtr := (b 0).getLsbD 5
    let hasData := (b 0).getLsbD 6
    let idlen := if ext then 4 else 2
    let id : CanId := if ext then .ext ((le32 (b 1) (b 2) (b 3) (b 4)).extractLsb' 0 29)
      else .std ((le16 (b 1) (b 2)).extractLsb' 0 11)
    let lenf : BitVec 3 := if ext then (le32 (b 1) (b 2) (b 3) (b 4)).extractLsb' 29 3
      else (le16 (b 1) (b 2)).extractLsb' 11 3
    let len := if hasData then lenf.toNat + 1 else 0
    let size := 1 + idlen + len
    (bs.length < 1 + idlen → decCan bs = none) ∧
    (1 + idlen ≤ bs.length → bs.length < size → decCan bs = none) ∧
    (size ≤ bs.length →
      ∃ f, decCan bs = some f ∧ f.rtr = rtr ∧ f.id = id ∧ f.data.bytes = (bs.drop (1 + idlen)).take len ∧
        f.data.bytes.length = len ∧ f.size = size ∧ (f.data.bytes.isEmpty = !hasData))

/-- 42_wire_framing.md R187: decoding what `enc_can` encoded gives the operands back; of a remote frame
the length is lost. -/
def Obligations.CanRoundTrip : Prop :=
  ∀ (sid : BitVec 4) (f : CanFrame), 2 ≤ sid.toNat → sid.toNat ≤ 4 →
    (f.rtr = false → decCan (encCan sid f) = some f) ∧
    (f.rtr = true → decCan (encCan sid f) = some { f with data := .empty })

/-- 30_encoding.md R105: what the uplink encoder writes for controller `k` is a valid downlink record for
`k`, byte for byte, and both directions read the frame back. -/
def Obligations.SymmetricFormats : Prop :=
  ∀ (k : Chan) (f : CanFrame), uplinkDataOk f.rtr f.data = true →
    encode (uplinkCan k f) = some (encCan k.sid f) ∧
    decodeUplink (encCan k.sid f) = .ok (uplinkCan k f) ∧
    decode (encCan k.sid f) = .ok (downlinkCan k f)

/-- 30_encoding.md R102: an encoder writes the reserved bits `H[7]` and `V16[15:14]` as 0, and a decoder
ignores them. -/
def Obligations.ReservedBitsIgnored : Prop :=
  (∀ (sid : BitVec 4) (f : CanFrame),
    ((canBytes sid f).getD 0 0).getLsbD 7 = false ∧
    (f.id.isExt = false → ((canBytes sid f).getD 2 0).extractLsb' 6 2 = 0#2)) ∧
  (∀ (h : Byte) (t : List Byte), decCan ((h ^^^ 0x80#8) :: t) = decCan (h :: t)) ∧
  ∀ (h b1 b2 : Byte) (r : BitVec 2) (t : List Byte), h.getLsbD 4 = false →
    decCan (h :: b1 :: (b2 ^^^ (r ++ 0#6)) :: t) = decCan (h :: b1 :: b2 :: t)

/-- Decode and encode agree on the downlink: a well-formed record followed by any bytes decodes to itself,
so nothing after a record is needed to read it (30_encoding.md R104, R114). -/
def Obligations.DownlinkRoundTrip : Prop :=
  ∀ i : Instr, downlinkRecord i = true → i.wf = true →
    ∃ bs, encode i = some bs ∧ ∀ rest, decode (bs ++ rest) = .ok i

/-- Decode and encode agree on the uplink (30_encoding.md R96, R114). -/
def Obligations.UplinkRoundTrip : Prop :=
  ∀ i : Instr, uplinkRecord i = true → i.wf = true →
    ∃ bs, encode i = some bs ∧ decodeUplink bs = .ok i

/-- Words written out from the encoding of 30_encoding.md decode to the records they stand for. -/
def Obligations.DecodeWords : Prop :=
  decode [0x00] = .ok .dCtrlConnect ∧
  decode [0x53, 0xF0, 0xDE, 0xBC, 0x3A, 0xAA, 0xBB] = .ok (.dCan2Ext false 0x1ABCDEF0 ⟨[0xAA, 0xBB], by decide⟩) ∧
  decode [0x24, 0xFF, 0x07] = .ok (.dCan3Std true 0x7FF .empty) ∧
  decode [0xFC] = .ok (.dBuzzer 15) ∧
  decodeUplink [0x42, 0x23, 0x39, 1, 2, 3, 4, 5, 6, 7, 8] =
    .ok (.uCan1Std false 0x123 ⟨[1, 2, 3, 4, 5, 6, 7, 8], by decide⟩) ∧
  decodeUplink [0x3B, 0x05] = .ok (.uSensor 3 [0x05])

/-- 43_can_codec.md R212: `rx_decode`. -/
def Obligations.RxDecodeRule : Prop :=
  ∀ r0 r1 : Word,
    (rxDecode r0 r1).id.isExt = r0.getLsbD 30 ∧ (rxDecode r0 r1).rtr = r0.getLsbD 29 ∧
    (r0.getLsbD 30 = true → (rxDecode r0 r1).id.bits.toNat = r0.toNat % 2 ^ 29) ∧
    (r0.getLsbD 30 = false → (rxDecode r0 r1).id.bits.toNat = r0.toNat / 2 ^ 18 % 2 ^ 11) ∧
    (rxDecode r0 r1).len = min (r1.toNat / 2 ^ 16 % 2 ^ 4) 8

/-- 30_encoding.md R111 and 43_can_codec.md R213: the entry of a decoded record: the arbitration word, `dlc = len`,
8 data bytes; and the words of a transmit slot (30_encoding.md R110). Where the record is the one at `dl.rd`, the 8
bytes are those of `dl.buf` from its first payload byte on, as R213 has it. That the entry takes the record's own data
bytes from the operand, and only the rest from `dl.buf`, is the model's choice (log entry 19): of a record that is not
at `dl.rd` no rule speaks. -/
def Obligations.EntryOfRecord : Prop :=
  ∀ (s : State) (f : CanFrame),
    (s.entryFor f).arb.toNat =
      (if f.id.isExt then 2 ^ 30 else 0) + (if f.rtr then 2 ^ 29 else 0) +
        f.id.bits.toNat * (if f.id.isExt then 1 else 2 ^ 18) ∧
    (s.entryFor f).dlc.toNat = f.data.bytes.length ∧
    (∀ j : Fin Config.maxData, (s.entryFor f).data[j] =
      if h : j.val < f.data.bytes.length then f.data.bytes[j.val] else s.peekDl (s.dlRd + 1 + f.idLen + j.val)) ∧
    (decCan s.packetRest = some f →
      ∀ j : Fin Config.maxData, (s.entryFor f).data[j] = s.peekDl (s.dlRd + 1 + f.idLen + j.val)) ∧
    (slotWords (s.entryFor f)).t0 = (s.entryFor f).arb ∧
    (slotWords (s.entryFor f)).t1.toNat = f.data.bytes.length * 2 ^ 16 ∧
    (slotWords (s.entryFor f)).data = (s.entryFor f).data

/-! Batch Buffer, producer side. -/

/-- `BB.ALLOC(size)` where the newest opened batch has room: the grant lies at its old length (40_batch_buffer.md
R131 step A3, R132). The grant is noted for its owner (log entry 12) and among the batch's ranges (log entry 32). -/
def Obligations.AllocAppends : Prop :=
  ∀ (s : State) (size : Nat), s.HandlerTurn → 1 ≤ size → size ≤ Config.batchPayloadMax →
    s.roomInNewest size →
    let slot := slotOf (s.bbProduced - 1)
    let off := (s.wlen[slot]).toNat
    exec (.bbAlloc size) s = .next { s with
      wlen := s.wlen.set slot (BitVec.ofNat Config.wlenBits (off + size))
      ranges := s.ranges.set slot (s.ranges[slot] ++ [(off, size)])
      grants := s.grants ++ [⟨s.running, slot, off, size, (List.range size).map fun j => off + j⟩]
      result := .granted slot off }

/-- `BB.ALLOC(size)` where no opened batch has room and the buffer is not full: the next batch is opened and
the grant starts right after its sentinel (R131 steps A5, A6). -/
def Obligations.AllocOpens : Prop :=
  ∀ (s : State) (size : Nat), s.HandlerTurn → 1 ≤ size → size ≤ Config.batchPayloadMax →
    ¬ s.roomInNewest size → (s.bbProduced - s.bbConsumed).toNat ≠ Config.batchCount → s.nextEmpty →
    let slot := slotOf s.bbProduced
    exec (.bbAlloc size) s = .next { s with
      bbProduced := s.bbProduced + 1
      wlen := s.wlen.set slot (BitVec.ofNat Config.wlenBits (1 + size))
      ranges := s.ranges.set slot (s.ranges[slot] ++ [(1, size)])
      grants := s.grants ++ [⟨s.running, slot, 1, size, (List.range size).map fun j => 1 + j⟩]
      result := .granted slot 1 }

/-- `BB.ALLOC(size)` on a full buffer: `FAIL`, one `UPLINK_CONGESTION`, the flag; nothing else changes
(R131 step A4 and corner cases (c), (d); 60_exceptions.md R241). -/
def Obligations.AllocFails : Prop :=
  ∀ (s : State) (size : Nat), s.HandlerTurn → 1 ≤ size → size ≤ Config.batchPayloadMax →
    ¬ s.roomInNewest size → (s.bbProduced - s.bbConsumed).toNat = Config.batchCount →
    exec (.bbAlloc size) s = .next { s with
      uplinkCongested := true
      diagTrace := s.diagTrace ++ [.uplinkCongestion]
      result := .fail }

/-- What the domains of 40_batch_buffer.md R131, R133 and 42_wire_framing.md R182 leave out is refused, whatever
preempts it: a grant of 0 or of more than 63 bytes, a record longer than a batch (00_scope.md R11). So is a record of a source that the running
agent does not produce, and `CAN.RX(k)` outside `CanRx[k]` (R180, R182; 43_can_codec.md R210; 60_exceptions.md R248; which
agent produces what is DEDUCED, log entry 31). -/
def Obligations.ProducerDomains : Prop :=
  ∀ s : State, s.halted = false → s.inInterrupt = true →
    (∀ size : Nat, size = 0 ∨ 63 < size → exec (.bbAlloc size) s = .refused .allocSize) ∧
    (∀ (j : Nat) (hi : BitVec 4) (rest : List Byte), s.running = .extProd j → 62 < rest.length →
      ∀ i ∈ [Instr.uCtrl hi rest, .uGpio hi rest, .uUart1 hi rest, .uUart2 hi rest, .uUart3 hi rest,
          .uUart4 hi rest, .uUart5 hi rest, .uUart6 hi rest, .uSensor hi rest],
        exec i s = .refused .allocSize) ∧
    (∀ (i : Instr) (bs : List Byte), emittedBytes i = some bs →
      emits s.running (headerSid (bs.getD 0 0)) = false → exec i s = .refused .foreignSource) ∧
    ∀ k : Chan, s.running ≠ .canRx k → exec (.canRx k) s = .refused .foreignSource

/-- Whatever preempts it, a grant of `BB.ALLOC` lies in its batch and leaves the sentinel alone, and its caller
holds it (R131 Result; 20_memory.md R61). -/
def Obligations.AllocGrantInBatch : Prop :=
  ∀ (s t : State) (size : Nat) (slot : Slot) (off : Nat), s.Inv →
    exec (.bbAlloc size) s = .next t → t.halted = false → t.result = .granted slot off →
    1 ≤ off ∧ off + size ≤ Config.batchSize ∧
      ∃ g ∈ t.grants, g.owner = t.running ∧ g.slot = slot ∧ g.off = off ∧ g.size = size

/-- `BB.WRITE(slot, off, byte)` inside a grant of the running handler stores that one byte (R133): every
other byte of `BATCH` reads as before. Outside every grant of its own it is refused (R287), and so is the first byte of
a grant, the header of the record, where its source id is not one the handler produces (42_wire_framing.md R182;
93_implementation_defined.md U15; log entry 31). -/
def Obligations.WriteGranted : Prop :=
  ∀ (s : State) (slot off : Nat) (b : Byte), s.HandlerTurn →
    (∀ g ∈ s.grants, g.covers s.running slot off = true → Memory.wf .batch s.batch = true →
      (∀ h ∈ s.grants, h.covers s.running slot off = true → h.off = off →
        emits s.running (headerSid b) = true) →
      ∃ m, exec (.bbWrite slot off b) s = .next { s with
          batch := m
          grants := s.grants.map fun h => h.wrote s.running slot off
          result := .done } ∧
        ∀ a, Memory.read .batch m a =
          if a = Config.batchSize * slot + off then some b else Memory.read .batch s.batch a) ∧
    ((∀ g ∈ s.grants, g.covers s.running slot off = false) →
      exec (.bbWrite slot off b) s = .refused .notGranted) ∧
    ((∃ g ∈ s.grants, g.covers s.running slot off = true) →
      (∀ g ∈ s.grants, g.covers s.running slot off = true → g.off = off) →
      emits s.running (headerSid b) = false →
      exec (.bbWrite slot off b) s =
        .refused (if 12 ≤ (headerSid b).toNat then .unassignedUplinkSource else .foreignSource))

/-- An uplink record (`U.*` of an assigned source, `UL.CAN`) of a source that the running handler produces (log entry
31), whose bytes fit the newest opened batch, is appended there, its bytes from the batch's old length on; every other byte of `BATCH` reads as before
(42_wire_framing.md R181, R182; R131 step A3; its range is noted, log entry 32). Covers U.CTRL, U.GPIO, U.CAN1..3.STD/EXT, U.UART1..6,
U.SENSOR and UL.CAN. -/
def Obligations.EmitAppends : Prop :=
  ∀ (s : State) (i : Instr) (bs : List Byte), s.HandlerTurn → i.wf = true → emittedBytes i = some bs →
    emits s.running (headerSid (bs.getD 0 0)) = true → Memory.wf .batch s.batch = true →
    s.roomInNewest bs.length →
    let slot := slotOf (s.bbProduced - 1)
    let off := (s.wlen[slot]).toNat
    ∃ m, exec i s = .next { s with
        batch := m
        wlen := s.wlen.set slot (BitVec.ofNat Config.wlenBits (off + bs.length))
        ranges := s.ranges.set slot (s.ranges[slot] ++ [(off, bs.length)])
        result := .written } ∧
      ∀ a, Memory.read .batch m a =
        if batchAddr slot off ≤ a ∧ a < batchAddr slot off + bs.length then
          some (bs.getD (a - batchAddr slot off) 0)
        else Memory.read .batch s.batch a

/-- An uplink record that no opened batch has room for opens the next batch and is written right after its
sentinel (R181, R182; R131 steps A5, A6). The same instructions as `EmitAppends`. -/
def Obligations.EmitOpens : Prop :=
  ∀ (s : State) (i : Instr) (bs : List Byte), s.HandlerTurn → i.wf = true → emittedBytes i = some bs →
    emits s.running (headerSid (bs.getD 0 0)) = true → Memory.wf .batch s.batch = true →
    ¬ s.roomInNewest bs.length →
    (s.bbProduced - s.bbConsumed).toNat ≠ Config.batchCount → s.nextEmpty →
    let slot := slotOf s.bbProduced
    ∃ m, exec i s = .next { s with
        batch := m
        bbProduced := s.bbProduced + 1
        wlen := s.wlen.set slot (BitVec.ofNat Config.wlenBits (1 + bs.length))
        ranges := s.ranges.set slot (s.ranges[slot] ++ [(1, bs.length)])
        result := .written } ∧
      ∀ a, Memory.read .batch m a =
        if batchAddr slot 1 ≤ a ∧ a < batchAddr slot 1 + bs.length then
          some (bs.getD (a - batchAddr slot 1) 0)
        else Memory.read .batch s.batch a

/-- An uplink record that finds the buffer full is dropped: one `UPLINK_CONGESTION`, the flag, no byte written
(R181, R182; R131 step A4; 60_exceptions.md R241). The same instructions as `EmitAppends`. -/
def Obligations.EmitDrops : Prop :=
  ∀ (s : State) (i : Instr) (bs : List Byte), s.HandlerTurn → i.wf = true → emittedBytes i = some bs →
    emits s.running (headerSid (bs.getD 0 0)) = true → ¬ s.roomInNewest bs.length →
    (s.bbProduced - s.bbConsumed).toNat = Config.batchCount →
    exec i s = .next { s with
      uplinkCongested := true
      diagTrace := s.diagTrace ++ [.uplinkCongestion]
      result := .dropped }

/-- The unassigned uplink sources 12..15 are refused, whatever preempts (30_encoding.md R96, R103;
93_implementation_defined.md U15): U.RESERVED12..15, and a `BB.WRITE` of such a header as the first byte of a grant. -/
def Obligations.UnassignedUplinkStops : Prop :=
  ∀ (s : State) (hi : BitVec 4) (rest : List Byte), s.halted = false → s.inInterrupt = true →
    exec (.uReserved12 hi rest) s = .refused .unassignedUplinkSource ∧
    exec (.uReserved13 hi rest) s = .refused .unassignedUplinkSource ∧
    exec (.uReserved14 hi rest) s = .refused .unassignedUplinkSource ∧
    exec (.uReserved15 hi rest) s = .refused .unassignedUplinkSource ∧
    ∀ (slot off : Nat) (b : Byte), 12 ≤ (headerSid b).toNat →
      (∃ g ∈ s.grants, g.covers s.running slot off = true) →
      (∀ g ∈ s.grants, g.covers s.running slot off = true → g.off = off) →
      exec (.bbWrite slot off b) s = .refused .unassignedUplinkSource

/-! Batch Buffer, consumer side. -/

/-- `BB.POP()` (40_batch_buffer.md R134), case by case: nothing opened; one opened batch, empty or closed now;
an older batch. `popped` notes what it returned (log entry 25). -/
def Obligations.PopRule : Prop :=
  ∀ s : State, s.MainTurn →
    let slot := slotOf s.bbConsumed
    let len := (s.wlen[slot]).toNat
    exec .bbPop s = .next (
      if s.bbProduced = s.bbConsumed ∨ len ≤ 1 then { s with popped := none, result := .noBatch }
      else { s with
        bbProduced := if s.bbProduced = s.bbConsumed + 1 then s.bbProduced + 1 else s.bbProduced
        popped := some (slot, len)
        result := .popped slot len })

/-- Whatever preempts it, what `BB.POP` returns is the oldest batch, closed, with the length it has then and no
less than 2, and it has not moved `bb.consumed` (R134 corner cases (a), (b); R136). -/
def Obligations.PopReturnsClosed : Prop :=
  ∀ (s t : State) (slot : Slot) (len : Nat), s.Inv → exec .bbPop s = .next t → t.halted = false →
    t.result = .popped slot len →
    t.bbConsumed = s.bbConsumed ∧ slot = slotOf t.bbConsumed ∧ len = (t.wlen[slot]).toNat ∧ 2 ≤ len ∧
      len ≤ Config.batchSize ∧ 2 ≤ (t.bbProduced - t.bbConsumed).toNat ∧ t.popped = some (slot, len)

/-- `BB.RESET()` empties the oldest opened batch and advances `bb.consumed`; no byte changes. With nothing opened
it is refused (R135). A packet in flight from that batch is disturbed (70_reset_and_hazards.md R286). -/
def Obligations.ResetRule : Prop :=
  ∀ s : State, s.MainTurn →
    (s.bbProduced ≠ s.bbConsumed → exec .bbReset s = .next { s with
      wlen := s.wlen.set (slotOf s.bbConsumed) 1
      ranges := s.ranges.set (slotOf s.bbConsumed) []
      bbConsumed := s.bbConsumed + 1
      popped := none
      inFlight := s.inFlight.map fun f =>
        if f.slot = slotOf s.bbConsumed then { f with disturbed := true } else f
      result := .done }) ∧
    (s.bbProduced = s.bbConsumed → exec .bbReset s = .refused .nothingOpened)

/-- `BB.READ(slot, off)` answers the byte of the popped batch and changes nothing but the counter of the free
values (log entry 3); elsewhere it is refused (R137). -/
def Obligations.ReadPopped : Prop :=
  ∀ (s : State) (slot : Slot) (len off : Nat), s.MainTurn →
    (s.popped = some (slot, len) → off < len →
      ∃ b, exec (.bbRead slot off) s = .next { s with draws := s.draws + 1, result := .byte b } ∧
        ∀ v, Memory.read .batch s.batch (batchAddr slot off) = some v → b = v) ∧
    (s.popped = some (slot, len) → len ≤ off → exec (.bbRead slot off) s = .refused .notPopped) ∧
    (∀ j : Slot, s.popped = some (slot, len) → j ≠ slot →
      exec (.bbRead j off) s = .refused .notPopped) ∧
    (s.popped = none → exec (.bbRead slot off) s = .refused .notPopped)

/-- `BB.DISCARD_ALL()` empties every batch, consuming all opened batches but a newest one that is empty, and
a `BB.POP` right after it returns `NONE` (R138). Premises: R140 clauses 1, 3 and 4. -/
def Obligations.DiscardAllRule : Prop :=
  ∀ s : State, s.MainTurn → s.cursorsOk → s.OrderedFrom s.bbConsumed →
    let newest := (s.wlen[slotOf (s.bbProduced - 1)]).toNat
    ∃ t, exec .bbDiscardAll s = .next t ∧
      t = { s with
        wlen := t.wlen
        ranges := t.ranges
        bbProduced := if s.bbProduced ≠ s.bbConsumed ∧ 1 < newest then s.bbProduced + 1 else s.bbProduced
        bbConsumed := if s.bbProduced = s.bbConsumed ∨ 1 < newest then s.bbProduced else s.bbProduced - 1
        txPending := false
        popped := none
        inFlight := t.inFlight
        result := .done } ∧
      (∀ i : Slot, (t.wlen[i]).toNat ≤ 1 ∧
        t.wlen[i] = (if 1 < (s.wlen[i]).toNat then 1 else s.wlen[i]) ∧
        t.ranges[i] = if 1 < (s.wlen[i]).toNat then [] else s.ranges[i]) ∧
      (∀ f, t.inFlight = some f → ∃ g, s.inFlight = some g ∧ f.slot = g.slot ∧ f.len = g.len) ∧
      (s.inFlight.isSome = t.inFlight.isSome) ∧
      exec .bbPop t = .next { t with result := .noBatch }

/-- `UL.PUMP()` (40_batch_buffer.md R139): busy, it is idle; ready, the packet in flight is complete, a batch
sent before is reset, and the oldest ready batch is handed to the transport. With `tx_pending` and
nothing opened, `BB.RESET` is out of its domain (R135). The wire gains the bytes of the batch that was in flight:
`data[1 .. len-1]`, preceded by `data[0]` exactly when `TX_INCLUDES_SENTINEL` (10_state.md R44); of a batch that
was reset in flight, as many bytes of any value (93_implementation_defined.md U4). That it gains them when `tp.ready()`
next answers `true` is the model's choice (log entry 15). -/
def Obligations.PumpRule : Prop :=
  ∀ s : State, s.MainTurn →
    let r := s.askReady.2
    let first := if Config.txIncludesSentinel then 1 else 0
    let c := if s.txPending then s.bbConsumed + 1 else s.bbConsumed
    let wl := if s.txPending then s.wlen.set (slotOf s.bbConsumed) 1 else s.wlen
    let rg := if s.txPending then s.ranges.set (slotOf s.bbConsumed) [] else s.ranges
    let len := (wl[slotOf c]).toNat
    (s.askReady.1 = false → exec .ulPump s = .next { r with result := .idle }) ∧
    (s.askReady.1 = true → s.txPending = true → s.bbProduced = s.bbConsumed →
      exec .ulPump s = .refused .nothingOpened) ∧
    (s.askReady.1 = true → (s.txPending = true → s.bbProduced ≠ s.bbConsumed) →
      ∃ (wire : List (List Byte)) (draws : Nat),
      exec .ulPump s = .next (
        if s.bbProduced = c ∨ len ≤ 1 then
          { r with
            wire := wire
            draws := draws
            inFlight := none
            wlen := wl
            ranges := rg
            bbConsumed := c
            txPending := false
            popped := none
            result := .idle }
        else
          { r with
            wire := wire
            draws := draws
            wlen := wl
            ranges := rg
            bbConsumed := c
            bbProduced := if s.bbProduced = c + 1 then s.bbProduced + 1 else s.bbProduced
            popped := some (slotOf c, len)
            tpTrace := s.tpTrace ++ [(slotOf c, len)]
            inFlight := some ⟨slotOf c, len, false⟩
            txPending := true
            result := .sent }) ∧
      (s.inFlight = none → wire = s.wire ∧ draws = r.draws) ∧
      ∀ f, s.inFlight = some f → draws = r.draws + 1 ∧
        ∃ pkt : List Byte, wire = s.wire ++ [pkt] ∧ pkt.length = first + (f.len - 1) ∧
          (f.disturbed = false → ∀ o b, 1 - first ≤ o → o < f.len →
            Memory.read .batch s.batch (batchAddr f.slot o) = some b → pkt[o + first - 1]? = some b))

/-! Frame Queue. -/

/-- `FQ.ENQ(k, build, count)` with a caller's entries: `min(count, free)` entries are built in slot order and
published at once; none where the queue is full; `count = 0` is refused (41_frame_queue.md R161). That a length code or an
arbitration word out of the range of 10_state.md R30 and 30_encoding.md R106, R108 is published as any value of that range,
and that beyond its list the caller builds any entry of that range, are the model's choices (log entries 26 and 6). -/
def Obligations.EnqueueRule : Prop :=
  ∀ (s : State) (k : Chan) (es : List Entry) (count : Nat), s.MainTurn →
    let q := s.fq.get k
    let n := min count q.free
    (count = 0 → exec (.fqEnq k (.entries es) count) s = .refused .countZero) ∧
    (1 ≤ count → n = 0 → exec (.fqEnq k (.entries es) count) s = .next { s with result := .bool false }) ∧
    (1 ≤ count → 1 ≤ n →
      ∃ sl : Vector (Option Entry) Config.fqCapacity,
        exec (.fqEnq k (.entries es) count) s = .next { s with
          fq := s.fq.set k ⟨sl, q.produced + BitVec.ofNat Config.cursorBits n, q.consumed⟩
          draws := s.draws + n
          result := .bool true } ∧
        (∀ j < n, ∀ h : j < es.length, es[j].wf = true →
          sl[entryOf (q.produced + BitVec.ofNat Config.cursorBits j)] = some es[j]) ∧
        (∀ j < n, ∀ h : j < es.length,
          ∃ e : Entry, publishedAs es[j] e ∧ sl[entryOf (q.produced + BitVec.ofNat Config.cursorBits j)] = some e) ∧
        (∀ j < n, es.length ≤ j →
          ∃ e : Entry, e.wf = true ∧ sl[entryOf (q.produced + BitVec.ofNat Config.cursorBits j)] = some e) ∧
        ∀ e : Fin Config.fqCapacity, (∀ j < n, e ≠ entryOf (q.produced + BitVec.ofNat Config.cursorBits j)) → sl[e] = q.slots[e])

/-- `FQ.ENQ(k, CAN.TXBUILD, 1)`: the record at `dl.rd` becomes an entry and is consumed; with the queue full the
builder does not run (R161; 43_can_codec.md R213). -/
def Obligations.EnqueueRecord : Prop :=
  ∀ (s : State) (k : Chan) (f : CanFrame), s.MainTurn → decCan s.packetRest = some f →
    let q := s.fq.get k
    (q.free = 0 → exec (.fqEnq k .txBuild 1) s = .next { s with result := .bool false }) ∧
    (1 ≤ q.free → exec (.fqEnq k .txBuild 1) s = .next { s with
      fq := s.fq.set k ⟨q.slots.set (entryOf q.produced) (some (s.entryFor f)), q.produced + 1, q.consumed⟩
      dlRd := s.dlRd + f.size
      draws := s.draws + 1
      result := .bool true })

/-- `FQ.DEQ(k, cb, max)` with a callback that takes the entries: the `min(max, fill)` oldest come out in order, and
their slots hold nothing specified any more (R162 and its corner case (d), log entry 6). -/
def Obligations.DequeueRule : Prop :=
  ∀ (s : State) (k : Chan) (max : Nat), s.MainTurn →
    let q := s.fq.get k
    let n := min max q.fill
    (n = 0 → exec (.fqDeq k .collect max) s = .next { s with result := .dequeued false [] }) ∧
    (1 ≤ n →
      ∃ sl : Vector (Option Entry) Config.fqCapacity,
        exec (.fqDeq k .collect max) s = .next { s with
          fq := s.fq.set k ⟨sl, q.produced, q.consumed + BitVec.ofNat Config.cursorBits n⟩
          draws := s.draws + 1
          result := .dequeued true
            ((List.range n).map fun j => s.peekEntry k (q.consumed + BitVec.ofNat Config.cursorBits j)) } ∧
        ∀ e : Fin Config.fqCapacity, sl[e] =
          if ∃ j, j < n ∧ e = entryOf (q.consumed + BitVec.ofNat Config.cursorBits j) then none else q.slots[e])

/-- 41_frame_queue.md R163: `FQ.FLUSH(k)` drops all queued entries without a callback. -/
def Obligations.FlushRule : Prop :=
  ∀ (s : State) (k : Chan), s.MainTurn →
    exec (.fqFlush k) s = .next { s with
      fq := s.fq.set k ⟨(s.fq.get k).slots, (s.fq.get k).produced, (s.fq.get k).produced⟩
      result := .done }

/-- 41_frame_queue.md R165: `FQ.ENQ` followed at once by `FQ.DEQ` with an unlimited budget yields what was
queued before and then the new entries, as many as found room (R161), in order, none lost and none twice; and a
budget of 0 changes nothing. The entries that find room lie in the range of 10_state.md R30. -/
def Obligations.QueueFifo : Prop :=
  ∀ (s : State) (k : Chan) (old es : List Entry) (max : Nat), s.MainTurn →
    let q := s.fq.get k
    (old.length = q.fill → old.length ≤ 16 → (∀ j, ∀ h : j < old.length,
        q.slots[entryOf (q.consumed + BitVec.ofNat Config.cursorBits j)] = some old[j]) →
      1 ≤ es.length → (∀ e ∈ es.take (16 - old.length), e.wf = true) → 16 ≤ max →
      ∃ t u, exec (.fqEnq k (.entries es) es.length) s = .next t ∧
        t.result = .bool (decide (old.length < 16)) ∧
        exec (.fqDeq k .collect max) t = .next u ∧
        u.result = .dequeued true (old ++ es.take (16 - old.length)) ∧ (u.fq.get k).fill = 0) ∧
    ∀ cb, exec (.fqDeq k cb 0) s = .next { s with result := .dequeued false [] }

/-! Downlink records. -/

/-- `D.CANk` (42_wire_framing.md R185; 41_frame_queue.md R161; 43_can_codec.md R213): with room in the queue the entry
of the record is published; with the queue full the frame is lost, one `DOWNLINK_CONGESTION`, the flag
(70_reset_and_hazards.md R288). Either way `dl.rd` advances by the record's size. Covers D.CAN1..3.STD and D.CAN1..3.EXT.
For a record that is not the one at `dl.rd` the entry and the size are the model's choice (log entry 19). -/
def Obligations.CanRecordRule : Prop :=
  ∀ (s : State) (k : Chan) (f : CanFrame), s.MainTurn → s.dlRd + f.size ≤ s.dlLen →
    let q := s.fq.get k
    (1 ≤ q.free → exec (downlinkCan k f) s = .next { s with
      fq := s.fq.set k ⟨q.slots.set (entryOf q.produced) (some (s.entryFor f)), q.produced + 1, q.consumed⟩
      dlRd := s.dlRd + f.size
      draws := s.draws + 1
      result := .done }) ∧
    (q.free = 0 → exec (downlinkCan k f) s = .next { s with
      downlinkCongested := true
      diagTrace := s.diagTrace ++ [.downlinkCongestion]
      dlRd := s.dlRd + f.size
      draws := s.draws + 1
      result := .done })

/-- What the domains of the downlink records and of `CAN.TXBUILD` leave out is refused, whatever preempts it: a record
where the packet has no byte left, a builder that finds no whole record (00_scope.md R11; 42_wire_framing.md R183;
43_can_codec.md R213; log entries 17 and 26). A control record with command 0 is connect's, under whichever row of the
opcode table it stands (R184; 30_encoding.md R93). -/
def Obligations.DownlinkDomains : Prop :=
  ∀ s : State, s.halted = false → s.stack = [] →
    (∀ i : Instr, downlinkRecord i = true → s.dlLen ≤ s.dlRd → exec i s = .refused .noRecord) ∧
    exec (.dCtrlReserved 0) s = exec .dCtrlConnect s ∧
    ∀ (k : Chan) (count : Nat), 1 ≤ count → 1 ≤ (s.fq.get k).free → decCan s.packetRest = none →
      exec (.fqEnq k .txBuild count) s = .refused .noRecordToBuild

/-- A CAN record that runs past its packet is fatal cause 3 with `dl.rd` where the record began (R185 step 2;
60_exceptions.md R243). Covers the six D.CAN records, and a packet's bytes that decode to none. -/
def Obligations.TruncatedRecordHalts : Prop :=
  (∀ (s : State) (k : Chan) (f : CanFrame), s.MainTurn → s.dlRd < s.dlLen →
    s.dlLen < s.dlRd + f.size →
    exec (downlinkCan k f) s = .next { s with
      irqMasked := true, fatalCode := 3, fatalInfo := .rd s.dlRd, halted := true
      diagTrace := s.diagTrace ++ [.fatal 3 (.rd s.dlRd)] }) ∧
  ∀ s : State, s.MainTurn → s.calls = [] → s.phase = .decode → s.dlRd < s.dlLen →
    decode s.packetRest = .error .truncated →
    step s = .next { s with
      irqMasked := true, fatalCode := 3, fatalInfo := .rd s.dlRd, halted := true
      diagTrace := s.diagTrace ++ [.fatal 3 (.rd s.dlRd)] }

/-- The connect command: `BB.DISCARD_ALL`, both flags cleared, `DIAG_RESET`, the Frame Queues flushed exactly
when `FLUSH_FQ_ON_CONNECT`, one byte consumed (42_wire_framing.md R184, R93). -/
def Obligations.ConnectRule : Prop :=
  ∀ s : State, s.MainTurn → s.dlRd < s.dlLen →
    ∃ t, exec .bbDiscardAll s = .next t ∧
      exec .dCtrlConnect s = .next { t with
        uplinkCongested := false
        downlinkCongested := false
        diagTrace := s.diagTrace ++ [.diagReset]
        fq := if Config.flushFqOnConnect then s.fq.map fun q => { q with consumed := q.produced } else s.fq
        dlRd := s.dlRd + 1
        result := .done }

/-- A control command other than 0 is fatal cause 1, a source id 13..15 fatal cause 2, whatever preempts;
`dl.rd` has not moved (30_encoding.md R103; 60_exceptions.md R242, R243, R246). Covers D.CTRL.RESERVED and
D.RESERVED13..15, whose own effect this is. -/
def Obligations.ReservedRecordsHalt : Prop :=
  ∀ (s : State) (cmd hi : BitVec 4), s.halted = false → s.stack = [] → s.dlRd < s.dlLen →
    let fatal (code : BitVec 3) (info : FatalInfo) : Host.Outcome State Fault Refusal := .next { s with
      irqMasked := true, fatalCode := code, fatalInfo := info, halted := true
      diagTrace := s.diagTrace ++ [.fatal code info] }
    (cmd ≠ 0 → exec (.dCtrlReserved cmd) s = fatal 1 (.cmd cmd)) ∧
    exec (.dReserved13 hi) s = fatal 2 (.sid 13) ∧
    exec (.dReserved14 hi) s = fatal 2 (.sid 14) ∧
    exec (.dReserved15 hi) s = fatal 2 (.sid 15)

/-- A record of an out-of-scope destination: `dl.rd` advances by what `EXT_DECODE` answers where that lies within
the packet, else fatal cause 3 (42_wire_framing.md R186). Covers D.GPIO, D.UART1..6, D.LED, D.BUZZER. The
answer is the next of `extLenIn` or, where State holds none, the OPEN parameter's (log entries 1, 2). -/
def Obligations.ExternalRule : Prop :=
  ∀ (s : State) (i : Instr) (sid : BitVec 4) (n : Nat) (answers : List Nat), externalSid i = some sid →
    s.MainTurn → s.dlRd < s.dlLen →
    (s.extLenIn = n :: answers ∨
      s.extLenIn = [] ∧ answers = [] ∧ n = Config.extDecode sid s.packet s.dlRd s.dlLen) →
    (1 ≤ n → n ≤ s.dlLen - s.dlRd →
      exec i s = .next { s with extLenIn := answers, dlRd := s.dlRd + n, result := .done }) ∧
    ((n = 0 ∨ s.dlLen - s.dlRd < n) →
      exec i s = .next { s with
        extLenIn := answers
        irqMasked := true, fatalCode := 3, fatalInfo := .rd s.dlRd, halted := true
        diagTrace := s.diagTrace ++ [.fatal 3 (.rd s.dlRd)] })

/-- `DL.DECODE()` completes from every state in which it may run, and ends with the packet decoded to its end
unless a record was fatal (42_wire_framing.md R183). -/
def Obligations.DecodeEndsPacket : Prop :=
  ∀ s : State, s.MainTurn → s.dlRd ≤ s.dlLen →
    ∃ t, exec .dlDecode s = .next t ∧ (t.halted = false → t.dlRd = t.dlLen ∧ t.result = .done)

/-- `DL.DECODE()` is its loop: with a record at `dl.rd`, that record and then the rest of the packet; with none
left, nothing (R183); with bytes that are no whole record, fatal cause 3 with `dl.rd` where the record began (R185
step 2; 60_exceptions.md R243, R246). -/
def Obligations.DecodeUnrolls : Prop :=
  ∀ s : State, s.MainTurn →
    (s.dlLen ≤ s.dlRd → exec .dlDecode s = .next { s with result := .done }) ∧
    (decode s.packetRest = .error .truncated →
      exec .dlDecode s = .next { s with
        irqMasked := true, fatalCode := 3, fatalInfo := .rd s.dlRd, halted := true
        diagTrace := s.diagTrace ++ [.fatal 3 (.rd s.dlRd)] }) ∧
    ∀ i, s.dlRd < s.dlLen → decode s.packetRest = .ok i →
      ∃ u, exec i s = .next u ∧
        (u.halted = true → exec .dlDecode s = .next u) ∧
        (u.halted = false → exec .dlDecode s = exec .dlDecode { u with result := s.result })

/-! CAN Hardware Codec. -/

/-- `CAN.RX(k)` with an element pending: `UL.CAN` of what `rx_decode` reads, then the element is acknowledged
whatever came of it (43_can_codec.md R211). The acknowledge that empties the FIFO clears the controller's pending
interrupt, another leaves it pending; no other source's is touched (60_exceptions.md R249). -/
def Obligations.ReceiveRule : Prop :=
  ∀ (s : State) (k : Chan) (e : RxElement) (rest : List RxElement) (data : Payload), s.HandlerTurn → s.nextEmpty →
    s.running = .canRx k → (s.hw.get k).rxFifo = e :: rest →
    let h := rxDecode e.r0 e.r1
    data.bytes = e.data.toList.take h.len →
    ∃ u, exec (.ulCan k h.id.isExt h.rtr h.id.field data) s = .next u ∧
      (u.result = .written ∨ u.result = .dropped) ∧ u.hw = s.hw ∧
      exec (.canRx k) s = .next { u with
        hw := s.hw.set k { s.hw.get k with
          rxFifo := rest, trace := (s.hw.get k).trace ++ [.rxAck] }
        pending := if rest.isEmpty then s.pending.filter fun r => decide (r ≠ .canRx k) else s.pending }

/-- `CAN.PUMP(k)`: as many entries as there are free slots leave the queue, oldest first, each written into the
slot the controller names and requested (R214, R215; 30_encoding.md R110). With none to move nothing happens but
that the answer is used up; an answer above `TX_SLOTS` is refused (log entry 23). The moves are `FQ.DEQ`'s with the
callback `CAN.TXSLOT[k]` and the answer as budget. -/
def Obligations.TransmitPumpRule : Prop :=
  ∀ (s : State) (k : Chan) (free : Nat) (frees puts putsLeft : List Nat), s.MainTurn →
    (s.hw.get k).txFreeIn = free :: frees → (s.hw.get k).txPutIn = puts ++ putsLeft →
    let q := s.fq.get k
    let p := s.hw.get k
    let n := min free q.fill
    let es := (List.range n).map fun j => s.peekEntry k (q.consumed + BitVec.ofNat Config.cursorBits j)
    (free ≤ Config.txSlots → n = 0 →
      exec (.canPump k) s = .next { s with
        hw := s.hw.set k { p with txFreeIn := frees }, result := .bool false }) ∧
    (free ≤ Config.txSlots → 1 ≤ n → puts.length = n → (∀ i ∈ puts, i < Config.txSlots) →
      ∃ sl : Vector (Option Entry) Config.fqCapacity,
        exec (.canPump k) s = .next { s with
          hw := s.hw.set k { p with
            txFreeIn := frees
            txPutIn := putsLeft
            txSlots := (puts.zip es).foldl (fun m x => putSlot x.1 (slotWords x.2) m) p.txSlots
            txRequest := puts.foldl (fun m i => requestSlot i m) p.txRequest
            trace := p.trace ++
              (puts.zip es).flatMap fun x => [.txWrite x.1 (slotWords x.2), .txRequest x.1] }
          fq := s.fq.set k ⟨sl, q.produced, q.consumed + BitVec.ofNat Config.cursorBits n⟩
          draws := s.draws + 1
          result := .bool true } ∧
        ∀ e : Fin Config.fqCapacity, sl[e] =
          if ∃ j, j < n ∧ e = entryOf (q.consumed + BitVec.ofNat Config.cursorBits j) then none else q.slots[e]) ∧
    (Config.txSlots < free → exec (.canPump k) s = .refused .portContract) ∧
    (free ≤ Config.txSlots → withoutResult (exec (.canPump k) s) =
      withoutResult (exec (.fqDeq k .txSlot free) { s with hw := s.hw.set k { p with txFreeIn := frees } }))

/-- A port that breaks its contract is fatal cause 4 of its controller: `CAN.RX(k)` with the receive FIFO empty,
whatever preempts, acknowledges nothing (43_can_codec.md R211 step X1; 70_reset_and_hazards.md R293); `CAN.PUMP(k)`
told a transmit slot that does not exist writes nothing (R215; 60_exceptions.md R243). -/
def Obligations.PortFaultHalts : Prop :=
  (∀ (s : State) (k : Chan), s.halted = false → s.running = .canRx k → (s.hw.get k).rxFifo = [] →
    exec (.canRx k) s = .next { s with
      irqMasked := true, fatalCode := 4, fatalInfo := .chan k, halted := true
      diagTrace := s.diagTrace ++ [.fatal 4 (.chan k)] }) ∧
  ∀ (s : State) (k : Chan) (free i : Nat) (frees puts : List Nat), s.MainTurn →
    (s.hw.get k).txFreeIn = free :: frees → (s.hw.get k).txPutIn = i :: puts →
    1 ≤ free → free ≤ Config.txSlots → 1 ≤ (s.fq.get k).fill → Config.txSlots ≤ i →
    exec (.canPump k) s = .next { s with
      hw := s.hw.set k { s.hw.get k with txFreeIn := frees, txPutIn := puts }
      irqMasked := true, fatalCode := 4, fatalInfo := .chan k, halted := true
      diagTrace := s.diagTrace ++ [.fatal 4 (.chan k)] }

/-- `CAN.INIT(k)` in boot: two accept-all filters and the notification, in this order; the first call that
answers `err` is fatal cause 5 with its step; after boot it is refused (R216; 30_encoding.md R112; 60_exceptions.md
R249, R253). -/
def Obligations.InitRule : Prop :=
  ∀ (s : State) (k : Chan) (answers : List Bool), s.MainTurn →
    let p := s.hw.get k
    let std (ok : Bool) : HwEvent := .cfgFilter ⟨.standard, 0, 0, 0, 0⟩ ok
    let ext (ok : Bool) : HwEvent := .cfgFilter ⟨.extended, 0, 0, 0, 0⟩ ok
    let failed (step : Nat) (calls : List HwEvent) : Host.Outcome State Fault Refusal := .next { s with
      hw := s.hw.set k { p with cfgIn := answers, trace := p.trace ++ calls }
      irqMasked := true, fatalCode := 5, fatalInfo := .initStep k step, halted := true
      diagTrace := s.diagTrace ++ [.fatal 5 (.initStep k step)] }
    (s.phase.inBoot = true → p.cfgIn = true :: true :: true :: answers →
      exec (.canInit k) s = .next { s with
        hw := s.hw.set k { p with
          cfgIn := answers, rxArmed := true, trace := p.trace ++ [std true, ext true, .cfgNotify true] }
        result := .done }) ∧
    (s.phase.inBoot = true → p.cfgIn = false :: answers → exec (.canInit k) s = failed 1 [std false]) ∧
    (s.phase.inBoot = true → p.cfgIn = true :: false :: answers →
      exec (.canInit k) s = failed 2 [std true, ext false]) ∧
    (s.phase.inBoot = true → p.cfgIn = true :: true :: false :: answers →
      exec (.canInit k) s = failed 3 [std true, ext true, .cfgNotify false]) ∧
    (s.phase.inBoot = false → exec (.canInit k) s = .refused .afterBoot)

/-! The main loop, failures, interrupts, contexts. -/

/-- `MAIN.ITER()` with nothing waiting, the transport busy and nothing to transmit changes nothing: only answers of
the ports are used up (60_exceptions.md R256, its example; R244). -/
def Obligations.IterationIdle : Prop :=
  ∀ (s : State) (ready : List Bool) (free : Chan → Nat) (frees : Chan → List Nat), s.MainTurn →
    s.dlLen ≤ s.dlRd → s.readyIn = false :: ready →
    (∀ k, (s.hw.get k).txFreeIn = free k :: frees k ∧ free k ≤ Config.txSlots ∧
      (free k = 0 ∨ (s.fq.get k).fill = 0)) →
    let used (k : Chan) : HwPort := { s.hw.get k with txFreeIn := frees k }
    exec .mainIter s = .next { s with
      readyIn := ready
      hw := ⟨#v[used .can1, used .can2, used .can3]⟩
      result := .done }

/-- `MAIN.ITER()` is its parts in order: `DL.DECODE` where a packet waits, `UL.PUMP`, `CAN.PUMP` of each
controller; a fatal entry in one of them ends it. The latched result alone is the iteration's own (R256). -/
def Obligations.IterationIsItsParts : Prop :=
  ∀ s : State, s.MainTurn →
    let first := if s.dlRd < s.dlLen then exec .dlDecode s else .next s
    withoutResult (exec .mainIter s) =
      withoutResult (thenExec s.result (thenExec s.result (thenExec s.result (thenExec s.result first
        .ulPump) (.canPump .can1)) (.canPump .can2)) (.canPump .can3))

/-- The fatal entry (60_exceptions.md R246), as one step: interrupts masked, cause and info latched, the halt latch
set, the event signalled, nothing else saved or restored; and after it no agent has a step and no operation an
effect (R247). -/
def Obligations.FatalEntry : Prop :=
  (∀ (s : State) (code : BitVec 3) (info : FatalInfo),
    s.raiseFatal code info = { s with
      irqMasked := true, fatalCode := code, fatalInfo := info, halted := true
      diagTrace := s.diagTrace ++ [.fatal code info] }) ∧
  ∀ (s : State) (i : Instr), s.halted = true → exec i s = .fault .halted ∧ step s = .fault .halted

/-- A pending request that may start, and that none of a higher level precedes, starts: its handler is entered with
its calls and no other state changes, the other requests stay pending (60_exceptions.md R248 to R252). This for each of the
three kinds; an `ExtProd[j]` that does not exist is refused (10_state.md R20). A frame that a controller receives enters its
FIFO and makes its interrupt pending, and is lost where the FIFO is full (R249; 43_can_codec.md R217). R252 clause 1
lets an interrupt start and 93_implementation_defined.md U17 leaves open when; that it starts at the first step
at which it may, and the earliest of one level first, is the model's choice (DESIGN CHOICE, log entry 9). -/
def Obligations.HandlerEntry : Prop :=
  (∀ (s : State) (r : IrqReq) (before after : List IrqReq), s.halted = false → s.arrivals = [] →
    s.pending = before ++ r :: after → s.irqMasked = false →
    (∀ k, r = .canRx k → (s.hw.get k).rxArmed = true) →
    (∀ a ∈ s.stack, Config.prio a.agent < Config.prio r.agent) →
    (∀ x ∈ before, s.admissible x = true → Config.prio x.agent < Config.prio r.agent) →
    (∀ x ∈ after, s.admissible x = true → Config.prio x.agent ≤ Config.prio r.agent) →
    let entered (a : Agent) (todo : List Call) : Host.Outcome State Fault Refusal :=
      .next { s with pending := before ++ after, stack := ⟨a, todo⟩ :: s.stack }
    (∀ k, r = .canRx k → step s = entered (.canRx k) [.op (.canRx k)]) ∧
    (∀ bytes, r = .usbRx bytes → step s = entered .usbRx [.deposit bytes]) ∧
    (∀ j ops, r = .extProd j ops → 1 ≤ j → j ≤ Config.nExtProducers →
      step s = entered (.extProd j) (ops.map .op)) ∧
    (∀ j ops, r = .extProd j ops → j = 0 ∨ Config.nExtProducers < j → step s = .refused .noSuchAgent)) ∧
  ∀ (s : State) (k : Chan) (e : RxElement) (later : List (List EnvEvent)),
    s.arrivals = [.rxFrame k e] :: later →
    let h := s.hw.get k
    (h.rxFifo.length < Config.rxFifoDepth →
      step s = step { s with
        arrivals := [] :: later
        hw := s.hw.set k { h with rxFifo := h.rxFifo ++ [e] }
        pending := s.pending ++ [.canRx k] }) ∧
    (Config.rxFifoDepth ≤ h.rxFifo.length → step s = step { s with arrivals := [] :: later })

/-- Where a pending interrupt may start, one of the highest level among those that may is picked and the others stay
pending (60_exceptions.md R250), and the step enters its handler. On a tie the model picks the earliest, and it enters
at the first step at which one may start (DESIGN CHOICE, log entry 9). -/
def Obligations.HighestPriorityStarts : Prop :=
  (∀ (ok : IrqReq → Bool) (pending : List IrqReq),
    ((pickRequest ok pending).isSome = true ↔ ∃ x ∈ pending, ok x = true) ∧
    ∀ r others, pickRequest ok pending = some (r, others) →
      ok r = true ∧ (∀ x ∈ pending, ok x = true → Config.prio x.agent ≤ Config.prio r.agent) ∧
        ∃ before after, pending = before ++ r :: after ∧ others = before ++ after ∧
          ∀ x ∈ before, ok x = true → Config.prio x.agent < Config.prio r.agent) ∧
  ∀ s : State, s.halted = false →
    let u := s.takeArrivals
    (∃ x ∈ u.pending, u.admissible x = true) →
    ∃ r before after, u.pending = before ++ r :: after ∧ u.admissible r = true ∧
      (∀ x ∈ u.pending, u.admissible x = true → Config.prio x.agent ≤ Config.prio r.agent) ∧
      (∀ x ∈ before, u.admissible x = true → Config.prio x.agent < Config.prio r.agent) ∧
      ((∀ j ops, r = .extProd j ops → 1 ≤ j ∧ j ≤ Config.nExtProducers) →
        step s = .next { u with pending := before ++ after, stack := ⟨r.agent, r.calls⟩ :: u.stack }) ∧
      (∀ j ops, r = .extProd j ops → j = 0 ∨ Config.nExtProducers < j → step s = .refused .noSuchAgent)

/-- A handler with nothing left to do returns to the agent it preempted, and its grants end; with a granted byte
unwritten the run is refused (R251; 70_reset_and_hazards.md R285; 93_implementation_defined.md U3). -/
def Obligations.HandlerReturn : Prop :=
  ∀ (s : State) (a : Agent) (rest : List Activation), s.halted = false → s.quiet →
    s.stack = ⟨a, []⟩ :: rest →
    ((∀ g ∈ s.grants, g.owner = a → g.left = []) →
      step s = .next { s with stack := rest, grants := s.grants.filter fun g => decide (g.owner ≠ a) }) ∧
    ((∃ g ∈ s.grants, g.owner = a ∧ g.left ≠ []) → step s = .refused .unwrittenGrant)

/-- While interrupts are masked no handler starts, neither inside an operation nor between two (R249, R252
clause 1): a preemption point only lets the environment move. -/
def Obligations.MaskedNoHandler : Prop :=
  (∀ (n : Nat) (s : State), s.irqMasked = true → point n s = .ok () s.takeArrivals) ∧
  ∀ s : State, s.halted = false → s.irqMasked = true → step s = runNext s.takeArrivals

/-- Whatever handlers run at a preemption point, nested to any depth, the preempted agent goes on as it stood:
`bb.consumed`, every Frame Queue, a packet under decoding, the batch popped and the agents inside an operation are
as before, `bb.produced` never falls back, and a batch's length never falls (R251, R252; 70_reset_and_hazards.md
R291). What clauses 3 and 4 of 40_batch_buffer.md R140 say of the batches from a cursor value on stays so, in the middle
of a `BB.RESET` too. -/
def Obligations.PreemptionKeepsConsumer : Prop :=
  ∀ (n : Nat) (s t : State), s.Inv → point n s = .ok () t →
    t.bbConsumed = s.bbConsumed ∧ t.fq = s.fq ∧ t.stack = s.stack ∧ t.popped = s.popped ∧
    t.txPending = s.txPending ∧ t.halted = s.halted ∧
    (s.dlRd < s.dlLen → t.dlRd = s.dlRd ∧ t.dlLen = s.dlLen ∧ t.dlBuf = s.dlBuf) ∧
    (s.bbProduced - s.bbConsumed).toNat ≤ (t.bbProduced - t.bbConsumed).toNat ∧
    (∀ i : Slot, (s.wlen[i]).toNat ≤ (t.wlen[i]).toNat) ∧
    ∀ v : Cursor, s.OrderedFrom v → t.OrderedFrom v

/-- A call from the wrong context is refused (R253): the producers' operations from `Main`, all others from a
handler. -/
def Obligations.ContextRule : Prop :=
  ∀ (s : State) (i : Instr), s.halted = false →
    (producerInstr i = true → s.stack = [] → exec i s = .refused .wrongContext) ∧
    (producerInstr i = false → s.inInterrupt = true → exec i s = .refused .wrongContext)

/-- `DL.DEPOSIT(bytes)` by `UsbRx`: the packet stands in `dl.buf` from index 0 on and nothing else does, `dl.len`
is its length, `dl.rd` is 0; out of its domain, during decoding or by another agent it is refused
(10_state.md R47; 70_reset_and_hazards.md R291; R253). -/
def Obligations.DepositRule : Prop :=
  ∀ (s : State) (a : Agent) (bytes : List Byte) (todo : List Call) (rest : List Activation),
    s.halted = false → s.quiet →
    s.stack = ⟨a, .deposit bytes :: todo⟩ :: rest →
    (a = .usbRx → 1 ≤ bytes.length → bytes.length ≤ Config.dlMax → s.dlLen ≤ s.dlRd →
      ∃ m, step s = .next { s with
          stack := ⟨a, todo⟩ :: rest, dlBuf := m, dlLen := bytes.length, dlRd := 0 } ∧
        ∀ j, Memory.read .dlbuf m j = bytes[j]?) ∧
    (a = .usbRx → (bytes.length = 0 ∨ Config.dlMax < bytes.length) → step s = .refused .depositSize) ∧
    (a = .usbRx → 1 ≤ bytes.length → bytes.length ≤ Config.dlMax → s.dlRd < s.dlLen →
      step s = .refused .depositBusy) ∧
    (a ≠ .usbRx → step s = .refused .wrongContext)
end

