-- ==== Sys2Proof/Laws/Encoding.lean ====
section
/-! SUPPORT. The bit fields and the byte order of a CAN record, read back from what the encoder writes
(30_encoding.md R90 to R102; 42_wire_framing.md R188, R189). -/

namespace Sys2Proof

/-! The operands of an id. -/

@[simp] theorem CanId.of_field (i : CanId) : CanId.of i.isExt i.field = i := by cases i <;> rfl

/-! Byte order. -/

theorem le32_bytes (v : BitVec 32) :
    le32 (v.extractLsb' 0 8) (v.extractLsb' 8 8) (v.extractLsb' 16 8) (v.extractLsb' 24 8) = v := by
  unfold le32
  rw [BitVec.extractLsb'_append_extractLsb'_eq_extractLsb' (by rfl),
    BitVec.extractLsb'_append_extractLsb'_eq_extractLsb' (by rfl),
    BitVec.extractLsb'_append_extractLsb'_eq_extractLsb' (by rfl)]
  simp

theorem le16_bytes (v : BitVec 16) : le16 (v.extractLsb' 0 8) (v.extractLsb' 8 8) = v := by
  unfold le16
  rw [BitVec.extractLsb'_append_extractLsb'_eq_extractLsb' (by rfl)]
  simp

/-! Fields. -/

/-- The low and the high part of two fields side by side. -/
theorem fields_of_append {n m : Nat} (a : BitVec n) (b : BitVec m) :
    (a ++ b).extractLsb' 0 m = b ∧ (a ++ b).extractLsb' m n = a := by
  constructor <;>
  · apply BitVec.eq_of_getLsbD_eq
    intro i hi
    rw [BitVec.getLsbD_extractLsb', BitVec.getLsbD_append]
    simp [hi]

theorem extField_fields (id : ExtId) (l : LenField) :
    (extField id l).extractLsb' 0 Config.extIdBits = id ∧
    (extField id l).extractLsb' Config.extIdBits Config.lenBits = l := fields_of_append l id

theorem stdField_fields (id : StdId) (l : LenField) :
    (stdField id l).extractLsb' 0 Config.stdIdBits = id ∧
    (stdField id l).extractLsb' Config.stdIdBits Config.lenBits = l := by
  unfold stdField
  constructor <;>
  · apply BitVec.eq_of_getLsbD_eq
    intro i hi
    rw [BitVec.getLsbD_extractLsb', BitVec.getLsbD_append, BitVec.getLsbD_append]
    simp [hi]

/-- The extended id field as R188 writes it. -/
theorem extField_eq (id : ExtId) (l : LenField) :
    extField id l = id.setWidth 32 ||| (l.setWidth 32 <<< 29) := by
  apply BitVec.eq_of_toNat_eq
  have hl : l.toNat < 8 := l.isLt
  have hi : id.toNat < 2 ^ 29 := id.isLt
  have h2 : l.toNat <<< 29 < 2 ^ 32 := by rw [Nat.shiftLeft_eq]; omega
  simp only [extField, BitVec.toNat_append, BitVec.toNat_or, BitVec.toNat_setWidth, BitVec.toNat_shiftLeft]
  rw [Nat.mod_eq_of_lt (show id.toNat < 2 ^ 32 by omega), Nat.mod_eq_of_lt (show l.toNat < 2 ^ 32 by omega),
    Nat.mod_eq_of_lt h2, Nat.lor_comm]

/-- The standard id field as R188 writes it. -/
theorem stdField_eq (id : StdId) (l : LenField) :
    stdField id l = id.setWidth 16 ||| (l.setWidth 16 <<< 11) := by
  apply BitVec.eq_of_toNat_eq
  have hl : l.toNat < 8 := l.isLt
  have h : id.toNat < 2 ^ 11 := id.isLt
  have h2 : l.toNat <<< 11 < 2 ^ 16 := by rw [Nat.shiftLeft_eq]; omega
  simp only [stdField, BitVec.toNat_append, BitVec.toNat_or, BitVec.toNat_setWidth, BitVec.toNat_shiftLeft,
    BitVec.toNat_ofNat]
  rw [Nat.mod_eq_of_lt (show id.toNat < 2 ^ 16 by omega),
    Nat.mod_eq_of_lt (show l.toNat < 2 ^ 16 by omega), Nat.mod_eq_of_lt h2]
  simp [Nat.lor_comm]

/-- The bits of a CAN header (R91, R92, R102). -/
theorem canHeader_bits (sid : BitVec 4) (ext rtr hasData : Bool) :
    (canHeader sid ext rtr hasData).getLsbD 4 = ext ∧ (canHeader sid ext rtr hasData).getLsbD 5 = rtr ∧
    (canHeader sid ext rtr hasData).getLsbD 6 = hasData ∧
    (canHeader sid ext rtr hasData).getLsbD 7 = false ∧
    headerSid (canHeader sid ext rtr hasData) = sid := by
  revert sid ext rtr hasData
  decide

/-- A CAN header as R188 writes it. -/
theorem canHeader_eq (sid : BitVec 4) (ext rtr hasData : Bool) :
    canHeader sid ext rtr hasData = sid.setWidth 8 ||| ((BitVec.ofBool ext).setWidth 8 <<< 4) |||
      ((BitVec.ofBool rtr).setWidth 8 <<< 5) ||| ((BitVec.ofBool hasData).setWidth 8 <<< 6) := by
  revert sid ext rtr hasData
  decide

theorem headerOf_fields (hi sid : BitVec 4) :
    headerSid (headerOf hi sid) = sid ∧ headerHi (headerOf hi sid) = hi := by
  revert hi sid
  decide

/-! Lengths. -/

/-- `lenf + 1` is the length of a payload that is there (R99). -/
theorem lenField_succ {data : List Byte} (h : data.length ≤ 8) (h0 : data.isEmpty = false) :
    (lenField data).toNat + 1 = data.length := by
  cases data with
  | nil => simp at h0
  | cons a t => simp [lenField, Config.lenBits] at *; omega

/-- The length field and `has_data` give the length back (R99). -/
theorem dataLen_lenField (data : Payload) :
    dataLen (!data.bytes.isEmpty) (lenField data.bytes) = data.bytes.length := by
  unfold dataLen
  cases hd : data.bytes.isEmpty
  · exact lenField_succ data.fits hd
  · have : data.bytes = [] := by simpa using hd
    rw [this]
    rfl

/-- The payload is read back, whatever follows it. -/
theorem withPayload_append (rtr : Bool) (id : CanId) (data : Payload) (rest : List Byte) :
    withPayload rtr (!data.bytes.isEmpty) id (lenField data.bytes) (data.bytes ++ rest) = some ⟨rtr, id, data⟩ := by
  unfold withPayload
  simp only [dataLen_lenField]
  rw [if_neg (by simp)]
  congr 2
  obtain ⟨bytes, fits⟩ := data
  simp

/-- A record is read to the length its fields say, or not at all (R189). -/
theorem withPayload_some {rtr hasData : Bool} {id : CanId} {lenf : LenField} {p : List Byte} {f : CanFrame}
    (h : withPayload rtr hasData id lenf p = some f) : f.id = id ∧ f.data.bytes.length ≤ p.length := by
  unfold withPayload at h
  split at h
  · exact nomatch h
  · injection h with h
    subst h
    exact ⟨rfl, List.length_take_le' _ _⟩

/-- `dec_can` reads back what is written (30_encoding.md R90, R98, R99), whatever follows it. -/
theorem decCan_canBytes (sid : BitVec 4) (f : CanFrame) (rest : List Byte) :
    decCan (canBytes sid f ++ rest) = some f := by
  obtain ⟨rtr, id, data⟩ := f
  unfold canBytes decCan
  cases id
  · obtain ⟨b4, b5, b6, -, -⟩ := canHeader_bits sid false rtr (!data.bytes.isEmpty)
    simp only [List.cons_append, b4, b5, b6, bytesLE16, CanId.isExt, if_neg Bool.false_ne_true,
      List.nil_append, le16_bytes, stdField_fields]
    exact withPayload_append _ _ _ _
  · obtain ⟨b4, b5, b6, -, -⟩ := canHeader_bits sid true rtr (!data.bytes.isEmpty)
    simp only [List.cons_append, b4, b5, b6, bytesLE32, CanId.isExt, if_true, List.nil_append,
      le32_bytes, extField_fields]
    exact withPayload_append _ _ _ _

/-- An uplink frame carries no payload where it is a remote frame (30_encoding.md R100). -/
theorem uplinkDataOk_iff {rtr : Bool} {data : Payload} (h : uplinkDataOk rtr data = true) :
    (if rtr then .empty else data) = data := by
  cases rtr
  · rfl
  · obtain ⟨bytes, fits⟩ := data
    have : bytes = [] := by simpa [uplinkDataOk] using h
    subst this
    rfl

end Sys2Proof
end

