-- ==== Sys2Proof/Laws/Cursor.lean ====
section
/-! SUPPORT. Cursor arithmetic modulo `2^CURSOR_BITS` (00_scope.md R8). -/

namespace Sys2Proof.Machine

/-- The difference of two cursors grows by what is added to the leading one, short of a wrap of the
difference. -/
theorem cursor_add_sub {p c : Cursor} {n : Nat} (h : (p - c).toNat + n < 2 ^ 32) :
    (p + BitVec.ofNat Config.cursorBits n - c).toNat = (p - c).toNat + n := by
  have hp := p.isLt
  have hc := c.isLt
  simp only [Config.cursorBits, BitVec.toNat_sub, BitVec.toNat_add, BitVec.toNat_ofNat] at *
  omega

/-- The difference shrinks by what is added to the trailing cursor. -/
theorem cursor_sub_add {p c : Cursor} {n : Nat} (h : n ≤ (p - c).toNat) :
    (p - (c + BitVec.ofNat Config.cursorBits n)).toNat = (p - c).toNat - n := by
  have hp := p.isLt
  have hc := c.isLt
  simp only [Config.cursorBits, BitVec.toNat_sub, BitVec.toNat_add, BitVec.toNat_ofNat] at *
  omega

theorem cursor_succ_sub {p c : Cursor} (h : (p - c).toNat + 1 < 2 ^ 32) :
    (p + 1 - c).toNat = (p - c).toNat + 1 := cursor_add_sub (n := 1) h

theorem cursor_sub_succ {p c : Cursor} (h : 1 ≤ (p - c).toNat) :
    (p - (c + 1)).toNat = (p - c).toNat - 1 := cursor_sub_add (n := 1) h

/-- Two cursors are equal exactly when nothing lies between them. -/
theorem cursor_sub_eq_zero {p c : Cursor} : (p - c).toNat = 0 ↔ p = c := by
  constructor
  · intro h
    apply BitVec.eq_of_toNat_eq
    have hp := p.isLt
    have hc := c.isLt
    simp only [Config.cursorBits, BitVec.toNat_sub] at *
    omega
  · rintro rfl
    simp

/-- Cursors at one distance from a third are equal. -/
theorem cursor_sub_inj {p q c : Cursor} (h : (p - c).toNat = (q - c).toNat) : p = q := by
  apply BitVec.eq_of_toNat_eq
  have hp := p.isLt
  have hq := q.isLt
  have hc := c.isLt
  simp only [Config.cursorBits, BitVec.toNat_sub] at *
  omega

theorem cursor_sub_one {p c : Cursor} (h : p = c + 1) : (p - c).toNat = 1 := by
  subst h
  have hc := c.isLt
  have h1 : (1 : Cursor).toNat = 1 := rfl
  simp only [Config.cursorBits, BitVec.toNat_sub, BitVec.toNat_add, h1] at *
  omega

end Sys2Proof.Machine
end

