-- ==== Sys2Proof/Laws/Memory.lean ====
section
/-! SUPPORT. The laws of the memory: a read after a write, everything else unchanged, the canonical
form kept by every operation. -/

namespace Sys2Proof.Machine

/-! One list. -/

theorem Memory.find_insert_same (m : Memory) (a : Nat) (b : Byte) :
    Memory.find (Memory.insert m a b) a = some b := by
  induction m with
  | nil => simp [Memory.insert, Memory.find]
  | cons c t ih =>
    obtain ⟨k, v⟩ := c
    simp only [Memory.insert]
    split
    · simp [Memory.find]
    · split
      · simp [Memory.find]
      · rename_i h1 h2
        simp [Memory.find, Ne.symm h2, ih]

theorem Memory.find_insert_other (m : Memory) {a x : Nat} (b : Byte) (h : x ≠ a) :
    Memory.find (Memory.insert m a b) x = Memory.find m x := by
  induction m with
  | nil => simp [Memory.insert, Memory.find, Ne.symm h]
  | cons c t ih =>
    obtain ⟨k, v⟩ := c
    simp only [Memory.insert]
    split
    · simp [Memory.find, Ne.symm h]
    · split
      · rename_i h2; subst h2; simp [Memory.find, Ne.symm h]
      · simp [Memory.find, ih]

theorem Memory.find_erase_other (m : Memory) {a x : Nat} (h : x ≠ a) :
    Memory.find (Memory.erase m a) x = Memory.find m x := by
  induction m with
  | nil => rfl
  | cons c t ih =>
    obtain ⟨k, v⟩ := c
    simp only [Memory.erase]
    split
    · rename_i h2; subst h2; simp [Memory.find, Ne.symm h]
    · simp [Memory.find, ih]

theorem Memory.sortedFrom_mono {lo lo' : Nat} {m : Memory} (h : Memory.sortedFrom lo m = true)
    (hl : lo' ≤ lo) : Memory.sortedFrom lo' m = true := by
  cases m with
  | nil => rfl
  | cons c t =>
    simp only [Memory.sortedFrom, Bool.and_eq_true, decide_eq_true_eq] at *
    exact ⟨by omega, h.2⟩

theorem Memory.find_below {lo : Nat} {m : Memory} (h : Memory.sortedFrom lo m = true) {a : Nat}
    (ha : a < lo) : Memory.find m a = none := by
  induction m generalizing lo with
  | nil => rfl
  | cons c t ih =>
    obtain ⟨k, v⟩ := c
    simp only [Memory.sortedFrom, Bool.and_eq_true, decide_eq_true_eq] at h
    rw [Memory.find, if_neg (by omega)]
    exact ih h.2 (by omega)

theorem Memory.sortedFrom_insert {lo : Nat} {m : Memory} (h : Memory.sortedFrom lo m = true)
    {a : Nat} (b : Byte) (ha : lo ≤ a) : Memory.sortedFrom lo (Memory.insert m a b) = true := by
  induction m generalizing lo with
  | nil => simp [Memory.insert, Memory.sortedFrom, ha]
  | cons c t ih =>
    obtain ⟨k, v⟩ := c
    simp only [Memory.sortedFrom, Bool.and_eq_true, decide_eq_true_eq] at h
    simp only [Memory.insert]
    split
    · simp only [Memory.sortedFrom, Bool.and_eq_true, decide_eq_true_eq]
      exact ⟨ha, by omega, h.2⟩
    · split
      · rename_i h2; subst h2
        simp only [Memory.sortedFrom, Bool.and_eq_true, decide_eq_true_eq]
        exact ⟨ha, h.2⟩
      · simp only [Memory.sortedFrom, Bool.and_eq_true, decide_eq_true_eq]
        exact ⟨h.1, ih h.2 (by omega)⟩

theorem Memory.sortedFrom_erase {lo : Nat} {m : Memory} (h : Memory.sortedFrom lo m = true)
    (a : Nat) : Memory.sortedFrom lo (Memory.erase m a) = true := by
  induction m generalizing lo with
  | nil => rfl
  | cons c t ih =>
    obtain ⟨k, v⟩ := c
    simp only [Memory.sortedFrom, Bool.and_eq_true, decide_eq_true_eq] at h
    simp only [Memory.erase]
    split
    · exact Memory.sortedFrom_mono h.2 (by omega)
    · simp only [Memory.sortedFrom, Bool.and_eq_true, decide_eq_true_eq]
      exact ⟨h.1, ih h.2⟩

theorem Memory.find_erase_same {lo : Nat} {m : Memory} (h : Memory.sortedFrom lo m = true) (a : Nat) :
    Memory.find (Memory.erase m a) a = none := by
  induction m generalizing lo with
  | nil => rfl
  | cons c t ih =>
    obtain ⟨k, v⟩ := c
    simp only [Memory.sortedFrom, Bool.and_eq_true, decide_eq_true_eq] at h
    simp only [Memory.erase]
    split
    · rename_i h2; subst h2; exact Memory.find_below h.2 (by omega)
    · rename_i h2; rw [Memory.find, if_neg h2]; exact ih h.2

theorem Memory.mem_insert {m : Memory} {a : Nat} {b : Byte} {c : Host.Cell}
    (h : c ∈ Memory.insert m a b) : c = (a, b) ∨ c ∈ m := by
  induction m with
  | nil => simpa [Memory.insert] using h
  | cons d t ih =>
    obtain ⟨k, v⟩ := d
    simp only [Memory.insert] at h
    split at h
    · simpa using h
    · split at h
      · rcases List.mem_cons.1 h with h | h
        · exact .inl h
        · exact .inr (List.mem_cons_of_mem _ h)
      · rcases List.mem_cons.1 h with h | h
        · exact .inr (h ▸ List.mem_cons_self)
        · exact (ih h).imp id (List.mem_cons_of_mem _)

theorem Memory.mem_erase {m : Memory} {a : Nat} {c : Host.Cell}
    (h : c ∈ Memory.erase m a) : c ∈ m := by
  induction m with
  | nil => exact h
  | cons d t ih =>
    obtain ⟨k, v⟩ := d
    simp only [Memory.erase] at h
    split at h
    · exact List.mem_cons_of_mem _ h
    · rcases List.mem_cons.1 h with h | h
      · exact h ▸ List.mem_cons_self
      · exact List.mem_cons_of_mem _ (ih h)

/-! A space. -/

/-- A read after a write to the same address gives the byte written. -/
theorem Memory.read_write_same (sp : Space) {m : Memory} (h : Memory.wf sp m = true) (a : Nat)
    (b : Byte) : Memory.read sp (Memory.write sp m a b) a = some b := by
  unfold Memory.write
  split
  · rename_i hu
    simp only [Memory.wf, Bool.and_eq_true] at h
    simp [Memory.read, Memory.find_erase_same h.1, hu]
  · simp [Memory.read, Memory.find_insert_same]

/-- A write leaves every other address alone. -/
theorem Memory.read_write_other (sp : Space) (m : Memory) {a x : Nat} (b : Byte) (h : x ≠ a) :
    Memory.read sp (Memory.write sp m a b) x = Memory.read sp m x := by
  unfold Memory.write
  split
  · simp [Memory.read, Memory.find_erase_other m h]
  · simp [Memory.read, Memory.find_insert_other m b h]

/-- A write keeps the canonical form. -/
theorem Memory.wf_write (sp : Space) {m : Memory} (h : Memory.wf sp m = true) (a : Nat) (b : Byte) :
    Memory.wf sp (Memory.write sp m a b) = true := by
  simp only [Memory.wf, Bool.and_eq_true, List.all_eq_true, decide_eq_true_eq] at h ⊢
  unfold Memory.write
  split
  · exact ⟨Memory.sortedFrom_erase h.1 a, fun c hc => h.2 c (Memory.mem_erase hc)⟩
  · rename_i hu
    refine ⟨Memory.sortedFrom_insert h.1 b (Nat.zero_le a), fun c hc => ?_⟩
    rcases Memory.mem_insert hc with rfl | hc
    · exact hu
    · exact h.2 c hc

/-! A packet. -/

theorem Memory.sortedFrom_ofBytes (a : Nat) (bs : List Byte) :
    Memory.sortedFrom a (Memory.ofBytes a bs) = true := by
  induction bs generalizing a with
  | nil => rfl
  | cons b t ih => simp [Memory.ofBytes, Memory.sortedFrom, ih]

/-- A deposited packet is in canonical form. -/
theorem Memory.wf_ofBytes (bs : List Byte) : Memory.wf .dlbuf (Memory.ofBytes 0 bs) = true := by
  simp [Memory.wf, Memory.sortedFrom_ofBytes, Memory.unlisted]

/-- Byte `a + i` of a deposited packet is its byte `i`. -/
theorem Memory.find_ofBytes (a : Nat) (bs : List Byte) (i : Nat) :
    Memory.find (Memory.ofBytes a bs) (a + i) = bs[i]? := by
  induction bs generalizing a i with
  | nil => rfl
  | cons b t ih =>
    cases i with
    | zero => simp [Memory.ofBytes, Memory.find]
    | succ i =>
      rw [Memory.ofBytes, Memory.find, if_neg (by omega), show a + (i + 1) = a + 1 + i by omega, ih]
      simp

/-- The empty memory is in canonical form. -/
theorem Memory.wf_nil (sp : Space) : Memory.wf sp [] = true := rfl

end Sys2Proof.Machine
end

