-- ==== Sys2Proof/Laws/State.lean ====
section
/-! SUPPORT. One lemma per field per named update of the state, true by rfl, so that no later proof
unfolds a record update; the accessors of `PerChan`; the updates that are not one record. -/

namespace Sys2Proof

/-- Controllers at one place are one. -/
theorem Chan.index_inj {j k : Chan} : j.index = k.index ↔ j = k := by
  cases j <;> cases k <;> decide

theorem PerChan.get_set {α : Type} (p : PerChan α) (j k : Chan) (v : α) :
    (p.set k v).get j = if j = k then v else p.get j := by
  have h : k.index.val = j.index.val ↔ j = k := by rw [Fin.val_inj, Chan.index_inj, eq_comm]
  simp only [PerChan.get, PerChan.set, Fin.getElem_fin, Vector.getElem_set, h]

@[simp] theorem PerChan.get_set_same {α : Type} (p : PerChan α) (k : Chan) (v : α) :
    (p.set k v).get k = v := by rw [PerChan.get_set, if_pos rfl]

theorem PerChan.get_set_other {α : Type} (p : PerChan α) {j k : Chan} (v : α) (h : j ≠ k) :
    (p.set k v).get j = p.get j := by rw [PerChan.get_set, if_neg h]

@[simp] theorem PerChan.get_const {α : Type} (v : α) (k : Chan) : (PerChan.const v).get k = v := by
  cases k <;> rfl

@[simp] theorem PerChan.get_map {α β : Type} (f : α → β) (p : PerChan α) (k : Chan) :
    (p.map f).get k = f (p.get k) := by simp only [PerChan.get, PerChan.map, Fin.getElem_fin, Vector.getElem_map]

@[simp] theorem PerChan.set_set {α : Type} (p : PerChan α) (k : Chan) (v w : α) :
    (p.set k v).set k w = p.set k w := by
  simp only [PerChan.set, Vector.set_set]

@[simp] theorem PerChan.set_get {α : Type} (p : PerChan α) (k : Chan) : p.set k (p.get k) = p := by
  simp only [PerChan.set, PerChan.get, Fin.getElem_fin, Vector.set_getElem_self]

/-- Two families are equal when each controller's values are. -/
theorem PerChan.ext {α : Type} {p q : PerChan α} (h : ∀ k, p.get k = q.get k) : p = q := by
  obtain ⟨p⟩ := p
  obtain ⟨q⟩ := q
  congr 1
  ext i hi
  match i, hi with
  | 0, _ => exact h .can1
  | 1, _ => exact h .can2
  | 2, _ => exact h .can3

/-- The values one by one. -/
theorem PerChan.eta {α : Type} (p : PerChan α) : p = ⟨#v[p.get .can1, p.get .can2, p.get .can3]⟩ :=
  PerChan.ext fun k => by cases k <;> rfl

end Sys2Proof

namespace Sys2Proof.Machine

section fields
variable (s : State)

@[simp] theorem State.extend_batch (i : Slot) (o n : Nat) : (s.extend i o n).batch = s.batch := rfl
@[simp] theorem State.extend_wlen (i : Slot) (o n : Nat) : (s.extend i o n).wlen = s.wlen.set i (BitVec.ofNat Config.wlenBits (o + n)) := rfl
@[simp] theorem State.extend_ranges (i : Slot) (o n : Nat) : (s.extend i o n).ranges = s.ranges.set i (s.ranges[i] ++ [(o, n)]) := rfl
@[simp] theorem State.extend_bbProduced (i : Slot) (o n : Nat) : (s.extend i o n).bbProduced = s.bbProduced := rfl
@[simp] theorem State.extend_bbConsumed (i : Slot) (o n : Nat) : (s.extend i o n).bbConsumed = s.bbConsumed := rfl
@[simp] theorem State.extend_txPending (i : Slot) (o n : Nat) : (s.extend i o n).txPending = s.txPending := rfl
@[simp] theorem State.extend_fq (i : Slot) (o n : Nat) : (s.extend i o n).fq = s.fq := rfl
@[simp] theorem State.extend_dlBuf (i : Slot) (o n : Nat) : (s.extend i o n).dlBuf = s.dlBuf := rfl
@[simp] theorem State.extend_dlLen (i : Slot) (o n : Nat) : (s.extend i o n).dlLen = s.dlLen := rfl
@[simp] theorem State.extend_dlRd (i : Slot) (o n : Nat) : (s.extend i o n).dlRd = s.dlRd := rfl
@[simp] theorem State.extend_uplinkCongested (i : Slot) (o n : Nat) : (s.extend i o n).uplinkCongested = s.uplinkCongested := rfl
@[simp] theorem State.extend_downlinkCongested (i : Slot) (o n : Nat) : (s.extend i o n).downlinkCongested = s.downlinkCongested := rfl
@[simp] theorem State.extend_halted (i : Slot) (o n : Nat) : (s.extend i o n).halted = s.halted := rfl
@[simp] theorem State.extend_fatalCode (i : Slot) (o n : Nat) : (s.extend i o n).fatalCode = s.fatalCode := rfl
@[simp] theorem State.extend_fatalInfo (i : Slot) (o n : Nat) : (s.extend i o n).fatalInfo = s.fatalInfo := rfl
@[simp] theorem State.extend_irqMasked (i : Slot) (o n : Nat) : (s.extend i o n).irqMasked = s.irqMasked := rfl
@[simp] theorem State.extend_diagTrace (i : Slot) (o n : Nat) : (s.extend i o n).diagTrace = s.diagTrace := rfl
@[simp] theorem State.extend_tpTrace (i : Slot) (o n : Nat) : (s.extend i o n).tpTrace = s.tpTrace := rfl
@[simp] theorem State.extend_wire (i : Slot) (o n : Nat) : (s.extend i o n).wire = s.wire := rfl
@[simp] theorem State.extend_inFlight (i : Slot) (o n : Nat) : (s.extend i o n).inFlight = s.inFlight := rfl
@[simp] theorem State.extend_hw (i : Slot) (o n : Nat) : (s.extend i o n).hw = s.hw := rfl
@[simp] theorem State.extend_pending (i : Slot) (o n : Nat) : (s.extend i o n).pending = s.pending := rfl
@[simp] theorem State.extend_stack (i : Slot) (o n : Nat) : (s.extend i o n).stack = s.stack := rfl
@[simp] theorem State.extend_grants (i : Slot) (o n : Nat) : (s.extend i o n).grants = s.grants := rfl
@[simp] theorem State.extend_popped (i : Slot) (o n : Nat) : (s.extend i o n).popped = s.popped := rfl
@[simp] theorem State.extend_phase (i : Slot) (o n : Nat) : (s.extend i o n).phase = s.phase := rfl
@[simp] theorem State.extend_result (i : Slot) (o n : Nat) : (s.extend i o n).result = s.result := rfl
@[simp] theorem State.extend_calls (i : Slot) (o n : Nat) : (s.extend i o n).calls = s.calls := rfl
@[simp] theorem State.extend_arrivals (i : Slot) (o n : Nat) : (s.extend i o n).arrivals = s.arrivals := rfl
@[simp] theorem State.extend_readyIn (i : Slot) (o n : Nat) : (s.extend i o n).readyIn = s.readyIn := rfl
@[simp] theorem State.extend_extLenIn (i : Slot) (o n : Nat) : (s.extend i o n).extLenIn = s.extLenIn := rfl
@[simp] theorem State.extend_draws (i : Slot) (o n : Nat) : (s.extend i o n).draws = s.draws := rfl

@[simp] theorem State.emptyBatch_batch (i : Slot) : (s.emptyBatch i).batch = s.batch := rfl
@[simp] theorem State.emptyBatch_wlen (i : Slot) : (s.emptyBatch i).wlen = s.wlen.set i 1 := rfl
@[simp] theorem State.emptyBatch_ranges (i : Slot) : (s.emptyBatch i).ranges = s.ranges.set i [] := rfl
@[simp] theorem State.emptyBatch_bbProduced (i : Slot) : (s.emptyBatch i).bbProduced = s.bbProduced := rfl
@[simp] theorem State.emptyBatch_bbConsumed (i : Slot) : (s.emptyBatch i).bbConsumed = s.bbConsumed := rfl
@[simp] theorem State.emptyBatch_txPending (i : Slot) : (s.emptyBatch i).txPending = s.txPending := rfl
@[simp] theorem State.emptyBatch_fq (i : Slot) : (s.emptyBatch i).fq = s.fq := rfl
@[simp] theorem State.emptyBatch_dlBuf (i : Slot) : (s.emptyBatch i).dlBuf = s.dlBuf := rfl
@[simp] theorem State.emptyBatch_dlLen (i : Slot) : (s.emptyBatch i).dlLen = s.dlLen := rfl
@[simp] theorem State.emptyBatch_dlRd (i : Slot) : (s.emptyBatch i).dlRd = s.dlRd := rfl
@[simp] theorem State.emptyBatch_uplinkCongested (i : Slot) : (s.emptyBatch i).uplinkCongested = s.uplinkCongested := rfl
@[simp] theorem State.emptyBatch_downlinkCongested (i : Slot) : (s.emptyBatch i).downlinkCongested = s.downlinkCongested := rfl
@[simp] theorem State.emptyBatch_halted (i : Slot) : (s.emptyBatch i).halted = s.halted := rfl
@[simp] theorem State.emptyBatch_fatalCode (i : Slot) : (s.emptyBatch i).fatalCode = s.fatalCode := rfl
@[simp] theorem State.emptyBatch_fatalInfo (i : Slot) : (s.emptyBatch i).fatalInfo = s.fatalInfo := rfl
@[simp] theorem State.emptyBatch_irqMasked (i : Slot) : (s.emptyBatch i).irqMasked = s.irqMasked := rfl
@[simp] theorem State.emptyBatch_diagTrace (i : Slot) : (s.emptyBatch i).diagTrace = s.diagTrace := rfl
@[simp] theorem State.emptyBatch_tpTrace (i : Slot) : (s.emptyBatch i).tpTrace = s.tpTrace := rfl
@[simp] theorem State.emptyBatch_wire (i : Slot) : (s.emptyBatch i).wire = s.wire := rfl
@[simp] theorem State.emptyBatch_inFlight (i : Slot) : (s.emptyBatch i).inFlight = s.inFlight := rfl
@[simp] theorem State.emptyBatch_hw (i : Slot) : (s.emptyBatch i).hw = s.hw := rfl
@[simp] theorem State.emptyBatch_pending (i : Slot) : (s.emptyBatch i).pending = s.pending := rfl
@[simp] theorem State.emptyBatch_stack (i : Slot) : (s.emptyBatch i).stack = s.stack := rfl
@[simp] theorem State.emptyBatch_grants (i : Slot) : (s.emptyBatch i).grants = s.grants := rfl
@[simp] theorem State.emptyBatch_popped (i : Slot) : (s.emptyBatch i).popped = s.popped := rfl
@[simp] theorem State.emptyBatch_phase (i : Slot) : (s.emptyBatch i).phase = s.phase := rfl
@[simp] theorem State.emptyBatch_result (i : Slot) : (s.emptyBatch i).result = s.result := rfl
@[simp] theorem State.emptyBatch_calls (i : Slot) : (s.emptyBatch i).calls = s.calls := rfl
@[simp] theorem State.emptyBatch_arrivals (i : Slot) : (s.emptyBatch i).arrivals = s.arrivals := rfl
@[simp] theorem State.emptyBatch_readyIn (i : Slot) : (s.emptyBatch i).readyIn = s.readyIn := rfl
@[simp] theorem State.emptyBatch_extLenIn (i : Slot) : (s.emptyBatch i).extLenIn = s.extLenIn := rfl
@[simp] theorem State.emptyBatch_draws (i : Slot) : (s.emptyBatch i).draws = s.draws := rfl

@[simp] theorem State.setFq_batch (k : Chan) (q : FrameQueue) : (s.setFq k q).batch = s.batch := rfl
@[simp] theorem State.setFq_wlen (k : Chan) (q : FrameQueue) : (s.setFq k q).wlen = s.wlen := rfl
@[simp] theorem State.setFq_ranges (k : Chan) (q : FrameQueue) : (s.setFq k q).ranges = s.ranges := rfl
@[simp] theorem State.setFq_bbProduced (k : Chan) (q : FrameQueue) : (s.setFq k q).bbProduced = s.bbProduced := rfl
@[simp] theorem State.setFq_bbConsumed (k : Chan) (q : FrameQueue) : (s.setFq k q).bbConsumed = s.bbConsumed := rfl
@[simp] theorem State.setFq_txPending (k : Chan) (q : FrameQueue) : (s.setFq k q).txPending = s.txPending := rfl
@[simp] theorem State.setFq_fq (k : Chan) (q : FrameQueue) : (s.setFq k q).fq = s.fq.set k q := rfl
@[simp] theorem State.setFq_dlBuf (k : Chan) (q : FrameQueue) : (s.setFq k q).dlBuf = s.dlBuf := rfl
@[simp] theorem State.setFq_dlLen (k : Chan) (q : FrameQueue) : (s.setFq k q).dlLen = s.dlLen := rfl
@[simp] theorem State.setFq_dlRd (k : Chan) (q : FrameQueue) : (s.setFq k q).dlRd = s.dlRd := rfl
@[simp] theorem State.setFq_uplinkCongested (k : Chan) (q : FrameQueue) : (s.setFq k q).uplinkCongested = s.uplinkCongested := rfl
@[simp] theorem State.setFq_downlinkCongested (k : Chan) (q : FrameQueue) : (s.setFq k q).downlinkCongested = s.downlinkCongested := rfl
@[simp] theorem State.setFq_halted (k : Chan) (q : FrameQueue) : (s.setFq k q).halted = s.halted := rfl
@[simp] theorem State.setFq_fatalCode (k : Chan) (q : FrameQueue) : (s.setFq k q).fatalCode = s.fatalCode := rfl
@[simp] theorem State.setFq_fatalInfo (k : Chan) (q : FrameQueue) : (s.setFq k q).fatalInfo = s.fatalInfo := rfl
@[simp] theorem State.setFq_irqMasked (k : Chan) (q : FrameQueue) : (s.setFq k q).irqMasked = s.irqMasked := rfl
@[simp] theorem State.setFq_diagTrace (k : Chan) (q : FrameQueue) : (s.setFq k q).diagTrace = s.diagTrace := rfl
@[simp] theorem State.setFq_tpTrace (k : Chan) (q : FrameQueue) : (s.setFq k q).tpTrace = s.tpTrace := rfl
@[simp] theorem State.setFq_wire (k : Chan) (q : FrameQueue) : (s.setFq k q).wire = s.wire := rfl
@[simp] theorem State.setFq_inFlight (k : Chan) (q : FrameQueue) : (s.setFq k q).inFlight = s.inFlight := rfl
@[simp] theorem State.setFq_hw (k : Chan) (q : FrameQueue) : (s.setFq k q).hw = s.hw := rfl
@[simp] theorem State.setFq_pending (k : Chan) (q : FrameQueue) : (s.setFq k q).pending = s.pending := rfl
@[simp] theorem State.setFq_stack (k : Chan) (q : FrameQueue) : (s.setFq k q).stack = s.stack := rfl
@[simp] theorem State.setFq_grants (k : Chan) (q : FrameQueue) : (s.setFq k q).grants = s.grants := rfl
@[simp] theorem State.setFq_popped (k : Chan) (q : FrameQueue) : (s.setFq k q).popped = s.popped := rfl
@[simp] theorem State.setFq_phase (k : Chan) (q : FrameQueue) : (s.setFq k q).phase = s.phase := rfl
@[simp] theorem State.setFq_result (k : Chan) (q : FrameQueue) : (s.setFq k q).result = s.result := rfl
@[simp] theorem State.setFq_calls (k : Chan) (q : FrameQueue) : (s.setFq k q).calls = s.calls := rfl
@[simp] theorem State.setFq_arrivals (k : Chan) (q : FrameQueue) : (s.setFq k q).arrivals = s.arrivals := rfl
@[simp] theorem State.setFq_readyIn (k : Chan) (q : FrameQueue) : (s.setFq k q).readyIn = s.readyIn := rfl
@[simp] theorem State.setFq_extLenIn (k : Chan) (q : FrameQueue) : (s.setFq k q).extLenIn = s.extLenIn := rfl
@[simp] theorem State.setFq_draws (k : Chan) (q : FrameQueue) : (s.setFq k q).draws = s.draws := rfl

@[simp] theorem State.setHw_batch (k : Chan) (h : HwPort) : (s.setHw k h).batch = s.batch := rfl
@[simp] theorem State.setHw_wlen (k : Chan) (h : HwPort) : (s.setHw k h).wlen = s.wlen := rfl
@[simp] theorem State.setHw_ranges (k : Chan) (h : HwPort) : (s.setHw k h).ranges = s.ranges := rfl
@[simp] theorem State.setHw_bbProduced (k : Chan) (h : HwPort) : (s.setHw k h).bbProduced = s.bbProduced := rfl
@[simp] theorem State.setHw_bbConsumed (k : Chan) (h : HwPort) : (s.setHw k h).bbConsumed = s.bbConsumed := rfl
@[simp] theorem State.setHw_txPending (k : Chan) (h : HwPort) : (s.setHw k h).txPending = s.txPending := rfl
@[simp] theorem State.setHw_fq (k : Chan) (h : HwPort) : (s.setHw k h).fq = s.fq := rfl
@[simp] theorem State.setHw_dlBuf (k : Chan) (h : HwPort) : (s.setHw k h).dlBuf = s.dlBuf := rfl
@[simp] theorem State.setHw_dlLen (k : Chan) (h : HwPort) : (s.setHw k h).dlLen = s.dlLen := rfl
@[simp] theorem State.setHw_dlRd (k : Chan) (h : HwPort) : (s.setHw k h).dlRd = s.dlRd := rfl
@[simp] theorem State.setHw_uplinkCongested (k : Chan) (h : HwPort) : (s.setHw k h).uplinkCongested = s.uplinkCongested := rfl
@[simp] theorem State.setHw_downlinkCongested (k : Chan) (h : HwPort) : (s.setHw k h).downlinkCongested = s.downlinkCongested := rfl
@[simp] theorem State.setHw_halted (k : Chan) (h : HwPort) : (s.setHw k h).halted = s.halted := rfl
@[simp] theorem State.setHw_fatalCode (k : Chan) (h : HwPort) : (s.setHw k h).fatalCode = s.fatalCode := rfl
@[simp] theorem State.setHw_fatalInfo (k : Chan) (h : HwPort) : (s.setHw k h).fatalInfo = s.fatalInfo := rfl
@[simp] theorem State.setHw_irqMasked (k : Chan) (h : HwPort) : (s.setHw k h).irqMasked = s.irqMasked := rfl
@[simp] theorem State.setHw_diagTrace (k : Chan) (h : HwPort) : (s.setHw k h).diagTrace = s.diagTrace := rfl
@[simp] theorem State.setHw_tpTrace (k : Chan) (h : HwPort) : (s.setHw k h).tpTrace = s.tpTrace := rfl
@[simp] theorem State.setHw_wire (k : Chan) (h : HwPort) : (s.setHw k h).wire = s.wire := rfl
@[simp] theorem State.setHw_inFlight (k : Chan) (h : HwPort) : (s.setHw k h).inFlight = s.inFlight := rfl
@[simp] theorem State.setHw_hw (k : Chan) (h : HwPort) : (s.setHw k h).hw = s.hw.set k h := rfl
@[simp] theorem State.setHw_pending (k : Chan) (h : HwPort) : (s.setHw k h).pending = s.pending := rfl
@[simp] theorem State.setHw_stack (k : Chan) (h : HwPort) : (s.setHw k h).stack = s.stack := rfl
@[simp] theorem State.setHw_grants (k : Chan) (h : HwPort) : (s.setHw k h).grants = s.grants := rfl
@[simp] theorem State.setHw_popped (k : Chan) (h : HwPort) : (s.setHw k h).popped = s.popped := rfl
@[simp] theorem State.setHw_phase (k : Chan) (h : HwPort) : (s.setHw k h).phase = s.phase := rfl
@[simp] theorem State.setHw_result (k : Chan) (h : HwPort) : (s.setHw k h).result = s.result := rfl
@[simp] theorem State.setHw_calls (k : Chan) (h : HwPort) : (s.setHw k h).calls = s.calls := rfl
@[simp] theorem State.setHw_arrivals (k : Chan) (h : HwPort) : (s.setHw k h).arrivals = s.arrivals := rfl
@[simp] theorem State.setHw_readyIn (k : Chan) (h : HwPort) : (s.setHw k h).readyIn = s.readyIn := rfl
@[simp] theorem State.setHw_extLenIn (k : Chan) (h : HwPort) : (s.setHw k h).extLenIn = s.extLenIn := rfl
@[simp] theorem State.setHw_draws (k : Chan) (h : HwPort) : (s.setHw k h).draws = s.draws := rfl

@[simp] theorem State.traceHw_batch (k : Chan) (e : HwEvent) : (s.traceHw k e).batch = s.batch := rfl
@[simp] theorem State.traceHw_wlen (k : Chan) (e : HwEvent) : (s.traceHw k e).wlen = s.wlen := rfl
@[simp] theorem State.traceHw_ranges (k : Chan) (e : HwEvent) : (s.traceHw k e).ranges = s.ranges := rfl
@[simp] theorem State.traceHw_bbProduced (k : Chan) (e : HwEvent) : (s.traceHw k e).bbProduced = s.bbProduced := rfl
@[simp] theorem State.traceHw_bbConsumed (k : Chan) (e : HwEvent) : (s.traceHw k e).bbConsumed = s.bbConsumed := rfl
@[simp] theorem State.traceHw_txPending (k : Chan) (e : HwEvent) : (s.traceHw k e).txPending = s.txPending := rfl
@[simp] theorem State.traceHw_fq (k : Chan) (e : HwEvent) : (s.traceHw k e).fq = s.fq := rfl
@[simp] theorem State.traceHw_dlBuf (k : Chan) (e : HwEvent) : (s.traceHw k e).dlBuf = s.dlBuf := rfl
@[simp] theorem State.traceHw_dlLen (k : Chan) (e : HwEvent) : (s.traceHw k e).dlLen = s.dlLen := rfl
@[simp] theorem State.traceHw_dlRd (k : Chan) (e : HwEvent) : (s.traceHw k e).dlRd = s.dlRd := rfl
@[simp] theorem State.traceHw_uplinkCongested (k : Chan) (e : HwEvent) : (s.traceHw k e).uplinkCongested = s.uplinkCongested := rfl
@[simp] theorem State.traceHw_downlinkCongested (k : Chan) (e : HwEvent) : (s.traceHw k e).downlinkCongested = s.downlinkCongested := rfl
@[simp] theorem State.traceHw_halted (k : Chan) (e : HwEvent) : (s.traceHw k e).halted = s.halted := rfl
@[simp] theorem State.traceHw_fatalCode (k : Chan) (e : HwEvent) : (s.traceHw k e).fatalCode = s.fatalCode := rfl
@[simp] theorem State.traceHw_fatalInfo (k : Chan) (e : HwEvent) : (s.traceHw k e).fatalInfo = s.fatalInfo := rfl
@[simp] theorem State.traceHw_irqMasked (k : Chan) (e : HwEvent) : (s.traceHw k e).irqMasked = s.irqMasked := rfl
@[simp] theorem State.traceHw_diagTrace (k : Chan) (e : HwEvent) : (s.traceHw k e).diagTrace = s.diagTrace := rfl
@[simp] theorem State.traceHw_tpTrace (k : Chan) (e : HwEvent) : (s.traceHw k e).tpTrace = s.tpTrace := rfl
@[simp] theorem State.traceHw_wire (k : Chan) (e : HwEvent) : (s.traceHw k e).wire = s.wire := rfl
@[simp] theorem State.traceHw_inFlight (k : Chan) (e : HwEvent) : (s.traceHw k e).inFlight = s.inFlight := rfl
@[simp] theorem State.traceHw_pending (k : Chan) (e : HwEvent) : (s.traceHw k e).pending = s.pending := rfl
@[simp] theorem State.traceHw_stack (k : Chan) (e : HwEvent) : (s.traceHw k e).stack = s.stack := rfl
@[simp] theorem State.traceHw_grants (k : Chan) (e : HwEvent) : (s.traceHw k e).grants = s.grants := rfl
@[simp] theorem State.traceHw_popped (k : Chan) (e : HwEvent) : (s.traceHw k e).popped = s.popped := rfl
@[simp] theorem State.traceHw_phase (k : Chan) (e : HwEvent) : (s.traceHw k e).phase = s.phase := rfl
@[simp] theorem State.traceHw_result (k : Chan) (e : HwEvent) : (s.traceHw k e).result = s.result := rfl
@[simp] theorem State.traceHw_calls (k : Chan) (e : HwEvent) : (s.traceHw k e).calls = s.calls := rfl
@[simp] theorem State.traceHw_arrivals (k : Chan) (e : HwEvent) : (s.traceHw k e).arrivals = s.arrivals := rfl
@[simp] theorem State.traceHw_readyIn (k : Chan) (e : HwEvent) : (s.traceHw k e).readyIn = s.readyIn := rfl
@[simp] theorem State.traceHw_extLenIn (k : Chan) (e : HwEvent) : (s.traceHw k e).extLenIn = s.extLenIn := rfl
@[simp] theorem State.traceHw_draws (k : Chan) (e : HwEvent) : (s.traceHw k e).draws = s.draws := rfl

@[simp] theorem State.signal_batch (e : DiagEvent) : (s.signal e).batch = s.batch := rfl
@[simp] theorem State.signal_wlen (e : DiagEvent) : (s.signal e).wlen = s.wlen := rfl
@[simp] theorem State.signal_ranges (e : DiagEvent) : (s.signal e).ranges = s.ranges := rfl
@[simp] theorem State.signal_bbProduced (e : DiagEvent) : (s.signal e).bbProduced = s.bbProduced := rfl
@[simp] theorem State.signal_bbConsumed (e : DiagEvent) : (s.signal e).bbConsumed = s.bbConsumed := rfl
@[simp] theorem State.signal_txPending (e : DiagEvent) : (s.signal e).txPending = s.txPending := rfl
@[simp] theorem State.signal_fq (e : DiagEvent) : (s.signal e).fq = s.fq := rfl
@[simp] theorem State.signal_dlBuf (e : DiagEvent) : (s.signal e).dlBuf = s.dlBuf := rfl
@[simp] theorem State.signal_dlLen (e : DiagEvent) : (s.signal e).dlLen = s.dlLen := rfl
@[simp] theorem State.signal_dlRd (e : DiagEvent) : (s.signal e).dlRd = s.dlRd := rfl
@[simp] theorem State.signal_uplinkCongested (e : DiagEvent) : (s.signal e).uplinkCongested = s.uplinkCongested := rfl
@[simp] theorem State.signal_downlinkCongested (e : DiagEvent) : (s.signal e).downlinkCongested = s.downlinkCongested := rfl
@[simp] theorem State.signal_halted (e : DiagEvent) : (s.signal e).halted = s.halted := rfl
@[simp] theorem State.signal_fatalCode (e : DiagEvent) : (s.signal e).fatalCode = s.fatalCode := rfl
@[simp] theorem State.signal_fatalInfo (e : DiagEvent) : (s.signal e).fatalInfo = s.fatalInfo := rfl
@[simp] theorem State.signal_irqMasked (e : DiagEvent) : (s.signal e).irqMasked = s.irqMasked := rfl
@[simp] theorem State.signal_diagTrace (e : DiagEvent) : (s.signal e).diagTrace = s.diagTrace ++ [e] := rfl
@[simp] theorem State.signal_tpTrace (e : DiagEvent) : (s.signal e).tpTrace = s.tpTrace := rfl
@[simp] theorem State.signal_wire (e : DiagEvent) : (s.signal e).wire = s.wire := rfl
@[simp] theorem State.signal_inFlight (e : DiagEvent) : (s.signal e).inFlight = s.inFlight := rfl
@[simp] theorem State.signal_hw (e : DiagEvent) : (s.signal e).hw = s.hw := rfl
@[simp] theorem State.signal_pending (e : DiagEvent) : (s.signal e).pending = s.pending := rfl
@[simp] theorem State.signal_stack (e : DiagEvent) : (s.signal e).stack = s.stack := rfl
@[simp] theorem State.signal_grants (e : DiagEvent) : (s.signal e).grants = s.grants := rfl
@[simp] theorem State.signal_popped (e : DiagEvent) : (s.signal e).popped = s.popped := rfl
@[simp] theorem State.signal_phase (e : DiagEvent) : (s.signal e).phase = s.phase := rfl
@[simp] theorem State.signal_result (e : DiagEvent) : (s.signal e).result = s.result := rfl
@[simp] theorem State.signal_calls (e : DiagEvent) : (s.signal e).calls = s.calls := rfl
@[simp] theorem State.signal_arrivals (e : DiagEvent) : (s.signal e).arrivals = s.arrivals := rfl
@[simp] theorem State.signal_readyIn (e : DiagEvent) : (s.signal e).readyIn = s.readyIn := rfl
@[simp] theorem State.signal_extLenIn (e : DiagEvent) : (s.signal e).extLenIn = s.extLenIn := rfl
@[simp] theorem State.signal_draws (e : DiagEvent) : (s.signal e).draws = s.draws := rfl

@[simp] theorem State.raiseFatal_batch (c : BitVec 3) (i : FatalInfo) : (s.raiseFatal c i).batch = s.batch := rfl
@[simp] theorem State.raiseFatal_wlen (c : BitVec 3) (i : FatalInfo) : (s.raiseFatal c i).wlen = s.wlen := rfl
@[simp] theorem State.raiseFatal_ranges (c : BitVec 3) (i : FatalInfo) : (s.raiseFatal c i).ranges = s.ranges := rfl
@[simp] theorem State.raiseFatal_bbProduced (c : BitVec 3) (i : FatalInfo) : (s.raiseFatal c i).bbProduced = s.bbProduced := rfl
@[simp] theorem State.raiseFatal_bbConsumed (c : BitVec 3) (i : FatalInfo) : (s.raiseFatal c i).bbConsumed = s.bbConsumed := rfl
@[simp] theorem State.raiseFatal_txPending (c : BitVec 3) (i : FatalInfo) : (s.raiseFatal c i).txPending = s.txPending := rfl
@[simp] theorem State.raiseFatal_fq (c : BitVec 3) (i : FatalInfo) : (s.raiseFatal c i).fq = s.fq := rfl
@[simp] theorem State.raiseFatal_dlBuf (c : BitVec 3) (i : FatalInfo) : (s.raiseFatal c i).dlBuf = s.dlBuf := rfl
@[simp] theorem State.raiseFatal_dlLen (c : BitVec 3) (i : FatalInfo) : (s.raiseFatal c i).dlLen = s.dlLen := rfl
@[simp] theorem State.raiseFatal_dlRd (c : BitVec 3) (i : FatalInfo) : (s.raiseFatal c i).dlRd = s.dlRd := rfl
@[simp] theorem State.raiseFatal_uplinkCongested (c : BitVec 3) (i : FatalInfo) : (s.raiseFatal c i).uplinkCongested = s.uplinkCongested := rfl
@[simp] theorem State.raiseFatal_downlinkCongested (c : BitVec 3) (i : FatalInfo) : (s.raiseFatal c i).downlinkCongested = s.downlinkCongested := rfl
@[simp] theorem State.raiseFatal_halted (c : BitVec 3) (i : FatalInfo) : (s.raiseFatal c i).halted = true := rfl
@[simp] theorem State.raiseFatal_fatalCode (c : BitVec 3) (i : FatalInfo) : (s.raiseFatal c i).fatalCode = c := rfl
@[simp] theorem State.raiseFatal_fatalInfo (c : BitVec 3) (i : FatalInfo) : (s.raiseFatal c i).fatalInfo = i := rfl
@[simp] theorem State.raiseFatal_irqMasked (c : BitVec 3) (i : FatalInfo) : (s.raiseFatal c i).irqMasked = true := rfl
@[simp] theorem State.raiseFatal_diagTrace (c : BitVec 3) (i : FatalInfo) : (s.raiseFatal c i).diagTrace = s.diagTrace ++ [.fatal c i] := rfl
@[simp] theorem State.raiseFatal_tpTrace (c : BitVec 3) (i : FatalInfo) : (s.raiseFatal c i).tpTrace = s.tpTrace := rfl
@[simp] theorem State.raiseFatal_wire (c : BitVec 3) (i : FatalInfo) : (s.raiseFatal c i).wire = s.wire := rfl
@[simp] theorem State.raiseFatal_inFlight (c : BitVec 3) (i : FatalInfo) : (s.raiseFatal c i).inFlight = s.inFlight := rfl
@[simp] theorem State.raiseFatal_hw (c : BitVec 3) (i : FatalInfo) : (s.raiseFatal c i).hw = s.hw := rfl
@[simp] theorem State.raiseFatal_pending (c : BitVec 3) (i : FatalInfo) : (s.raiseFatal c i).pending = s.pending := rfl
@[simp] theorem State.raiseFatal_stack (c : BitVec 3) (i : FatalInfo) : (s.raiseFatal c i).stack = s.stack := rfl
@[simp] theorem State.raiseFatal_grants (c : BitVec 3) (i : FatalInfo) : (s.raiseFatal c i).grants = s.grants := rfl
@[simp] theorem State.raiseFatal_popped (c : BitVec 3) (i : FatalInfo) : (s.raiseFatal c i).popped = s.popped := rfl
@[simp] theorem State.raiseFatal_phase (c : BitVec 3) (i : FatalInfo) : (s.raiseFatal c i).phase = s.phase := rfl
@[simp] theorem State.raiseFatal_result (c : BitVec 3) (i : FatalInfo) : (s.raiseFatal c i).result = s.result := rfl
@[simp] theorem State.raiseFatal_calls (c : BitVec 3) (i : FatalInfo) : (s.raiseFatal c i).calls = s.calls := rfl
@[simp] theorem State.raiseFatal_arrivals (c : BitVec 3) (i : FatalInfo) : (s.raiseFatal c i).arrivals = s.arrivals := rfl
@[simp] theorem State.raiseFatal_readyIn (c : BitVec 3) (i : FatalInfo) : (s.raiseFatal c i).readyIn = s.readyIn := rfl
@[simp] theorem State.raiseFatal_extLenIn (c : BitVec 3) (i : FatalInfo) : (s.raiseFatal c i).extLenIn = s.extLenIn := rfl
@[simp] theorem State.raiseFatal_draws (c : BitVec 3) (i : FatalInfo) : (s.raiseFatal c i).draws = s.draws := rfl

@[simp] theorem State.drawn_batch : (s.drawn).batch = s.batch := rfl
@[simp] theorem State.drawn_wlen : (s.drawn).wlen = s.wlen := rfl
@[simp] theorem State.drawn_ranges : (s.drawn).ranges = s.ranges := rfl
@[simp] theorem State.drawn_bbProduced : (s.drawn).bbProduced = s.bbProduced := rfl
@[simp] theorem State.drawn_bbConsumed : (s.drawn).bbConsumed = s.bbConsumed := rfl
@[simp] theorem State.drawn_txPending : (s.drawn).txPending = s.txPending := rfl
@[simp] theorem State.drawn_fq : (s.drawn).fq = s.fq := rfl
@[simp] theorem State.drawn_dlBuf : (s.drawn).dlBuf = s.dlBuf := rfl
@[simp] theorem State.drawn_dlLen : (s.drawn).dlLen = s.dlLen := rfl
@[simp] theorem State.drawn_dlRd : (s.drawn).dlRd = s.dlRd := rfl
@[simp] theorem State.drawn_uplinkCongested : (s.drawn).uplinkCongested = s.uplinkCongested := rfl
@[simp] theorem State.drawn_downlinkCongested : (s.drawn).downlinkCongested = s.downlinkCongested := rfl
@[simp] theorem State.drawn_halted : (s.drawn).halted = s.halted := rfl
@[simp] theorem State.drawn_fatalCode : (s.drawn).fatalCode = s.fatalCode := rfl
@[simp] theorem State.drawn_fatalInfo : (s.drawn).fatalInfo = s.fatalInfo := rfl
@[simp] theorem State.drawn_irqMasked : (s.drawn).irqMasked = s.irqMasked := rfl
@[simp] theorem State.drawn_diagTrace : (s.drawn).diagTrace = s.diagTrace := rfl
@[simp] theorem State.drawn_tpTrace : (s.drawn).tpTrace = s.tpTrace := rfl
@[simp] theorem State.drawn_wire : (s.drawn).wire = s.wire := rfl
@[simp] theorem State.drawn_inFlight : (s.drawn).inFlight = s.inFlight := rfl
@[simp] theorem State.drawn_hw : (s.drawn).hw = s.hw := rfl
@[simp] theorem State.drawn_pending : (s.drawn).pending = s.pending := rfl
@[simp] theorem State.drawn_stack : (s.drawn).stack = s.stack := rfl
@[simp] theorem State.drawn_grants : (s.drawn).grants = s.grants := rfl
@[simp] theorem State.drawn_popped : (s.drawn).popped = s.popped := rfl
@[simp] theorem State.drawn_phase : (s.drawn).phase = s.phase := rfl
@[simp] theorem State.drawn_result : (s.drawn).result = s.result := rfl
@[simp] theorem State.drawn_calls : (s.drawn).calls = s.calls := rfl
@[simp] theorem State.drawn_arrivals : (s.drawn).arrivals = s.arrivals := rfl
@[simp] theorem State.drawn_readyIn : (s.drawn).readyIn = s.readyIn := rfl
@[simp] theorem State.drawn_extLenIn : (s.drawn).extLenIn = s.extLenIn := rfl
@[simp] theorem State.drawn_draws : (s.drawn).draws = s.draws + 1 := rfl

@[simp] theorem State.addGrant_batch (i : Slot) (o n : Nat) : (s.addGrant i o n).batch = s.batch := rfl
@[simp] theorem State.addGrant_wlen (i : Slot) (o n : Nat) : (s.addGrant i o n).wlen = s.wlen := rfl
@[simp] theorem State.addGrant_ranges (i : Slot) (o n : Nat) : (s.addGrant i o n).ranges = s.ranges := rfl
@[simp] theorem State.addGrant_bbProduced (i : Slot) (o n : Nat) : (s.addGrant i o n).bbProduced = s.bbProduced := rfl
@[simp] theorem State.addGrant_bbConsumed (i : Slot) (o n : Nat) : (s.addGrant i o n).bbConsumed = s.bbConsumed := rfl
@[simp] theorem State.addGrant_txPending (i : Slot) (o n : Nat) : (s.addGrant i o n).txPending = s.txPending := rfl
@[simp] theorem State.addGrant_fq (i : Slot) (o n : Nat) : (s.addGrant i o n).fq = s.fq := rfl
@[simp] theorem State.addGrant_dlBuf (i : Slot) (o n : Nat) : (s.addGrant i o n).dlBuf = s.dlBuf := rfl
@[simp] theorem State.addGrant_dlLen (i : Slot) (o n : Nat) : (s.addGrant i o n).dlLen = s.dlLen := rfl
@[simp] theorem State.addGrant_dlRd (i : Slot) (o n : Nat) : (s.addGrant i o n).dlRd = s.dlRd := rfl
@[simp] theorem State.addGrant_uplinkCongested (i : Slot) (o n : Nat) : (s.addGrant i o n).uplinkCongested = s.uplinkCongested := rfl
@[simp] theorem State.addGrant_downlinkCongested (i : Slot) (o n : Nat) : (s.addGrant i o n).downlinkCongested = s.downlinkCongested := rfl
@[simp] theorem State.addGrant_halted (i : Slot) (o n : Nat) : (s.addGrant i o n).halted = s.halted := rfl
@[simp] theorem State.addGrant_fatalCode (i : Slot) (o n : Nat) : (s.addGrant i o n).fatalCode = s.fatalCode := rfl
@[simp] theorem State.addGrant_fatalInfo (i : Slot) (o n : Nat) : (s.addGrant i o n).fatalInfo = s.fatalInfo := rfl
@[simp] theorem State.addGrant_irqMasked (i : Slot) (o n : Nat) : (s.addGrant i o n).irqMasked = s.irqMasked := rfl
@[simp] theorem State.addGrant_diagTrace (i : Slot) (o n : Nat) : (s.addGrant i o n).diagTrace = s.diagTrace := rfl
@[simp] theorem State.addGrant_tpTrace (i : Slot) (o n : Nat) : (s.addGrant i o n).tpTrace = s.tpTrace := rfl
@[simp] theorem State.addGrant_wire (i : Slot) (o n : Nat) : (s.addGrant i o n).wire = s.wire := rfl
@[simp] theorem State.addGrant_inFlight (i : Slot) (o n : Nat) : (s.addGrant i o n).inFlight = s.inFlight := rfl
@[simp] theorem State.addGrant_hw (i : Slot) (o n : Nat) : (s.addGrant i o n).hw = s.hw := rfl
@[simp] theorem State.addGrant_pending (i : Slot) (o n : Nat) : (s.addGrant i o n).pending = s.pending := rfl
@[simp] theorem State.addGrant_stack (i : Slot) (o n : Nat) : (s.addGrant i o n).stack = s.stack := rfl
@[simp] theorem State.addGrant_popped (i : Slot) (o n : Nat) : (s.addGrant i o n).popped = s.popped := rfl
@[simp] theorem State.addGrant_phase (i : Slot) (o n : Nat) : (s.addGrant i o n).phase = s.phase := rfl
@[simp] theorem State.addGrant_result (i : Slot) (o n : Nat) : (s.addGrant i o n).result = s.result := rfl
@[simp] theorem State.addGrant_calls (i : Slot) (o n : Nat) : (s.addGrant i o n).calls = s.calls := rfl
@[simp] theorem State.addGrant_arrivals (i : Slot) (o n : Nat) : (s.addGrant i o n).arrivals = s.arrivals := rfl
@[simp] theorem State.addGrant_readyIn (i : Slot) (o n : Nat) : (s.addGrant i o n).readyIn = s.readyIn := rfl
@[simp] theorem State.addGrant_extLenIn (i : Slot) (o n : Nat) : (s.addGrant i o n).extLenIn = s.extLenIn := rfl
@[simp] theorem State.addGrant_draws (i : Slot) (o n : Nat) : (s.addGrant i o n).draws = s.draws := rfl

@[simp] theorem State.pokeBatch_batch (i : Slot) (o : Nat) (b : Byte) : (s.pokeBatch i o b).batch = Memory.write .batch s.batch (batchAddr i o) b := rfl
@[simp] theorem State.pokeBatch_wlen (i : Slot) (o : Nat) (b : Byte) : (s.pokeBatch i o b).wlen = s.wlen := rfl
@[simp] theorem State.pokeBatch_ranges (i : Slot) (o : Nat) (b : Byte) : (s.pokeBatch i o b).ranges = s.ranges := rfl
@[simp] theorem State.pokeBatch_bbProduced (i : Slot) (o : Nat) (b : Byte) : (s.pokeBatch i o b).bbProduced = s.bbProduced := rfl
@[simp] theorem State.pokeBatch_bbConsumed (i : Slot) (o : Nat) (b : Byte) : (s.pokeBatch i o b).bbConsumed = s.bbConsumed := rfl
@[simp] theorem State.pokeBatch_txPending (i : Slot) (o : Nat) (b : Byte) : (s.pokeBatch i o b).txPending = s.txPending := rfl
@[simp] theorem State.pokeBatch_fq (i : Slot) (o : Nat) (b : Byte) : (s.pokeBatch i o b).fq = s.fq := rfl
@[simp] theorem State.pokeBatch_dlBuf (i : Slot) (o : Nat) (b : Byte) : (s.pokeBatch i o b).dlBuf = s.dlBuf := rfl
@[simp] theorem State.pokeBatch_dlLen (i : Slot) (o : Nat) (b : Byte) : (s.pokeBatch i o b).dlLen = s.dlLen := rfl
@[simp] theorem State.pokeBatch_dlRd (i : Slot) (o : Nat) (b : Byte) : (s.pokeBatch i o b).dlRd = s.dlRd := rfl
@[simp] theorem State.pokeBatch_uplinkCongested (i : Slot) (o : Nat) (b : Byte) : (s.pokeBatch i o b).uplinkCongested = s.uplinkCongested := rfl
@[simp] theorem State.pokeBatch_downlinkCongested (i : Slot) (o : Nat) (b : Byte) : (s.pokeBatch i o b).downlinkCongested = s.downlinkCongested := rfl
@[simp] theorem State.pokeBatch_halted (i : Slot) (o : Nat) (b : Byte) : (s.pokeBatch i o b).halted = s.halted := rfl
@[simp] theorem State.pokeBatch_fatalCode (i : Slot) (o : Nat) (b : Byte) : (s.pokeBatch i o b).fatalCode = s.fatalCode := rfl
@[simp] theorem State.pokeBatch_fatalInfo (i : Slot) (o : Nat) (b : Byte) : (s.pokeBatch i o b).fatalInfo = s.fatalInfo := rfl
@[simp] theorem State.pokeBatch_irqMasked (i : Slot) (o : Nat) (b : Byte) : (s.pokeBatch i o b).irqMasked = s.irqMasked := rfl
@[simp] theorem State.pokeBatch_diagTrace (i : Slot) (o : Nat) (b : Byte) : (s.pokeBatch i o b).diagTrace = s.diagTrace := rfl
@[simp] theorem State.pokeBatch_tpTrace (i : Slot) (o : Nat) (b : Byte) : (s.pokeBatch i o b).tpTrace = s.tpTrace := rfl
@[simp] theorem State.pokeBatch_wire (i : Slot) (o : Nat) (b : Byte) : (s.pokeBatch i o b).wire = s.wire := rfl
@[simp] theorem State.pokeBatch_inFlight (i : Slot) (o : Nat) (b : Byte) : (s.pokeBatch i o b).inFlight = s.inFlight := rfl
@[simp] theorem State.pokeBatch_hw (i : Slot) (o : Nat) (b : Byte) : (s.pokeBatch i o b).hw = s.hw := rfl
@[simp] theorem State.pokeBatch_pending (i : Slot) (o : Nat) (b : Byte) : (s.pokeBatch i o b).pending = s.pending := rfl
@[simp] theorem State.pokeBatch_stack (i : Slot) (o : Nat) (b : Byte) : (s.pokeBatch i o b).stack = s.stack := rfl
@[simp] theorem State.pokeBatch_grants (i : Slot) (o : Nat) (b : Byte) : (s.pokeBatch i o b).grants = s.grants := rfl
@[simp] theorem State.pokeBatch_popped (i : Slot) (o : Nat) (b : Byte) : (s.pokeBatch i o b).popped = s.popped := rfl
@[simp] theorem State.pokeBatch_phase (i : Slot) (o : Nat) (b : Byte) : (s.pokeBatch i o b).phase = s.phase := rfl
@[simp] theorem State.pokeBatch_result (i : Slot) (o : Nat) (b : Byte) : (s.pokeBatch i o b).result = s.result := rfl
@[simp] theorem State.pokeBatch_calls (i : Slot) (o : Nat) (b : Byte) : (s.pokeBatch i o b).calls = s.calls := rfl
@[simp] theorem State.pokeBatch_arrivals (i : Slot) (o : Nat) (b : Byte) : (s.pokeBatch i o b).arrivals = s.arrivals := rfl
@[simp] theorem State.pokeBatch_readyIn (i : Slot) (o : Nat) (b : Byte) : (s.pokeBatch i o b).readyIn = s.readyIn := rfl
@[simp] theorem State.pokeBatch_extLenIn (i : Slot) (o : Nat) (b : Byte) : (s.pokeBatch i o b).extLenIn = s.extLenIn := rfl
@[simp] theorem State.pokeBatch_draws (i : Slot) (o : Nat) (b : Byte) : (s.pokeBatch i o b).draws = s.draws := rfl

@[simp] theorem State.uplinkFlag_batch (b : Bool) : (s.uplinkFlag b).batch = s.batch := rfl
@[simp] theorem State.uplinkFlag_wlen (b : Bool) : (s.uplinkFlag b).wlen = s.wlen := rfl
@[simp] theorem State.uplinkFlag_ranges (b : Bool) : (s.uplinkFlag b).ranges = s.ranges := rfl
@[simp] theorem State.uplinkFlag_bbProduced (b : Bool) : (s.uplinkFlag b).bbProduced = s.bbProduced := rfl
@[simp] theorem State.uplinkFlag_bbConsumed (b : Bool) : (s.uplinkFlag b).bbConsumed = s.bbConsumed := rfl
@[simp] theorem State.uplinkFlag_txPending (b : Bool) : (s.uplinkFlag b).txPending = s.txPending := rfl
@[simp] theorem State.uplinkFlag_fq (b : Bool) : (s.uplinkFlag b).fq = s.fq := rfl
@[simp] theorem State.uplinkFlag_dlBuf (b : Bool) : (s.uplinkFlag b).dlBuf = s.dlBuf := rfl
@[simp] theorem State.uplinkFlag_dlLen (b : Bool) : (s.uplinkFlag b).dlLen = s.dlLen := rfl
@[simp] theorem State.uplinkFlag_dlRd (b : Bool) : (s.uplinkFlag b).dlRd = s.dlRd := rfl
@[simp] theorem State.uplinkFlag_uplinkCongested (b : Bool) : (s.uplinkFlag b).uplinkCongested = b := rfl
@[simp] theorem State.uplinkFlag_downlinkCongested (b : Bool) : (s.uplinkFlag b).downlinkCongested = s.downlinkCongested := rfl
@[simp] theorem State.uplinkFlag_halted (b : Bool) : (s.uplinkFlag b).halted = s.halted := rfl
@[simp] theorem State.uplinkFlag_fatalCode (b : Bool) : (s.uplinkFlag b).fatalCode = s.fatalCode := rfl
@[simp] theorem State.uplinkFlag_fatalInfo (b : Bool) : (s.uplinkFlag b).fatalInfo = s.fatalInfo := rfl
@[simp] theorem State.uplinkFlag_irqMasked (b : Bool) : (s.uplinkFlag b).irqMasked = s.irqMasked := rfl
@[simp] theorem State.uplinkFlag_diagTrace (b : Bool) : (s.uplinkFlag b).diagTrace = s.diagTrace := rfl
@[simp] theorem State.uplinkFlag_tpTrace (b : Bool) : (s.uplinkFlag b).tpTrace = s.tpTrace := rfl
@[simp] theorem State.uplinkFlag_wire (b : Bool) : (s.uplinkFlag b).wire = s.wire := rfl
@[simp] theorem State.uplinkFlag_inFlight (b : Bool) : (s.uplinkFlag b).inFlight = s.inFlight := rfl
@[simp] theorem State.uplinkFlag_hw (b : Bool) : (s.uplinkFlag b).hw = s.hw := rfl
@[simp] theorem State.uplinkFlag_pending (b : Bool) : (s.uplinkFlag b).pending = s.pending := rfl
@[simp] theorem State.uplinkFlag_stack (b : Bool) : (s.uplinkFlag b).stack = s.stack := rfl
@[simp] theorem State.uplinkFlag_grants (b : Bool) : (s.uplinkFlag b).grants = s.grants := rfl
@[simp] theorem State.uplinkFlag_popped (b : Bool) : (s.uplinkFlag b).popped = s.popped := rfl
@[simp] theorem State.uplinkFlag_phase (b : Bool) : (s.uplinkFlag b).phase = s.phase := rfl
@[simp] theorem State.uplinkFlag_result (b : Bool) : (s.uplinkFlag b).result = s.result := rfl
@[simp] theorem State.uplinkFlag_calls (b : Bool) : (s.uplinkFlag b).calls = s.calls := rfl
@[simp] theorem State.uplinkFlag_arrivals (b : Bool) : (s.uplinkFlag b).arrivals = s.arrivals := rfl
@[simp] theorem State.uplinkFlag_readyIn (b : Bool) : (s.uplinkFlag b).readyIn = s.readyIn := rfl
@[simp] theorem State.uplinkFlag_extLenIn (b : Bool) : (s.uplinkFlag b).extLenIn = s.extLenIn := rfl
@[simp] theorem State.uplinkFlag_draws (b : Bool) : (s.uplinkFlag b).draws = s.draws := rfl

@[simp] theorem State.downlinkFlag_batch (b : Bool) : (s.downlinkFlag b).batch = s.batch := rfl
@[simp] theorem State.downlinkFlag_wlen (b : Bool) : (s.downlinkFlag b).wlen = s.wlen := rfl
@[simp] theorem State.downlinkFlag_ranges (b : Bool) : (s.downlinkFlag b).ranges = s.ranges := rfl
@[simp] theorem State.downlinkFlag_bbProduced (b : Bool) : (s.downlinkFlag b).bbProduced = s.bbProduced := rfl
@[simp] theorem State.downlinkFlag_bbConsumed (b : Bool) : (s.downlinkFlag b).bbConsumed = s.bbConsumed := rfl
@[simp] theorem State.downlinkFlag_txPending (b : Bool) : (s.downlinkFlag b).txPending = s.txPending := rfl
@[simp] theorem State.downlinkFlag_fq (b : Bool) : (s.downlinkFlag b).fq = s.fq := rfl
@[simp] theorem State.downlinkFlag_dlBuf (b : Bool) : (s.downlinkFlag b).dlBuf = s.dlBuf := rfl
@[simp] theorem State.downlinkFlag_dlLen (b : Bool) : (s.downlinkFlag b).dlLen = s.dlLen := rfl
@[simp] theorem State.downlinkFlag_dlRd (b : Bool) : (s.downlinkFlag b).dlRd = s.dlRd := rfl
@[simp] theorem State.downlinkFlag_uplinkCongested (b : Bool) : (s.downlinkFlag b).uplinkCongested = s.uplinkCongested := rfl
@[simp] theorem State.downlinkFlag_downlinkCongested (b : Bool) : (s.downlinkFlag b).downlinkCongested = b := rfl
@[simp] theorem State.downlinkFlag_halted (b : Bool) : (s.downlinkFlag b).halted = s.halted := rfl
@[simp] theorem State.downlinkFlag_fatalCode (b : Bool) : (s.downlinkFlag b).fatalCode = s.fatalCode := rfl
@[simp] theorem State.downlinkFlag_fatalInfo (b : Bool) : (s.downlinkFlag b).fatalInfo = s.fatalInfo := rfl
@[simp] theorem State.downlinkFlag_irqMasked (b : Bool) : (s.downlinkFlag b).irqMasked = s.irqMasked := rfl
@[simp] theorem State.downlinkFlag_diagTrace (b : Bool) : (s.downlinkFlag b).diagTrace = s.diagTrace := rfl
@[simp] theorem State.downlinkFlag_tpTrace (b : Bool) : (s.downlinkFlag b).tpTrace = s.tpTrace := rfl
@[simp] theorem State.downlinkFlag_wire (b : Bool) : (s.downlinkFlag b).wire = s.wire := rfl
@[simp] theorem State.downlinkFlag_inFlight (b : Bool) : (s.downlinkFlag b).inFlight = s.inFlight := rfl
@[simp] theorem State.downlinkFlag_hw (b : Bool) : (s.downlinkFlag b).hw = s.hw := rfl
@[simp] theorem State.downlinkFlag_pending (b : Bool) : (s.downlinkFlag b).pending = s.pending := rfl
@[simp] theorem State.downlinkFlag_stack (b : Bool) : (s.downlinkFlag b).stack = s.stack := rfl
@[simp] theorem State.downlinkFlag_grants (b : Bool) : (s.downlinkFlag b).grants = s.grants := rfl
@[simp] theorem State.downlinkFlag_popped (b : Bool) : (s.downlinkFlag b).popped = s.popped := rfl
@[simp] theorem State.downlinkFlag_phase (b : Bool) : (s.downlinkFlag b).phase = s.phase := rfl
@[simp] theorem State.downlinkFlag_result (b : Bool) : (s.downlinkFlag b).result = s.result := rfl
@[simp] theorem State.downlinkFlag_calls (b : Bool) : (s.downlinkFlag b).calls = s.calls := rfl
@[simp] theorem State.downlinkFlag_arrivals (b : Bool) : (s.downlinkFlag b).arrivals = s.arrivals := rfl
@[simp] theorem State.downlinkFlag_readyIn (b : Bool) : (s.downlinkFlag b).readyIn = s.readyIn := rfl
@[simp] theorem State.downlinkFlag_extLenIn (b : Bool) : (s.downlinkFlag b).extLenIn = s.extLenIn := rfl
@[simp] theorem State.downlinkFlag_draws (b : Bool) : (s.downlinkFlag b).draws = s.draws := rfl

@[simp] theorem State.tpSend_batch (i : Slot) (n : Nat) : (s.tpSend i n).batch = s.batch := rfl
@[simp] theorem State.tpSend_wlen (i : Slot) (n : Nat) : (s.tpSend i n).wlen = s.wlen := rfl
@[simp] theorem State.tpSend_ranges (i : Slot) (n : Nat) : (s.tpSend i n).ranges = s.ranges := rfl
@[simp] theorem State.tpSend_bbProduced (i : Slot) (n : Nat) : (s.tpSend i n).bbProduced = s.bbProduced := rfl
@[simp] theorem State.tpSend_bbConsumed (i : Slot) (n : Nat) : (s.tpSend i n).bbConsumed = s.bbConsumed := rfl
@[simp] theorem State.tpSend_txPending (i : Slot) (n : Nat) : (s.tpSend i n).txPending = s.txPending := rfl
@[simp] theorem State.tpSend_fq (i : Slot) (n : Nat) : (s.tpSend i n).fq = s.fq := rfl
@[simp] theorem State.tpSend_dlBuf (i : Slot) (n : Nat) : (s.tpSend i n).dlBuf = s.dlBuf := rfl
@[simp] theorem State.tpSend_dlLen (i : Slot) (n : Nat) : (s.tpSend i n).dlLen = s.dlLen := rfl
@[simp] theorem State.tpSend_dlRd (i : Slot) (n : Nat) : (s.tpSend i n).dlRd = s.dlRd := rfl
@[simp] theorem State.tpSend_uplinkCongested (i : Slot) (n : Nat) : (s.tpSend i n).uplinkCongested = s.uplinkCongested := rfl
@[simp] theorem State.tpSend_downlinkCongested (i : Slot) (n : Nat) : (s.tpSend i n).downlinkCongested = s.downlinkCongested := rfl
@[simp] theorem State.tpSend_halted (i : Slot) (n : Nat) : (s.tpSend i n).halted = s.halted := rfl
@[simp] theorem State.tpSend_fatalCode (i : Slot) (n : Nat) : (s.tpSend i n).fatalCode = s.fatalCode := rfl
@[simp] theorem State.tpSend_fatalInfo (i : Slot) (n : Nat) : (s.tpSend i n).fatalInfo = s.fatalInfo := rfl
@[simp] theorem State.tpSend_irqMasked (i : Slot) (n : Nat) : (s.tpSend i n).irqMasked = s.irqMasked := rfl
@[simp] theorem State.tpSend_diagTrace (i : Slot) (n : Nat) : (s.tpSend i n).diagTrace = s.diagTrace := rfl
@[simp] theorem State.tpSend_tpTrace (i : Slot) (n : Nat) : (s.tpSend i n).tpTrace = s.tpTrace ++ [(i, n)] := rfl
@[simp] theorem State.tpSend_wire (i : Slot) (n : Nat) : (s.tpSend i n).wire = s.wire := rfl
@[simp] theorem State.tpSend_inFlight (i : Slot) (n : Nat) : (s.tpSend i n).inFlight = some ⟨i, n, false⟩ := rfl
@[simp] theorem State.tpSend_hw (i : Slot) (n : Nat) : (s.tpSend i n).hw = s.hw := rfl
@[simp] theorem State.tpSend_pending (i : Slot) (n : Nat) : (s.tpSend i n).pending = s.pending := rfl
@[simp] theorem State.tpSend_stack (i : Slot) (n : Nat) : (s.tpSend i n).stack = s.stack := rfl
@[simp] theorem State.tpSend_grants (i : Slot) (n : Nat) : (s.tpSend i n).grants = s.grants := rfl
@[simp] theorem State.tpSend_popped (i : Slot) (n : Nat) : (s.tpSend i n).popped = s.popped := rfl
@[simp] theorem State.tpSend_phase (i : Slot) (n : Nat) : (s.tpSend i n).phase = s.phase := rfl
@[simp] theorem State.tpSend_result (i : Slot) (n : Nat) : (s.tpSend i n).result = s.result := rfl
@[simp] theorem State.tpSend_calls (i : Slot) (n : Nat) : (s.tpSend i n).calls = s.calls := rfl
@[simp] theorem State.tpSend_arrivals (i : Slot) (n : Nat) : (s.tpSend i n).arrivals = s.arrivals := rfl
@[simp] theorem State.tpSend_readyIn (i : Slot) (n : Nat) : (s.tpSend i n).readyIn = s.readyIn := rfl
@[simp] theorem State.tpSend_extLenIn (i : Slot) (n : Nat) : (s.tpSend i n).extLenIn = s.extLenIn := rfl
@[simp] theorem State.tpSend_draws (i : Slot) (n : Nat) : (s.tpSend i n).draws = s.draws := rfl

@[simp] theorem State.rxAck_batch (k : Chan) : (s.rxAck k).batch = s.batch := rfl
@[simp] theorem State.rxAck_wlen (k : Chan) : (s.rxAck k).wlen = s.wlen := rfl
@[simp] theorem State.rxAck_ranges (k : Chan) : (s.rxAck k).ranges = s.ranges := rfl
@[simp] theorem State.rxAck_bbProduced (k : Chan) : (s.rxAck k).bbProduced = s.bbProduced := rfl
@[simp] theorem State.rxAck_bbConsumed (k : Chan) : (s.rxAck k).bbConsumed = s.bbConsumed := rfl
@[simp] theorem State.rxAck_txPending (k : Chan) : (s.rxAck k).txPending = s.txPending := rfl
@[simp] theorem State.rxAck_fq (k : Chan) : (s.rxAck k).fq = s.fq := rfl
@[simp] theorem State.rxAck_dlBuf (k : Chan) : (s.rxAck k).dlBuf = s.dlBuf := rfl
@[simp] theorem State.rxAck_dlLen (k : Chan) : (s.rxAck k).dlLen = s.dlLen := rfl
@[simp] theorem State.rxAck_dlRd (k : Chan) : (s.rxAck k).dlRd = s.dlRd := rfl
@[simp] theorem State.rxAck_uplinkCongested (k : Chan) : (s.rxAck k).uplinkCongested = s.uplinkCongested := rfl
@[simp] theorem State.rxAck_downlinkCongested (k : Chan) : (s.rxAck k).downlinkCongested = s.downlinkCongested := rfl
@[simp] theorem State.rxAck_halted (k : Chan) : (s.rxAck k).halted = s.halted := rfl
@[simp] theorem State.rxAck_fatalCode (k : Chan) : (s.rxAck k).fatalCode = s.fatalCode := rfl
@[simp] theorem State.rxAck_fatalInfo (k : Chan) : (s.rxAck k).fatalInfo = s.fatalInfo := rfl
@[simp] theorem State.rxAck_irqMasked (k : Chan) : (s.rxAck k).irqMasked = s.irqMasked := rfl
@[simp] theorem State.rxAck_diagTrace (k : Chan) : (s.rxAck k).diagTrace = s.diagTrace := rfl
@[simp] theorem State.rxAck_tpTrace (k : Chan) : (s.rxAck k).tpTrace = s.tpTrace := rfl
@[simp] theorem State.rxAck_wire (k : Chan) : (s.rxAck k).wire = s.wire := rfl
@[simp] theorem State.rxAck_inFlight (k : Chan) : (s.rxAck k).inFlight = s.inFlight := rfl
@[simp] theorem State.rxAck_pending (k : Chan) :
    (s.rxAck k).pending = if (s.hw.get k).rxFifo.tail.isEmpty then s.pending.filter fun r => decide (r ≠ IrqReq.canRx k)
      else s.pending := rfl
@[simp] theorem State.rxAck_stack (k : Chan) : (s.rxAck k).stack = s.stack := rfl
@[simp] theorem State.rxAck_grants (k : Chan) : (s.rxAck k).grants = s.grants := rfl
@[simp] theorem State.rxAck_popped (k : Chan) : (s.rxAck k).popped = s.popped := rfl
@[simp] theorem State.rxAck_phase (k : Chan) : (s.rxAck k).phase = s.phase := rfl
@[simp] theorem State.rxAck_result (k : Chan) : (s.rxAck k).result = s.result := rfl
@[simp] theorem State.rxAck_calls (k : Chan) : (s.rxAck k).calls = s.calls := rfl
@[simp] theorem State.rxAck_arrivals (k : Chan) : (s.rxAck k).arrivals = s.arrivals := rfl
@[simp] theorem State.rxAck_readyIn (k : Chan) : (s.rxAck k).readyIn = s.readyIn := rfl
@[simp] theorem State.rxAck_extLenIn (k : Chan) : (s.rxAck k).extLenIn = s.extLenIn := rfl
@[simp] theorem State.rxAck_draws (k : Chan) : (s.rxAck k).draws = s.draws := rfl

@[simp] theorem State.putEntry_batch (k : Chan) (v : Cursor) (e : Entry) : (s.putEntry k v e).batch = s.batch := rfl
@[simp] theorem State.putEntry_wlen (k : Chan) (v : Cursor) (e : Entry) : (s.putEntry k v e).wlen = s.wlen := rfl
@[simp] theorem State.putEntry_ranges (k : Chan) (v : Cursor) (e : Entry) : (s.putEntry k v e).ranges = s.ranges := rfl
@[simp] theorem State.putEntry_bbProduced (k : Chan) (v : Cursor) (e : Entry) : (s.putEntry k v e).bbProduced = s.bbProduced := rfl
@[simp] theorem State.putEntry_bbConsumed (k : Chan) (v : Cursor) (e : Entry) : (s.putEntry k v e).bbConsumed = s.bbConsumed := rfl
@[simp] theorem State.putEntry_txPending (k : Chan) (v : Cursor) (e : Entry) : (s.putEntry k v e).txPending = s.txPending := rfl
@[simp] theorem State.putEntry_dlBuf (k : Chan) (v : Cursor) (e : Entry) : (s.putEntry k v e).dlBuf = s.dlBuf := rfl
@[simp] theorem State.putEntry_dlLen (k : Chan) (v : Cursor) (e : Entry) : (s.putEntry k v e).dlLen = s.dlLen := rfl
@[simp] theorem State.putEntry_dlRd (k : Chan) (v : Cursor) (e : Entry) : (s.putEntry k v e).dlRd = s.dlRd := rfl
@[simp] theorem State.putEntry_uplinkCongested (k : Chan) (v : Cursor) (e : Entry) : (s.putEntry k v e).uplinkCongested = s.uplinkCongested := rfl
@[simp] theorem State.putEntry_downlinkCongested (k : Chan) (v : Cursor) (e : Entry) : (s.putEntry k v e).downlinkCongested = s.downlinkCongested := rfl
@[simp] theorem State.putEntry_halted (k : Chan) (v : Cursor) (e : Entry) : (s.putEntry k v e).halted = s.halted := rfl
@[simp] theorem State.putEntry_fatalCode (k : Chan) (v : Cursor) (e : Entry) : (s.putEntry k v e).fatalCode = s.fatalCode := rfl
@[simp] theorem State.putEntry_fatalInfo (k : Chan) (v : Cursor) (e : Entry) : (s.putEntry k v e).fatalInfo = s.fatalInfo := rfl
@[simp] theorem State.putEntry_irqMasked (k : Chan) (v : Cursor) (e : Entry) : (s.putEntry k v e).irqMasked = s.irqMasked := rfl
@[simp] theorem State.putEntry_diagTrace (k : Chan) (v : Cursor) (e : Entry) : (s.putEntry k v e).diagTrace = s.diagTrace := rfl
@[simp] theorem State.putEntry_tpTrace (k : Chan) (v : Cursor) (e : Entry) : (s.putEntry k v e).tpTrace = s.tpTrace := rfl
@[simp] theorem State.putEntry_wire (k : Chan) (v : Cursor) (e : Entry) : (s.putEntry k v e).wire = s.wire := rfl
@[simp] theorem State.putEntry_inFlight (k : Chan) (v : Cursor) (e : Entry) : (s.putEntry k v e).inFlight = s.inFlight := rfl
@[simp] theorem State.putEntry_hw (k : Chan) (v : Cursor) (e : Entry) : (s.putEntry k v e).hw = s.hw := rfl
@[simp] theorem State.putEntry_pending (k : Chan) (v : Cursor) (e : Entry) : (s.putEntry k v e).pending = s.pending := rfl
@[simp] theorem State.putEntry_stack (k : Chan) (v : Cursor) (e : Entry) : (s.putEntry k v e).stack = s.stack := rfl
@[simp] theorem State.putEntry_grants (k : Chan) (v : Cursor) (e : Entry) : (s.putEntry k v e).grants = s.grants := rfl
@[simp] theorem State.putEntry_popped (k : Chan) (v : Cursor) (e : Entry) : (s.putEntry k v e).popped = s.popped := rfl
@[simp] theorem State.putEntry_phase (k : Chan) (v : Cursor) (e : Entry) : (s.putEntry k v e).phase = s.phase := rfl
@[simp] theorem State.putEntry_result (k : Chan) (v : Cursor) (e : Entry) : (s.putEntry k v e).result = s.result := rfl
@[simp] theorem State.putEntry_calls (k : Chan) (v : Cursor) (e : Entry) : (s.putEntry k v e).calls = s.calls := rfl
@[simp] theorem State.putEntry_arrivals (k : Chan) (v : Cursor) (e : Entry) : (s.putEntry k v e).arrivals = s.arrivals := rfl
@[simp] theorem State.putEntry_readyIn (k : Chan) (v : Cursor) (e : Entry) : (s.putEntry k v e).readyIn = s.readyIn := rfl
@[simp] theorem State.putEntry_extLenIn (k : Chan) (v : Cursor) (e : Entry) : (s.putEntry k v e).extLenIn = s.extLenIn := rfl
@[simp] theorem State.putEntry_draws (k : Chan) (v : Cursor) (e : Entry) : (s.putEntry k v e).draws = s.draws := rfl

@[simp] theorem State.txWrite_batch (k : Chan) (i : Nat) (e : TxElement) : (s.txWrite k i e).batch = s.batch := rfl
@[simp] theorem State.txWrite_wlen (k : Chan) (i : Nat) (e : TxElement) : (s.txWrite k i e).wlen = s.wlen := rfl
@[simp] theorem State.txWrite_ranges (k : Chan) (i : Nat) (e : TxElement) : (s.txWrite k i e).ranges = s.ranges := rfl
@[simp] theorem State.txWrite_bbProduced (k : Chan) (i : Nat) (e : TxElement) : (s.txWrite k i e).bbProduced = s.bbProduced := rfl
@[simp] theorem State.txWrite_bbConsumed (k : Chan) (i : Nat) (e : TxElement) : (s.txWrite k i e).bbConsumed = s.bbConsumed := rfl
@[simp] theorem State.txWrite_txPending (k : Chan) (i : Nat) (e : TxElement) : (s.txWrite k i e).txPending = s.txPending := rfl
@[simp] theorem State.txWrite_fq (k : Chan) (i : Nat) (e : TxElement) : (s.txWrite k i e).fq = s.fq := rfl
@[simp] theorem State.txWrite_dlBuf (k : Chan) (i : Nat) (e : TxElement) : (s.txWrite k i e).dlBuf = s.dlBuf := rfl
@[simp] theorem State.txWrite_dlLen (k : Chan) (i : Nat) (e : TxElement) : (s.txWrite k i e).dlLen = s.dlLen := rfl
@[simp] theorem State.txWrite_dlRd (k : Chan) (i : Nat) (e : TxElement) : (s.txWrite k i e).dlRd = s.dlRd := rfl
@[simp] theorem State.txWrite_uplinkCongested (k : Chan) (i : Nat) (e : TxElement) : (s.txWrite k i e).uplinkCongested = s.uplinkCongested := rfl
@[simp] theorem State.txWrite_downlinkCongested (k : Chan) (i : Nat) (e : TxElement) : (s.txWrite k i e).downlinkCongested = s.downlinkCongested := rfl
@[simp] theorem State.txWrite_halted (k : Chan) (i : Nat) (e : TxElement) : (s.txWrite k i e).halted = s.halted := rfl
@[simp] theorem State.txWrite_fatalCode (k : Chan) (i : Nat) (e : TxElement) : (s.txWrite k i e).fatalCode = s.fatalCode := rfl
@[simp] theorem State.txWrite_fatalInfo (k : Chan) (i : Nat) (e : TxElement) : (s.txWrite k i e).fatalInfo = s.fatalInfo := rfl
@[simp] theorem State.txWrite_irqMasked (k : Chan) (i : Nat) (e : TxElement) : (s.txWrite k i e).irqMasked = s.irqMasked := rfl
@[simp] theorem State.txWrite_diagTrace (k : Chan) (i : Nat) (e : TxElement) : (s.txWrite k i e).diagTrace = s.diagTrace := rfl
@[simp] theorem State.txWrite_tpTrace (k : Chan) (i : Nat) (e : TxElement) : (s.txWrite k i e).tpTrace = s.tpTrace := rfl
@[simp] theorem State.txWrite_wire (k : Chan) (i : Nat) (e : TxElement) : (s.txWrite k i e).wire = s.wire := rfl
@[simp] theorem State.txWrite_inFlight (k : Chan) (i : Nat) (e : TxElement) : (s.txWrite k i e).inFlight = s.inFlight := rfl
@[simp] theorem State.txWrite_pending (k : Chan) (i : Nat) (e : TxElement) : (s.txWrite k i e).pending = s.pending := rfl
@[simp] theorem State.txWrite_stack (k : Chan) (i : Nat) (e : TxElement) : (s.txWrite k i e).stack = s.stack := rfl
@[simp] theorem State.txWrite_grants (k : Chan) (i : Nat) (e : TxElement) : (s.txWrite k i e).grants = s.grants := rfl
@[simp] theorem State.txWrite_popped (k : Chan) (i : Nat) (e : TxElement) : (s.txWrite k i e).popped = s.popped := rfl
@[simp] theorem State.txWrite_phase (k : Chan) (i : Nat) (e : TxElement) : (s.txWrite k i e).phase = s.phase := rfl
@[simp] theorem State.txWrite_result (k : Chan) (i : Nat) (e : TxElement) : (s.txWrite k i e).result = s.result := rfl
@[simp] theorem State.txWrite_calls (k : Chan) (i : Nat) (e : TxElement) : (s.txWrite k i e).calls = s.calls := rfl
@[simp] theorem State.txWrite_arrivals (k : Chan) (i : Nat) (e : TxElement) : (s.txWrite k i e).arrivals = s.arrivals := rfl
@[simp] theorem State.txWrite_readyIn (k : Chan) (i : Nat) (e : TxElement) : (s.txWrite k i e).readyIn = s.readyIn := rfl
@[simp] theorem State.txWrite_extLenIn (k : Chan) (i : Nat) (e : TxElement) : (s.txWrite k i e).extLenIn = s.extLenIn := rfl
@[simp] theorem State.txWrite_draws (k : Chan) (i : Nat) (e : TxElement) : (s.txWrite k i e).draws = s.draws := rfl

@[simp] theorem State.txRequest_batch (k : Chan) (i : Nat) : (s.txRequest k i).batch = s.batch := rfl
@[simp] theorem State.txRequest_wlen (k : Chan) (i : Nat) : (s.txRequest k i).wlen = s.wlen := rfl
@[simp] theorem State.txRequest_ranges (k : Chan) (i : Nat) : (s.txRequest k i).ranges = s.ranges := rfl
@[simp] theorem State.txRequest_bbProduced (k : Chan) (i : Nat) : (s.txRequest k i).bbProduced = s.bbProduced := rfl
@[simp] theorem State.txRequest_bbConsumed (k : Chan) (i : Nat) : (s.txRequest k i).bbConsumed = s.bbConsumed := rfl
@[simp] theorem State.txRequest_txPending (k : Chan) (i : Nat) : (s.txRequest k i).txPending = s.txPending := rfl
@[simp] theorem State.txRequest_fq (k : Chan) (i : Nat) : (s.txRequest k i).fq = s.fq := rfl
@[simp] theorem State.txRequest_dlBuf (k : Chan) (i : Nat) : (s.txRequest k i).dlBuf = s.dlBuf := rfl
@[simp] theorem State.txRequest_dlLen (k : Chan) (i : Nat) : (s.txRequest k i).dlLen = s.dlLen := rfl
@[simp] theorem State.txRequest_dlRd (k : Chan) (i : Nat) : (s.txRequest k i).dlRd = s.dlRd := rfl
@[simp] theorem State.txRequest_uplinkCongested (k : Chan) (i : Nat) : (s.txRequest k i).uplinkCongested = s.uplinkCongested := rfl
@[simp] theorem State.txRequest_downlinkCongested (k : Chan) (i : Nat) : (s.txRequest k i).downlinkCongested = s.downlinkCongested := rfl
@[simp] theorem State.txRequest_halted (k : Chan) (i : Nat) : (s.txRequest k i).halted = s.halted := rfl
@[simp] theorem State.txRequest_fatalCode (k : Chan) (i : Nat) : (s.txRequest k i).fatalCode = s.fatalCode := rfl
@[simp] theorem State.txRequest_fatalInfo (k : Chan) (i : Nat) : (s.txRequest k i).fatalInfo = s.fatalInfo := rfl
@[simp] theorem State.txRequest_irqMasked (k : Chan) (i : Nat) : (s.txRequest k i).irqMasked = s.irqMasked := rfl
@[simp] theorem State.txRequest_diagTrace (k : Chan) (i : Nat) : (s.txRequest k i).diagTrace = s.diagTrace := rfl
@[simp] theorem State.txRequest_tpTrace (k : Chan) (i : Nat) : (s.txRequest k i).tpTrace = s.tpTrace := rfl
@[simp] theorem State.txRequest_wire (k : Chan) (i : Nat) : (s.txRequest k i).wire = s.wire := rfl
@[simp] theorem State.txRequest_inFlight (k : Chan) (i : Nat) : (s.txRequest k i).inFlight = s.inFlight := rfl
@[simp] theorem State.txRequest_pending (k : Chan) (i : Nat) : (s.txRequest k i).pending = s.pending := rfl
@[simp] theorem State.txRequest_stack (k : Chan) (i : Nat) : (s.txRequest k i).stack = s.stack := rfl
@[simp] theorem State.txRequest_grants (k : Chan) (i : Nat) : (s.txRequest k i).grants = s.grants := rfl
@[simp] theorem State.txRequest_popped (k : Chan) (i : Nat) : (s.txRequest k i).popped = s.popped := rfl
@[simp] theorem State.txRequest_phase (k : Chan) (i : Nat) : (s.txRequest k i).phase = s.phase := rfl
@[simp] theorem State.txRequest_result (k : Chan) (i : Nat) : (s.txRequest k i).result = s.result := rfl
@[simp] theorem State.txRequest_calls (k : Chan) (i : Nat) : (s.txRequest k i).calls = s.calls := rfl
@[simp] theorem State.txRequest_arrivals (k : Chan) (i : Nat) : (s.txRequest k i).arrivals = s.arrivals := rfl
@[simp] theorem State.txRequest_readyIn (k : Chan) (i : Nat) : (s.txRequest k i).readyIn = s.readyIn := rfl
@[simp] theorem State.txRequest_extLenIn (k : Chan) (i : Nat) : (s.txRequest k i).extLenIn = s.extLenIn := rfl
@[simp] theorem State.txRequest_draws (k : Chan) (i : Nat) : (s.txRequest k i).draws = s.draws := rfl

theorem State.traceHw_hw (k : Chan) (e : HwEvent) :
    (s.traceHw k e).hw = s.hw.set k { s.hw.get k with trace := (s.hw.get k).trace ++ [e] } := rfl

theorem State.putEntry_fq (k : Chan) (v : Cursor) (e : Entry) :
    (s.putEntry k v e).fq =
      s.fq.set k { s.fq.get k with slots := (s.fq.get k).slots.set (entryOf v) (some e) } := rfl

end fields

/-- One element of a vector after an update of one. -/
theorem getElem_set_fin {α : Type} {m : Nat} (v : Vector α m) (i j : Fin m) (x : α) :
    (v.set i x)[j] = if i = j then x else v[j] := by
  simp only [Fin.getElem_fin, Vector.getElem_set, Fin.ext_iff]

theorem State.extend_getElem (s : State) (i j : Slot) (o n : Nat) :
    (s.extend i o n).wlen[j] = if i = j then BitVec.ofNat Config.wlenBits (o + n) else s.wlen[j] :=
  getElem_set_fin _ _ _ _

theorem State.extend_ranges_getElem (s : State) (i j : Slot) (o n : Nat) :
    (s.extend i o n).ranges[j] = if i = j then s.ranges[i] ++ [(o, n)] else s.ranges[j] :=
  getElem_set_fin _ _ _ _

theorem State.emptyBatch_getElem (s : State) (i j : Slot) :
    (s.emptyBatch i).wlen[j] = if i = j then 1 else s.wlen[j] := getElem_set_fin _ _ _ _

theorem State.emptyBatch_ranges_getElem (s : State) (i j : Slot) :
    (s.emptyBatch i).ranges[j] = if i = j then [] else s.ranges[j] := getElem_set_fin _ _ _ _

/-! `disturb`, `completeFlight`: one field each. -/

@[simp] theorem State.disturb_batch (s : State) (i : Slot) : (s.disturb i).batch = s.batch := by
  unfold State.disturb; split <;> [split <;> rfl; rfl]
@[simp] theorem State.disturb_wlen (s : State) (i : Slot) : (s.disturb i).wlen = s.wlen := by
  unfold State.disturb; split <;> [split <;> rfl; rfl]
@[simp] theorem State.disturb_ranges (s : State) (i : Slot) : (s.disturb i).ranges = s.ranges := by
  unfold State.disturb; split <;> [split <;> rfl; rfl]
@[simp] theorem State.disturb_bbProduced (s : State) (i : Slot) : (s.disturb i).bbProduced = s.bbProduced := by
  unfold State.disturb; split <;> [split <;> rfl; rfl]
@[simp] theorem State.disturb_bbConsumed (s : State) (i : Slot) : (s.disturb i).bbConsumed = s.bbConsumed := by
  unfold State.disturb; split <;> [split <;> rfl; rfl]
@[simp] theorem State.disturb_txPending (s : State) (i : Slot) : (s.disturb i).txPending = s.txPending := by
  unfold State.disturb; split <;> [split <;> rfl; rfl]
@[simp] theorem State.disturb_fq (s : State) (i : Slot) : (s.disturb i).fq = s.fq := by
  unfold State.disturb; split <;> [split <;> rfl; rfl]
@[simp] theorem State.disturb_dlBuf (s : State) (i : Slot) : (s.disturb i).dlBuf = s.dlBuf := by
  unfold State.disturb; split <;> [split <;> rfl; rfl]
@[simp] theorem State.disturb_dlLen (s : State) (i : Slot) : (s.disturb i).dlLen = s.dlLen := by
  unfold State.disturb; split <;> [split <;> rfl; rfl]
@[simp] theorem State.disturb_dlRd (s : State) (i : Slot) : (s.disturb i).dlRd = s.dlRd := by
  unfold State.disturb; split <;> [split <;> rfl; rfl]
@[simp] theorem State.disturb_uplinkCongested (s : State) (i : Slot) : (s.disturb i).uplinkCongested = s.uplinkCongested := by
  unfold State.disturb; split <;> [split <;> rfl; rfl]
@[simp] theorem State.disturb_downlinkCongested (s : State) (i : Slot) : (s.disturb i).downlinkCongested = s.downlinkCongested := by
  unfold State.disturb; split <;> [split <;> rfl; rfl]
@[simp] theorem State.disturb_halted (s : State) (i : Slot) : (s.disturb i).halted = s.halted := by
  unfold State.disturb; split <;> [split <;> rfl; rfl]
@[simp] theorem State.disturb_fatalCode (s : State) (i : Slot) : (s.disturb i).fatalCode = s.fatalCode := by
  unfold State.disturb; split <;> [split <;> rfl; rfl]
@[simp] theorem State.disturb_fatalInfo (s : State) (i : Slot) : (s.disturb i).fatalInfo = s.fatalInfo := by
  unfold State.disturb; split <;> [split <;> rfl; rfl]
@[simp] theorem State.disturb_irqMasked (s : State) (i : Slot) : (s.disturb i).irqMasked = s.irqMasked := by
  unfold State.disturb; split <;> [split <;> rfl; rfl]
@[simp] theorem State.disturb_diagTrace (s : State) (i : Slot) : (s.disturb i).diagTrace = s.diagTrace := by
  unfold State.disturb; split <;> [split <;> rfl; rfl]
@[simp] theorem State.disturb_tpTrace (s : State) (i : Slot) : (s.disturb i).tpTrace = s.tpTrace := by
  unfold State.disturb; split <;> [split <;> rfl; rfl]
@[simp] theorem State.disturb_wire (s : State) (i : Slot) : (s.disturb i).wire = s.wire := by
  unfold State.disturb; split <;> [split <;> rfl; rfl]
@[simp] theorem State.disturb_hw (s : State) (i : Slot) : (s.disturb i).hw = s.hw := by
  unfold State.disturb; split <;> [split <;> rfl; rfl]
@[simp] theorem State.disturb_pending (s : State) (i : Slot) : (s.disturb i).pending = s.pending := by
  unfold State.disturb; split <;> [split <;> rfl; rfl]
@[simp] theorem State.disturb_stack (s : State) (i : Slot) : (s.disturb i).stack = s.stack := by
  unfold State.disturb; split <;> [split <;> rfl; rfl]
@[simp] theorem State.disturb_grants (s : State) (i : Slot) : (s.disturb i).grants = s.grants := by
  unfold State.disturb; split <;> [split <;> rfl; rfl]
@[simp] theorem State.disturb_popped (s : State) (i : Slot) : (s.disturb i).popped = s.popped := by
  unfold State.disturb; split <;> [split <;> rfl; rfl]
@[simp] theorem State.disturb_phase (s : State) (i : Slot) : (s.disturb i).phase = s.phase := by
  unfold State.disturb; split <;> [split <;> rfl; rfl]
@[simp] theorem State.disturb_result (s : State) (i : Slot) : (s.disturb i).result = s.result := by
  unfold State.disturb; split <;> [split <;> rfl; rfl]
@[simp] theorem State.disturb_calls (s : State) (i : Slot) : (s.disturb i).calls = s.calls := by
  unfold State.disturb; split <;> [split <;> rfl; rfl]
@[simp] theorem State.disturb_arrivals (s : State) (i : Slot) : (s.disturb i).arrivals = s.arrivals := by
  unfold State.disturb; split <;> [split <;> rfl; rfl]
@[simp] theorem State.disturb_readyIn (s : State) (i : Slot) : (s.disturb i).readyIn = s.readyIn := by
  unfold State.disturb; split <;> [split <;> rfl; rfl]
@[simp] theorem State.disturb_extLenIn (s : State) (i : Slot) : (s.disturb i).extLenIn = s.extLenIn := by
  unfold State.disturb; split <;> [split <;> rfl; rfl]
@[simp] theorem State.disturb_draws (s : State) (i : Slot) : (s.disturb i).draws = s.draws := by
  unfold State.disturb; split <;> [split <;> rfl; rfl]

@[simp] theorem State.completeFlight_batch (s : State) : s.completeFlight.batch = s.batch := by
  unfold State.completeFlight; split <;> rfl
@[simp] theorem State.completeFlight_wlen (s : State) : s.completeFlight.wlen = s.wlen := by
  unfold State.completeFlight; split <;> rfl
@[simp] theorem State.completeFlight_ranges (s : State) : s.completeFlight.ranges = s.ranges := by
  unfold State.completeFlight; split <;> rfl
@[simp] theorem State.completeFlight_bbProduced (s : State) : s.completeFlight.bbProduced = s.bbProduced := by
  unfold State.completeFlight; split <;> rfl
@[simp] theorem State.completeFlight_bbConsumed (s : State) : s.completeFlight.bbConsumed = s.bbConsumed := by
  unfold State.completeFlight; split <;> rfl
@[simp] theorem State.completeFlight_txPending (s : State) : s.completeFlight.txPending = s.txPending := by
  unfold State.completeFlight; split <;> rfl
@[simp] theorem State.completeFlight_fq (s : State) : s.completeFlight.fq = s.fq := by
  unfold State.completeFlight; split <;> rfl
@[simp] theorem State.completeFlight_dlBuf (s : State) : s.completeFlight.dlBuf = s.dlBuf := by
  unfold State.completeFlight; split <;> rfl
@[simp] theorem State.completeFlight_dlLen (s : State) : s.completeFlight.dlLen = s.dlLen := by
  unfold State.completeFlight; split <;> rfl
@[simp] theorem State.completeFlight_dlRd (s : State) : s.completeFlight.dlRd = s.dlRd := by
  unfold State.completeFlight; split <;> rfl
@[simp] theorem State.completeFlight_uplinkCongested (s : State) : s.completeFlight.uplinkCongested = s.uplinkCongested := by
  unfold State.completeFlight; split <;> rfl
@[simp] theorem State.completeFlight_downlinkCongested (s : State) : s.completeFlight.downlinkCongested = s.downlinkCongested := by
  unfold State.completeFlight; split <;> rfl
@[simp] theorem State.completeFlight_halted (s : State) : s.completeFlight.halted = s.halted := by
  unfold State.completeFlight; split <;> rfl
@[simp] theorem State.completeFlight_fatalCode (s : State) : s.completeFlight.fatalCode = s.fatalCode := by
  unfold State.completeFlight; split <;> rfl
@[simp] theorem State.completeFlight_fatalInfo (s : State) : s.completeFlight.fatalInfo = s.fatalInfo := by
  unfold State.completeFlight; split <;> rfl
@[simp] theorem State.completeFlight_irqMasked (s : State) : s.completeFlight.irqMasked = s.irqMasked := by
  unfold State.completeFlight; split <;> rfl
@[simp] theorem State.completeFlight_diagTrace (s : State) : s.completeFlight.diagTrace = s.diagTrace := by
  unfold State.completeFlight; split <;> rfl
@[simp] theorem State.completeFlight_tpTrace (s : State) : s.completeFlight.tpTrace = s.tpTrace := by
  unfold State.completeFlight; split <;> rfl
@[simp] theorem State.completeFlight_hw (s : State) : s.completeFlight.hw = s.hw := by
  unfold State.completeFlight; split <;> rfl
@[simp] theorem State.completeFlight_pending (s : State) : s.completeFlight.pending = s.pending := by
  unfold State.completeFlight; split <;> rfl
@[simp] theorem State.completeFlight_stack (s : State) : s.completeFlight.stack = s.stack := by
  unfold State.completeFlight; split <;> rfl
@[simp] theorem State.completeFlight_grants (s : State) : s.completeFlight.grants = s.grants := by
  unfold State.completeFlight; split <;> rfl
@[simp] theorem State.completeFlight_popped (s : State) : s.completeFlight.popped = s.popped := by
  unfold State.completeFlight; split <;> rfl
@[simp] theorem State.completeFlight_phase (s : State) : s.completeFlight.phase = s.phase := by
  unfold State.completeFlight; split <;> rfl
@[simp] theorem State.completeFlight_result (s : State) : s.completeFlight.result = s.result := by
  unfold State.completeFlight; split <;> rfl
@[simp] theorem State.completeFlight_calls (s : State) : s.completeFlight.calls = s.calls := by
  unfold State.completeFlight; split <;> rfl
@[simp] theorem State.completeFlight_arrivals (s : State) : s.completeFlight.arrivals = s.arrivals := by
  unfold State.completeFlight; split <;> rfl
@[simp] theorem State.completeFlight_readyIn (s : State) : s.completeFlight.readyIn = s.readyIn := by
  unfold State.completeFlight; split <;> rfl
@[simp] theorem State.completeFlight_extLenIn (s : State) : s.completeFlight.extLenIn = s.extLenIn := by
  unfold State.completeFlight; split <;> rfl

/-! `moveOut` changes the Frame Queue only, and of it only the slots. -/

@[simp] theorem State.moveOut_batch (s : State) (k : Chan) (c : Cursor) (n : Nat) :
    (s.moveOut k c n).batch = s.batch := by induction n with
  | zero => rfl
  | succ n ih => exact ih
@[simp] theorem State.moveOut_wlen (s : State) (k : Chan) (c : Cursor) (n : Nat) :
    (s.moveOut k c n).wlen = s.wlen := by induction n with
  | zero => rfl
  | succ n ih => exact ih
@[simp] theorem State.moveOut_ranges (s : State) (k : Chan) (c : Cursor) (n : Nat) :
    (s.moveOut k c n).ranges = s.ranges := by induction n with
  | zero => rfl
  | succ n ih => exact ih
@[simp] theorem State.moveOut_bbProduced (s : State) (k : Chan) (c : Cursor) (n : Nat) :
    (s.moveOut k c n).bbProduced = s.bbProduced := by induction n with
  | zero => rfl
  | succ n ih => exact ih
@[simp] theorem State.moveOut_bbConsumed (s : State) (k : Chan) (c : Cursor) (n : Nat) :
    (s.moveOut k c n).bbConsumed = s.bbConsumed := by induction n with
  | zero => rfl
  | succ n ih => exact ih
@[simp] theorem State.moveOut_txPending (s : State) (k : Chan) (c : Cursor) (n : Nat) :
    (s.moveOut k c n).txPending = s.txPending := by induction n with
  | zero => rfl
  | succ n ih => exact ih
@[simp] theorem State.moveOut_dlBuf (s : State) (k : Chan) (c : Cursor) (n : Nat) :
    (s.moveOut k c n).dlBuf = s.dlBuf := by induction n with
  | zero => rfl
  | succ n ih => exact ih
@[simp] theorem State.moveOut_dlLen (s : State) (k : Chan) (c : Cursor) (n : Nat) :
    (s.moveOut k c n).dlLen = s.dlLen := by induction n with
  | zero => rfl
  | succ n ih => exact ih
@[simp] theorem State.moveOut_dlRd (s : State) (k : Chan) (c : Cursor) (n : Nat) :
    (s.moveOut k c n).dlRd = s.dlRd := by induction n with
  | zero => rfl
  | succ n ih => exact ih
@[simp] theorem State.moveOut_uplinkCongested (s : State) (k : Chan) (c : Cursor) (n : Nat) :
    (s.moveOut k c n).uplinkCongested = s.uplinkCongested := by induction n with
  | zero => rfl
  | succ n ih => exact ih
@[simp] theorem State.moveOut_downlinkCongested (s : State) (k : Chan) (c : Cursor) (n : Nat) :
    (s.moveOut k c n).downlinkCongested = s.downlinkCongested := by induction n with
  | zero => rfl
  | succ n ih => exact ih
@[simp] theorem State.moveOut_halted (s : State) (k : Chan) (c : Cursor) (n : Nat) :
    (s.moveOut k c n).halted = s.halted := by induction n with
  | zero => rfl
  | succ n ih => exact ih
@[simp] theorem State.moveOut_fatalCode (s : State) (k : Chan) (c : Cursor) (n : Nat) :
    (s.moveOut k c n).fatalCode = s.fatalCode := by induction n with
  | zero => rfl
  | succ n ih => exact ih
@[simp] theorem State.moveOut_fatalInfo (s : State) (k : Chan) (c : Cursor) (n : Nat) :
    (s.moveOut k c n).fatalInfo = s.fatalInfo := by induction n with
  | zero => rfl
  | succ n ih => exact ih
@[simp] theorem State.moveOut_irqMasked (s : State) (k : Chan) (c : Cursor) (n : Nat) :
    (s.moveOut k c n).irqMasked = s.irqMasked := by induction n with
  | zero => rfl
  | succ n ih => exact ih
@[simp] theorem State.moveOut_diagTrace (s : State) (k : Chan) (c : Cursor) (n : Nat) :
    (s.moveOut k c n).diagTrace = s.diagTrace := by induction n with
  | zero => rfl
  | succ n ih => exact ih
@[simp] theorem State.moveOut_tpTrace (s : State) (k : Chan) (c : Cursor) (n : Nat) :
    (s.moveOut k c n).tpTrace = s.tpTrace := by induction n with
  | zero => rfl
  | succ n ih => exact ih
@[simp] theorem State.moveOut_wire (s : State) (k : Chan) (c : Cursor) (n : Nat) :
    (s.moveOut k c n).wire = s.wire := by induction n with
  | zero => rfl
  | succ n ih => exact ih
@[simp] theorem State.moveOut_inFlight (s : State) (k : Chan) (c : Cursor) (n : Nat) :
    (s.moveOut k c n).inFlight = s.inFlight := by induction n with
  | zero => rfl
  | succ n ih => exact ih
@[simp] theorem State.moveOut_hw (s : State) (k : Chan) (c : Cursor) (n : Nat) :
    (s.moveOut k c n).hw = s.hw := by induction n with
  | zero => rfl
  | succ n ih => exact ih
@[simp] theorem State.moveOut_pending (s : State) (k : Chan) (c : Cursor) (n : Nat) :
    (s.moveOut k c n).pending = s.pending := by induction n with
  | zero => rfl
  | succ n ih => exact ih
@[simp] theorem State.moveOut_stack (s : State) (k : Chan) (c : Cursor) (n : Nat) :
    (s.moveOut k c n).stack = s.stack := by induction n with
  | zero => rfl
  | succ n ih => exact ih
@[simp] theorem State.moveOut_grants (s : State) (k : Chan) (c : Cursor) (n : Nat) :
    (s.moveOut k c n).grants = s.grants := by induction n with
  | zero => rfl
  | succ n ih => exact ih
@[simp] theorem State.moveOut_popped (s : State) (k : Chan) (c : Cursor) (n : Nat) :
    (s.moveOut k c n).popped = s.popped := by induction n with
  | zero => rfl
  | succ n ih => exact ih
@[simp] theorem State.moveOut_phase (s : State) (k : Chan) (c : Cursor) (n : Nat) :
    (s.moveOut k c n).phase = s.phase := by induction n with
  | zero => rfl
  | succ n ih => exact ih
@[simp] theorem State.moveOut_result (s : State) (k : Chan) (c : Cursor) (n : Nat) :
    (s.moveOut k c n).result = s.result := by induction n with
  | zero => rfl
  | succ n ih => exact ih
@[simp] theorem State.moveOut_calls (s : State) (k : Chan) (c : Cursor) (n : Nat) :
    (s.moveOut k c n).calls = s.calls := by induction n with
  | zero => rfl
  | succ n ih => exact ih
@[simp] theorem State.moveOut_arrivals (s : State) (k : Chan) (c : Cursor) (n : Nat) :
    (s.moveOut k c n).arrivals = s.arrivals := by induction n with
  | zero => rfl
  | succ n ih => exact ih
@[simp] theorem State.moveOut_readyIn (s : State) (k : Chan) (c : Cursor) (n : Nat) :
    (s.moveOut k c n).readyIn = s.readyIn := by induction n with
  | zero => rfl
  | succ n ih => exact ih
@[simp] theorem State.moveOut_extLenIn (s : State) (k : Chan) (c : Cursor) (n : Nat) :
    (s.moveOut k c n).extLenIn = s.extLenIn := by induction n with
  | zero => rfl
  | succ n ih => exact ih
@[simp] theorem State.moveOut_draws (s : State) (k : Chan) (c : Cursor) (n : Nat) :
    (s.moveOut k c n).draws = s.draws := by induction n with
  | zero => rfl
  | succ n ih => exact ih

@[simp] theorem State.moveOut_produced (s : State) (k j : Chan) (c : Cursor) (n : Nat) :
    ((s.moveOut k c n).fq.get j).produced = (s.fq.get j).produced := by
  induction n with
  | zero => rfl
  | succ n ih => simp only [State.moveOut, State.setFq_fq, PerChan.get_set]; split <;> simp_all

@[simp] theorem State.moveOut_consumed (s : State) (k j : Chan) (c : Cursor) (n : Nat) :
    ((s.moveOut k c n).fq.get j).consumed = (s.fq.get j).consumed := by
  induction n with
  | zero => rfl
  | succ n ih => simp only [State.moveOut, State.setFq_fq, PerChan.get_set]; split <;> simp_all

/-! The environment's moves. -/

@[simp] theorem State.applyEvent_batch (s : State) (e : EnvEvent) : (s.applyEvent e).batch = s.batch := by
  cases e <;> rfl
@[simp] theorem State.applyEvent_wlen (s : State) (e : EnvEvent) : (s.applyEvent e).wlen = s.wlen := by
  cases e <;> rfl
@[simp] theorem State.applyEvent_ranges (s : State) (e : EnvEvent) : (s.applyEvent e).ranges = s.ranges := by
  cases e <;> rfl
@[simp] theorem State.applyEvent_bbProduced (s : State) (e : EnvEvent) : (s.applyEvent e).bbProduced = s.bbProduced := by
  cases e <;> rfl
@[simp] theorem State.applyEvent_bbConsumed (s : State) (e : EnvEvent) : (s.applyEvent e).bbConsumed = s.bbConsumed := by
  cases e <;> rfl
@[simp] theorem State.applyEvent_txPending (s : State) (e : EnvEvent) : (s.applyEvent e).txPending = s.txPending := by
  cases e <;> rfl
@[simp] theorem State.applyEvent_fq (s : State) (e : EnvEvent) : (s.applyEvent e).fq = s.fq := by
  cases e <;> rfl
@[simp] theorem State.applyEvent_dlBuf (s : State) (e : EnvEvent) : (s.applyEvent e).dlBuf = s.dlBuf := by
  cases e <;> rfl
@[simp] theorem State.applyEvent_dlLen (s : State) (e : EnvEvent) : (s.applyEvent e).dlLen = s.dlLen := by
  cases e <;> rfl
@[simp] theorem State.applyEvent_dlRd (s : State) (e : EnvEvent) : (s.applyEvent e).dlRd = s.dlRd := by
  cases e <;> rfl
@[simp] theorem State.applyEvent_uplinkCongested (s : State) (e : EnvEvent) : (s.applyEvent e).uplinkCongested = s.uplinkCongested := by
  cases e <;> rfl
@[simp] theorem State.applyEvent_downlinkCongested (s : State) (e : EnvEvent) : (s.applyEvent e).downlinkCongested = s.downlinkCongested := by
  cases e <;> rfl
@[simp] theorem State.applyEvent_halted (s : State) (e : EnvEvent) : (s.applyEvent e).halted = s.halted := by
  cases e <;> rfl
@[simp] theorem State.applyEvent_fatalCode (s : State) (e : EnvEvent) : (s.applyEvent e).fatalCode = s.fatalCode := by
  cases e <;> rfl
@[simp] theorem State.applyEvent_fatalInfo (s : State) (e : EnvEvent) : (s.applyEvent e).fatalInfo = s.fatalInfo := by
  cases e <;> rfl
@[simp] theorem State.applyEvent_irqMasked (s : State) (e : EnvEvent) : (s.applyEvent e).irqMasked = s.irqMasked := by
  cases e <;> rfl
@[simp] theorem State.applyEvent_diagTrace (s : State) (e : EnvEvent) : (s.applyEvent e).diagTrace = s.diagTrace := by
  cases e <;> rfl
@[simp] theorem State.applyEvent_tpTrace (s : State) (e : EnvEvent) : (s.applyEvent e).tpTrace = s.tpTrace := by
  cases e <;> rfl
@[simp] theorem State.applyEvent_wire (s : State) (e : EnvEvent) : (s.applyEvent e).wire = s.wire := by
  cases e <;> rfl
@[simp] theorem State.applyEvent_inFlight (s : State) (e : EnvEvent) : (s.applyEvent e).inFlight = s.inFlight := by
  cases e <;> rfl
@[simp] theorem State.applyEvent_stack (s : State) (e : EnvEvent) : (s.applyEvent e).stack = s.stack := by
  cases e <;> rfl
@[simp] theorem State.applyEvent_grants (s : State) (e : EnvEvent) : (s.applyEvent e).grants = s.grants := by
  cases e <;> rfl
@[simp] theorem State.applyEvent_popped (s : State) (e : EnvEvent) : (s.applyEvent e).popped = s.popped := by
  cases e <;> rfl
@[simp] theorem State.applyEvent_phase (s : State) (e : EnvEvent) : (s.applyEvent e).phase = s.phase := by
  cases e <;> rfl
@[simp] theorem State.applyEvent_result (s : State) (e : EnvEvent) : (s.applyEvent e).result = s.result := by
  cases e <;> rfl
@[simp] theorem State.applyEvent_calls (s : State) (e : EnvEvent) : (s.applyEvent e).calls = s.calls := by
  cases e <;> rfl
@[simp] theorem State.applyEvent_arrivals (s : State) (e : EnvEvent) : (s.applyEvent e).arrivals = s.arrivals := by
  cases e <;> rfl
@[simp] theorem State.applyEvent_readyIn (s : State) (e : EnvEvent) : (s.applyEvent e).readyIn = s.readyIn := by
  cases e <;> rfl
@[simp] theorem State.applyEvent_extLenIn (s : State) (e : EnvEvent) : (s.applyEvent e).extLenIn = s.extLenIn := by
  cases e <;> rfl
@[simp] theorem State.applyEvent_draws (s : State) (e : EnvEvent) : (s.applyEvent e).draws = s.draws := by
  cases e <;> rfl

@[simp] theorem State.applyEvents_batch (s : State) (es : List EnvEvent) :
    (es.foldl State.applyEvent s).batch = s.batch := by
  induction es generalizing s with
  | nil => rfl
  | cons e es ih => simpa using ih (s.applyEvent e)
@[simp] theorem State.applyEvents_wlen (s : State) (es : List EnvEvent) :
    (es.foldl State.applyEvent s).wlen = s.wlen := by
  induction es generalizing s with
  | nil => rfl
  | cons e es ih => simpa using ih (s.applyEvent e)
@[simp] theorem State.applyEvents_ranges (s : State) (es : List EnvEvent) :
    (es.foldl State.applyEvent s).ranges = s.ranges := by
  induction es generalizing s with
  | nil => rfl
  | cons e es ih => simpa using ih (s.applyEvent e)
@[simp] theorem State.applyEvents_bbProduced (s : State) (es : List EnvEvent) :
    (es.foldl State.applyEvent s).bbProduced = s.bbProduced := by
  induction es generalizing s with
  | nil => rfl
  | cons e es ih => simpa using ih (s.applyEvent e)
@[simp] theorem State.applyEvents_bbConsumed (s : State) (es : List EnvEvent) :
    (es.foldl State.applyEvent s).bbConsumed = s.bbConsumed := by
  induction es generalizing s with
  | nil => rfl
  | cons e es ih => simpa using ih (s.applyEvent e)
@[simp] theorem State.applyEvents_txPending (s : State) (es : List EnvEvent) :
    (es.foldl State.applyEvent s).txPending = s.txPending := by
  induction es generalizing s with
  | nil => rfl
  | cons e es ih => simpa using ih (s.applyEvent e)
@[simp] theorem State.applyEvents_fq (s : State) (es : List EnvEvent) :
    (es.foldl State.applyEvent s).fq = s.fq := by
  induction es generalizing s with
  | nil => rfl
  | cons e es ih => simpa using ih (s.applyEvent e)
@[simp] theorem State.applyEvents_dlBuf (s : State) (es : List EnvEvent) :
    (es.foldl State.applyEvent s).dlBuf = s.dlBuf := by
  induction es generalizing s with
  | nil => rfl
  | cons e es ih => simpa using ih (s.applyEvent e)
@[simp] theorem State.applyEvents_dlLen (s : State) (es : List EnvEvent) :
    (es.foldl State.applyEvent s).dlLen = s.dlLen := by
  induction es generalizing s with
  | nil => rfl
  | cons e es ih => simpa using ih (s.applyEvent e)
@[simp] theorem State.applyEvents_dlRd (s : State) (es : List EnvEvent) :
    (es.foldl State.applyEvent s).dlRd = s.dlRd := by
  induction es generalizing s with
  | nil => rfl
  | cons e es ih => simpa using ih (s.applyEvent e)
@[simp] theorem State.applyEvents_uplinkCongested (s : State) (es : List EnvEvent) :
    (es.foldl State.applyEvent s).uplinkCongested = s.uplinkCongested := by
  induction es generalizing s with
  | nil => rfl
  | cons e es ih => simpa using ih (s.applyEvent e)
@[simp] theorem State.applyEvents_downlinkCongested (s : State) (es : List EnvEvent) :
    (es.foldl State.applyEvent s).downlinkCongested = s.downlinkCongested := by
  induction es generalizing s with
  | nil => rfl
  | cons e es ih => simpa using ih (s.applyEvent e)
@[simp] theorem State.applyEvents_halted (s : State) (es : List EnvEvent) :
    (es.foldl State.applyEvent s).halted = s.halted := by
  induction es generalizing s with
  | nil => rfl
  | cons e es ih => simpa using ih (s.applyEvent e)
@[simp] theorem State.applyEvents_fatalCode (s : State) (es : List EnvEvent) :
    (es.foldl State.applyEvent s).fatalCode = s.fatalCode := by
  induction es generalizing s with
  | nil => rfl
  | cons e es ih => simpa using ih (s.applyEvent e)
@[simp] theorem State.applyEvents_fatalInfo (s : State) (es : List EnvEvent) :
    (es.foldl State.applyEvent s).fatalInfo = s.fatalInfo := by
  induction es generalizing s with
  | nil => rfl
  | cons e es ih => simpa using ih (s.applyEvent e)
@[simp] theorem State.applyEvents_irqMasked (s : State) (es : List EnvEvent) :
    (es.foldl State.applyEvent s).irqMasked = s.irqMasked := by
  induction es generalizing s with
  | nil => rfl
  | cons e es ih => simpa using ih (s.applyEvent e)
@[simp] theorem State.applyEvents_diagTrace (s : State) (es : List EnvEvent) :
    (es.foldl State.applyEvent s).diagTrace = s.diagTrace := by
  induction es generalizing s with
  | nil => rfl
  | cons e es ih => simpa using ih (s.applyEvent e)
@[simp] theorem State.applyEvents_tpTrace (s : State) (es : List EnvEvent) :
    (es.foldl State.applyEvent s).tpTrace = s.tpTrace := by
  induction es generalizing s with
  | nil => rfl
  | cons e es ih => simpa using ih (s.applyEvent e)
@[simp] theorem State.applyEvents_wire (s : State) (es : List EnvEvent) :
    (es.foldl State.applyEvent s).wire = s.wire := by
  induction es generalizing s with
  | nil => rfl
  | cons e es ih => simpa using ih (s.applyEvent e)
@[simp] theorem State.applyEvents_inFlight (s : State) (es : List EnvEvent) :
    (es.foldl State.applyEvent s).inFlight = s.inFlight := by
  induction es generalizing s with
  | nil => rfl
  | cons e es ih => simpa using ih (s.applyEvent e)
@[simp] theorem State.applyEvents_stack (s : State) (es : List EnvEvent) :
    (es.foldl State.applyEvent s).stack = s.stack := by
  induction es generalizing s with
  | nil => rfl
  | cons e es ih => simpa using ih (s.applyEvent e)
@[simp] theorem State.applyEvents_grants (s : State) (es : List EnvEvent) :
    (es.foldl State.applyEvent s).grants = s.grants := by
  induction es generalizing s with
  | nil => rfl
  | cons e es ih => simpa using ih (s.applyEvent e)
@[simp] theorem State.applyEvents_popped (s : State) (es : List EnvEvent) :
    (es.foldl State.applyEvent s).popped = s.popped := by
  induction es generalizing s with
  | nil => rfl
  | cons e es ih => simpa using ih (s.applyEvent e)
@[simp] theorem State.applyEvents_phase (s : State) (es : List EnvEvent) :
    (es.foldl State.applyEvent s).phase = s.phase := by
  induction es generalizing s with
  | nil => rfl
  | cons e es ih => simpa using ih (s.applyEvent e)
@[simp] theorem State.applyEvents_result (s : State) (es : List EnvEvent) :
    (es.foldl State.applyEvent s).result = s.result := by
  induction es generalizing s with
  | nil => rfl
  | cons e es ih => simpa using ih (s.applyEvent e)
@[simp] theorem State.applyEvents_calls (s : State) (es : List EnvEvent) :
    (es.foldl State.applyEvent s).calls = s.calls := by
  induction es generalizing s with
  | nil => rfl
  | cons e es ih => simpa using ih (s.applyEvent e)
@[simp] theorem State.applyEvents_arrivals (s : State) (es : List EnvEvent) :
    (es.foldl State.applyEvent s).arrivals = s.arrivals := by
  induction es generalizing s with
  | nil => rfl
  | cons e es ih => simpa using ih (s.applyEvent e)
@[simp] theorem State.applyEvents_readyIn (s : State) (es : List EnvEvent) :
    (es.foldl State.applyEvent s).readyIn = s.readyIn := by
  induction es generalizing s with
  | nil => rfl
  | cons e es ih => simpa using ih (s.applyEvent e)
@[simp] theorem State.applyEvents_extLenIn (s : State) (es : List EnvEvent) :
    (es.foldl State.applyEvent s).extLenIn = s.extLenIn := by
  induction es generalizing s with
  | nil => rfl
  | cons e es ih => simpa using ih (s.applyEvent e)
@[simp] theorem State.applyEvents_draws (s : State) (es : List EnvEvent) :
    (es.foldl State.applyEvent s).draws = s.draws := by
  induction es generalizing s with
  | nil => rfl
  | cons e es ih => simpa using ih (s.applyEvent e)

@[simp] theorem State.takeArrivals_batch (s : State) : s.takeArrivals.batch = s.batch := by
  unfold State.takeArrivals; split <;> simp
@[simp] theorem State.takeArrivals_wlen (s : State) : s.takeArrivals.wlen = s.wlen := by
  unfold State.takeArrivals; split <;> simp
@[simp] theorem State.takeArrivals_ranges (s : State) : s.takeArrivals.ranges = s.ranges := by
  unfold State.takeArrivals; split <;> simp
@[simp] theorem State.takeArrivals_bbProduced (s : State) : s.takeArrivals.bbProduced = s.bbProduced := by
  unfold State.takeArrivals; split <;> simp
@[simp] theorem State.takeArrivals_bbConsumed (s : State) : s.takeArrivals.bbConsumed = s.bbConsumed := by
  unfold State.takeArrivals; split <;> simp
@[simp] theorem State.takeArrivals_txPending (s : State) : s.takeArrivals.txPending = s.txPending := by
  unfold State.takeArrivals; split <;> simp
@[simp] theorem State.takeArrivals_fq (s : State) : s.takeArrivals.fq = s.fq := by
  unfold State.takeArrivals; split <;> simp
@[simp] theorem State.takeArrivals_dlBuf (s : State) : s.takeArrivals.dlBuf = s.dlBuf := by
  unfold State.takeArrivals; split <;> simp
@[simp] theorem State.takeArrivals_dlLen (s : State) : s.takeArrivals.dlLen = s.dlLen := by
  unfold State.takeArrivals; split <;> simp
@[simp] theorem State.takeArrivals_dlRd (s : State) : s.takeArrivals.dlRd = s.dlRd := by
  unfold State.takeArrivals; split <;> simp
@[simp] theorem State.takeArrivals_uplinkCongested (s : State) : s.takeArrivals.uplinkCongested = s.uplinkCongested := by
  unfold State.takeArrivals; split <;> simp
@[simp] theorem State.takeArrivals_downlinkCongested (s : State) : s.takeArrivals.downlinkCongested = s.downlinkCongested := by
  unfold State.takeArrivals; split <;> simp
@[simp] theorem State.takeArrivals_halted (s : State) : s.takeArrivals.halted = s.halted := by
  unfold State.takeArrivals; split <;> simp
@[simp] theorem State.takeArrivals_fatalCode (s : State) : s.takeArrivals.fatalCode = s.fatalCode := by
  unfold State.takeArrivals; split <;> simp
@[simp] theorem State.takeArrivals_fatalInfo (s : State) : s.takeArrivals.fatalInfo = s.fatalInfo := by
  unfold State.takeArrivals; split <;> simp
@[simp] theorem State.takeArrivals_irqMasked (s : State) : s.takeArrivals.irqMasked = s.irqMasked := by
  unfold State.takeArrivals; split <;> simp
@[simp] theorem State.takeArrivals_diagTrace (s : State) : s.takeArrivals.diagTrace = s.diagTrace := by
  unfold State.takeArrivals; split <;> simp
@[simp] theorem State.takeArrivals_tpTrace (s : State) : s.takeArrivals.tpTrace = s.tpTrace := by
  unfold State.takeArrivals; split <;> simp
@[simp] theorem State.takeArrivals_wire (s : State) : s.takeArrivals.wire = s.wire := by
  unfold State.takeArrivals; split <;> simp
@[simp] theorem State.takeArrivals_inFlight (s : State) : s.takeArrivals.inFlight = s.inFlight := by
  unfold State.takeArrivals; split <;> simp
@[simp] theorem State.takeArrivals_stack (s : State) : s.takeArrivals.stack = s.stack := by
  unfold State.takeArrivals; split <;> simp
@[simp] theorem State.takeArrivals_grants (s : State) : s.takeArrivals.grants = s.grants := by
  unfold State.takeArrivals; split <;> simp
@[simp] theorem State.takeArrivals_popped (s : State) : s.takeArrivals.popped = s.popped := by
  unfold State.takeArrivals; split <;> simp
@[simp] theorem State.takeArrivals_phase (s : State) : s.takeArrivals.phase = s.phase := by
  unfold State.takeArrivals; split <;> simp
@[simp] theorem State.takeArrivals_result (s : State) : s.takeArrivals.result = s.result := by
  unfold State.takeArrivals; split <;> simp
@[simp] theorem State.takeArrivals_calls (s : State) : s.takeArrivals.calls = s.calls := by
  unfold State.takeArrivals; split <;> simp
@[simp] theorem State.takeArrivals_readyIn (s : State) : s.takeArrivals.readyIn = s.readyIn := by
  unfold State.takeArrivals; split <;> simp
@[simp] theorem State.takeArrivals_extLenIn (s : State) : s.takeArrivals.extLenIn = s.extLenIn := by
  unfold State.takeArrivals; split <;> simp
@[simp] theorem State.takeArrivals_draws (s : State) : s.takeArrivals.draws = s.draws := by
  unfold State.takeArrivals; split <;> simp

theorem State.takeArrivals_quiet {s : State} (h : s.arrivals = []) : s.takeArrivals = s := by
  simp [State.takeArrivals, h]

end Sys2Proof.Machine
end

