-- ==== Sys2Proof/Laws/Outcome.lean ====
section
/-! SUPPORT. Outcomes in the middle of an operation: the equations of `bind`, and the predicate `Sat`
(what holds where a part of an operation answers, and where it halts) with its rules. -/

namespace Sys2Proof.Machine

section equations
variable {α β : Type}

@[simp] theorem Res.bind_ok (a : α) (s : State) (f : α → State → Res β) :
    (Res.ok a s).bind f = f a s := rfl
@[simp] theorem Res.bind_halt (s : State) (f : α → State → Res β) :
    (Res.halt s : Res α).bind f = .halt s := rfl
@[simp] theorem Res.bind_fault (e : Fault) (f : α → State → Res β) :
    (Res.fault e : Res α).bind f = .fault e := rfl
@[simp] theorem Res.bind_refused (e : Refusal) (f : α → State → Res β) :
    (Res.refused e : Res α).bind f = .refused e := rfl
@[simp] theorem Res.map_ok (f : α → β) (a : α) (s : State) : (Res.ok a s).map f = .ok (f a) s := rfl
@[simp] theorem Res.map_halt (f : α → β) (s : State) : (Res.halt s : Res α).map f = .halt s := rfl
@[simp] theorem Res.map_fault (f : α → β) (e : Fault) : (Res.fault e : Res α).map f = .fault e := rfl
@[simp] theorem Res.map_refused (f : α → β) (e : Refusal) :
    (Res.refused e : Res α).map f = .refused e := rfl
@[simp] theorem Res.outcome_ok (r : OpResult) (s : State) :
    (Res.ok r s).outcome = .next { s with result := r } := rfl
@[simp] theorem Res.outcome_halt (s : State) : (Res.halt s : Res OpResult).outcome = .next s := rfl
@[simp] theorem Res.outcome_fault (e : Fault) : (Res.fault e : Res OpResult).outcome = .fault e := rfl
@[simp] theorem Res.outcome_refused (e : Refusal) :
    (Res.refused e : Res OpResult).outcome = .refused e := rfl

theorem Res.bind_assoc {γ : Type} (r : Res α) (f : α → State → Res β) (g : β → State → Res γ) :
    (r.bind f).bind g = r.bind fun a s => (f a s).bind g := by cases r <;> rfl

end equations

/-- `Q` holds of every answer and `H` of every halt. -/
def Res.Sat {α : Type} (Q : α → State → Prop) (H : State → Prop) : Res α → Prop
  | .ok a s => Q a s
  | .halt s => H s
  | .fault _ => True
  | .refused _ => True

section sat
variable {α β : Type} {Q Q' : α → State → Prop} {R : β → State → Prop} {H H' : State → Prop}

theorem Res.Sat.bind {r : Res α} {f : α → State → Res β} (h : r.Sat Q H)
    (hf : ∀ a s, Q a s → (f a s).Sat R H) : (r.bind f).Sat R H := by
  cases r with
  | ok a s => exact hf a s h
  | halt s => exact h
  | fault e => trivial
  | refused e => trivial

theorem Res.Sat.mono {r : Res α} (h : r.Sat Q H) (hq : ∀ a s, Q a s → Q' a s)
    (hh : ∀ s, H s → H' s) : r.Sat Q' H' := by
  cases r with
  | ok a s => exact hq a s h
  | halt s => exact hh s h
  | fault e => trivial
  | refused e => trivial

/-- What an operation satisfies, its outcome does. -/
theorem Res.Sat.outcome {Q : OpResult → State → Prop} {r : Res OpResult} (h : r.Sat Q H) {t : State}
    (ht : r.outcome = .next t) : (∃ a s, Q a s ∧ t = { s with result := a }) ∨ H t := by
  cases r with
  | ok a s => simp only [Res.outcome_ok, Host.Outcome.next.injEq] at ht; exact .inl ⟨a, s, h, ht.symm⟩
  | halt s => simp only [Res.outcome_halt, Host.Outcome.next.injEq] at ht; exact .inr (ht ▸ h)
  | fault e => simp at ht
  | refused e => simp at ht

end sat

/-- Two facts about one answer. -/
theorem Res.Sat.and {α : Type} {Q Q' : α → State → Prop} {H H' : State → Prop} {r : Res α}
    (h : r.Sat Q H) (h' : r.Sat Q' H') : r.Sat (fun a s => Q a s ∧ Q' a s) H := by
  cases r <;> first | exact ⟨h, h'⟩ | exact h

end Sys2Proof.Machine
end

