-- ==== Sys2Proof/Laws/Order.lean ====
section
/-! SUPPORT. Which batches are empty and how their grants lie (40_batch_buffer.md R140 clauses 3, 4, 6) under the single
steps of the Batch Buffer: an append (R132), the opening of a batch (R131 step A5, R134 step P4), the emptying of
the oldest (R135 steps T2, T3). One lemma per step and clause. -/

namespace Sys2Proof.Machine

/-! Tiling. -/

/-- A range appended at the end extends the tiling. -/
theorem tiles_append {lo hi n : Nat} {l : List (Nat × Nat)} (h : tiles lo l hi) (hn : 1 ≤ n) :
    tiles lo (l ++ [(hi, n)]) (hi + n) := by
  induction l generalizing lo with
  | nil => exact ⟨h.symm, hn, by have : lo = hi := h; subst this; rfl⟩
  | cons r l ih => exact ⟨h.1, h.2.1, ih h.2.2⟩

theorem State.tilingOk.extend {s : State} (h : s.tilingOk) (i : Slot) {n : Nat} (hn : 1 ≤ n)
    (hr : (s.wlen[i]).toNat + n ≤ Config.batchSize) : (s.extend i (s.wlen[i]).toNat n).tilingOk := by
  intro j
  rw [State.extend_getElem, State.extend_ranges_getElem]
  split
  · have e : (BitVec.ofNat Config.wlenBits ((s.wlen[i]).toNat + n)).toNat = (s.wlen[i]).toNat + n := by
      simp only [Config.wlenBits, BitVec.toNat_ofNat, Config.batchSize] at *; omega
    rw [e]
    exact tiles_append (h i) hn
  · exact h j

theorem State.tilingOk.emptyBatch {s : State} (h : s.tilingOk) (i : Slot) : (s.emptyBatch i).tilingOk := by
  intro j
  rw [State.emptyBatch_getElem, State.emptyBatch_ranges_getElem]
  split
  · exact rfl
  · exact h j

/-! Order. -/

/-- Cursor values at most 8 apart that denote one batch are equal (10_state.md R26). -/
theorem slotOf_add_inj {v : Cursor} {m n : Nat} (hm : m < 8) (hn : n < 8)
    (h : slotOf (v + BitVec.ofNat Config.cursorBits m) = slotOf (v + BitVec.ofNat Config.cursorBits n)) : m = n := by
  have := congrArg Fin.val h
  simp only [slotOf, Config.batchCount, Config.cursorBits, BitVec.toNat_add, BitVec.toNat_ofNat] at this
  omega

theorem State.OrderedFrom.of_eq {s t : State} {v : Cursor} (h : s.OrderedFrom v) (h1 : t.bbProduced = s.bbProduced)
    (h2 : t.bbConsumed = s.bbConsumed) (h3 : t.wlen = s.wlen) : t.OrderedFrom v where
  place := by rw [h1, h2]; exact h.place
  empty := by rw [h1, h3]; exact h.empty
  filled := by rw [h1, h3]; exact h.filled

/-- `v` lies between the two cursors. -/
theorem State.OrderedFrom.distance {s : State} {v : Cursor} (h : s.OrderedFrom v) :
    (s.bbProduced - v).toNat + (v - s.bbConsumed).toNat = (s.bbProduced - s.bbConsumed).toNat := by
  have hv := v.isLt
  have hp := s.bbProduced.isLt
  have hc := s.bbConsumed.isLt
  rcases h.place with h | h
  · subst h; simp
  · simp only [Config.cursorBits, BitVec.toNat_sub] at *; omega

/-- A batch of a cursor value from `v` on. -/
def State.openedFrom (s : State) (v : Cursor) (i : Slot) : Prop :=
  ∃ n < (s.bbProduced - v).toNat, slotOf (v + BitVec.ofNat Config.cursorBits n) = i

/-- The newest opened batch is one of them. -/
theorem State.OrderedFrom.newest {s : State} {v : Cursor} (h : s.OrderedFrom v) (hne : s.bbProduced ≠ s.bbConsumed) :
    s.openedFrom v (slotOf (s.bbProduced - 1)) := by
  have hd := h.distance
  have h0 : (s.bbProduced - s.bbConsumed).toNat ≠ 0 := fun e => hne (cursor_sub_eq_zero.1 e)
  have h1 : 1 ≤ (s.bbProduced - v).toNat := by
    rcases h.place with e | e
    · subst e; omega
    · omega
  refine ⟨(s.bbProduced - v).toNat - 1, by omega, ?_⟩
  congr 1
  apply BitVec.eq_of_toNat_eq
  have hv := v.isLt
  have hp := s.bbProduced.isLt
  have hone : (1 : Cursor).toNat = 1 := rfl
  simp only [Config.cursorBits, BitVec.toNat_add, BitVec.toNat_ofNat, BitVec.toNat_sub, hone] at *
  omega

/-- An append to an opened batch (R132). -/
theorem State.OrderedFrom.extend {s : State} {v : Cursor} (h : s.OrderedFrom v) {i : Slot} (ho : s.openedFrom v i)
    {n : Nat} (hr : (s.wlen[i]).toNat + n ≤ Config.batchSize) : (s.extend i (s.wlen[i]).toNat n).OrderedFrom v where
  place := h.place
  empty := fun j hj => by
    obtain ⟨m, hm, rfl⟩ := ho
    rw [State.extend_getElem, if_neg (hj m hm)]
    exact h.empty j hj
  filled := fun m hm => by
    have := h.filled m hm
    rw [State.extend_getElem]
    split
    · rename_i e
      subst e
      simp only [Config.wlenBits, BitVec.toNat_ofNat, Config.batchSize] at *
      omega
    · exact this

/-- The opening of a batch (R131 step A5, R134 step P4): there is room for one, and the newest so far holds data. -/
theorem State.OrderedFrom.openBatch {s : State} {v : Cursor} (h : s.OrderedFrom v)
    (hc : (s.bbProduced - s.bbConsumed).toNat < Config.batchCount)
    (hn : s.bbProduced ≠ s.bbConsumed → 1 < (s.wlen[slotOf (s.bbProduced - 1)]).toNat) :
    ({ s with bbProduced := s.bbProduced + 1 } : State).OrderedFrom v := by
  have hd := h.distance
  simp only [Config.batchCount] at hc
  have hs : (s.bbProduced + 1 - v).toNat = (s.bbProduced - v).toNat + 1 := cursor_succ_sub (by omega)
  have hs' : (s.bbProduced + 1 - s.bbConsumed).toNat = (s.bbProduced - s.bbConsumed).toNat + 1 :=
    cursor_succ_sub (by omega)
  refine ⟨h.place.imp id fun e => ?_, fun j hj => h.empty j fun m hm => hj m ?_, fun m hm => ?_⟩
  · show (v - s.bbConsumed).toNat < (s.bbProduced + 1 - s.bbConsumed).toNat
    have e : (v - s.bbConsumed).toNat < (s.bbProduced - s.bbConsumed).toNat := e
    omega
  · show m < (s.bbProduced + 1 - v).toNat
    omega
  · have hm' : m + 1 < (s.bbProduced + 1 - v).toNat := hm
    by_cases hl : m + 1 < (s.bbProduced - v).toNat
    · exact h.filled m hl
    · have hne : s.bbProduced ≠ s.bbConsumed := fun e => by
        have : (s.bbProduced - s.bbConsumed).toNat = 0 := cursor_sub_eq_zero.2 e
        omega
      have e : v + BitVec.ofNat Config.cursorBits m = s.bbProduced - 1 := by
        apply BitVec.eq_of_toNat_eq
        have hv := v.isLt
        have hp := s.bbProduced.isLt
        have hone : (1 : Cursor).toNat = 1 := rfl
        simp only [Config.cursorBits, BitVec.toNat_add, BitVec.toNat_ofNat, BitVec.toNat_sub, hone] at *
        omega
      show 1 < (s.wlen[slotOf (v + BitVec.ofNat Config.cursorBits m)]).toNat
      simp only [e]
      exact hn hne

/-- The emptying of the oldest batch, a closed one (R135 step T2): from then on the order counts from the next. -/
theorem State.OrderedFrom.emptyOldest {s : State} (h : s.OrderedFrom s.bbConsumed)
    (h8 : (s.bbProduced - s.bbConsumed).toNat ≤ Config.batchCount)
    (h2 : 2 ≤ (s.bbProduced - s.bbConsumed).toNat) :
    (s.emptyBatch (slotOf s.bbConsumed)).OrderedFrom (s.bbConsumed + 1) := by
  have hs : (s.bbProduced - (s.bbConsumed + 1)).toNat = (s.bbProduced - s.bbConsumed).toNat - 1 :=
    cursor_sub_succ (by omega)
  have next : ∀ n : Nat, s.bbConsumed + 1 + BitVec.ofNat Config.cursorBits n = s.bbConsumed + BitVec.ofNat Config.cursorBits (n + 1) := by
    intro n
    rw [BitVec.ofNat_add, BitVec.add_assoc, BitVec.add_comm 1]
    rfl
  simp only [Config.batchCount] at h8
  refine ⟨.inr ?_, fun j hj => ?_, fun n hn => ?_⟩
  · show (s.bbConsumed + 1 - s.bbConsumed).toNat < (s.bbProduced - s.bbConsumed).toNat
    rw [cursor_sub_one rfl]
    omega
  · rw [State.emptyBatch_getElem]
    split
    · rfl
    · rename_i hne
      refine h.empty j fun n hn e => ?_
      cases n with
      | zero => exact hne (by simpa using e)
      | succ n =>
        refine hj n ?_ ((next n).symm ▸ e)
        show n < (s.bbProduced - (s.bbConsumed + 1)).toNat
        omega
  · have hn' : n + 1 < (s.bbProduced - (s.bbConsumed + 1)).toNat := hn
    rw [State.emptyBatch_getElem, if_neg, next]
    · exact h.filled (n + 1) (by omega)
    · intro e
      rw [next] at e
      have e0 : slotOf (s.bbConsumed + BitVec.ofNat Config.cursorBits 0) = slotOf (s.bbConsumed + BitVec.ofNat Config.cursorBits (n + 1)) := by
        simpa using e
      have := slotOf_add_inj (by omega) (by omega) e0
      omega

/-- The consumed cursor follows (R135 step T3). -/
theorem State.OrderedFrom.consume {s t : State} {v : Cursor} (h : s.OrderedFrom v) (h1 : t.bbProduced = s.bbProduced)
    (h2 : t.bbConsumed = v) (h3 : t.wlen = s.wlen) : t.OrderedFrom t.bbConsumed where
  place := .inl rfl
  empty := by rw [h1, h2, h3]; exact h.empty
  filled := by rw [h1, h2, h3]; exact h.filled

end Sys2Proof.Machine
end

