-- ==== Sys2Proof/Laws/Quiet.lean ====
section
/-! SUPPORT. Where the environment makes no move and no pending interrupt may start (`State.quiet`), a preemption
point changes nothing: every operation then runs in one piece. -/

namespace Sys2Proof.Machine

/-- Of requests none of which is admitted, none is picked. -/
theorem pickRequest_none {ok : IrqReq → Bool} {rs : List IrqReq} (h : ∀ r ∈ rs, ok r = false) :
    pickRequest ok rs = none := by
  induction rs with
  | nil => rfl
  | cons r rs ih =>
    simp [pickRequest, ih fun x hx => h x (List.mem_cons_of_mem _ hx), h r List.mem_cons_self]

/-- A preemption point of a quiet state (60_exceptions.md R252). -/
theorem point_quiet (n : Nat) {s : State} (h : s.quiet) : point n s = .ok () s := by
  cases n with
  | zero => simp [point, State.takeArrivals_quiet h.1]
  | succ n =>
    unfold point
    dsimp only
    rw [State.takeArrivals_quiet h.1, pickRequest_none h.2]

/-- Whether a request may start depends on the mask, the armed notifications and the handlers inside an operation. -/
theorem State.admissible_congr {s t : State} (hm : t.irqMasked = s.irqMasked) (hs : t.stack = s.stack)
    (ha : ∀ k, (t.hw.get k).rxArmed = (s.hw.get k).rxArmed) (r : IrqReq) : t.admissible r = s.admissible r := by
  unfold State.admissible
  rw [hm, hs]
  cases r <;> simp [State.enabled, ha]

/-- An update that leaves the requests, and what admits them, leaves a state quiet. -/
theorem State.quiet.of_eq {s t : State} (q : s.quiet) (h1 : t.arrivals = s.arrivals) (h2 : t.pending = s.pending)
    (hm : t.irqMasked = s.irqMasked) (hs : t.stack = s.stack)
    (ha : ∀ k, (t.hw.get k).rxArmed = (s.hw.get k).rxArmed) : t.quiet :=
  ⟨h1.trans q.1, fun r hr => (State.admissible_congr hm hs ha r).trans (q.2 r (h2 ▸ hr))⟩

/-- An update of a controller that leaves its notification armed or not. -/
theorem State.quiet.setHw {s : State} (q : s.quiet) (k : Chan) {h : HwPort} (e : h.rxArmed = (s.hw.get k).rxArmed) :
    (s.setHw k h).quiet :=
  q.of_eq rfl rfl rfl rfl fun j => by
    rw [State.setHw_hw, PerChan.get_set]
    split
    · rename_i e'
      subst e'
      exact e
    · rfl

/-- `runOp` of a block that is not halted. -/
theorem runOp_running {body : Hook → State → Res OpResult} {s : State} (h : s.halted = false) :
    runOp body s = (body (point s.budget) s).outcome := by simp [runOp, h]

/-- `runOp` of a halted block (60_exceptions.md R247). -/
theorem runOp_halted {body : Hook → State → Res OpResult} {s : State} (h : s.halted = true) :
    runOp body s = .fault .halted := by simp [runOp, h]

/-- A step of a quiet state is the running agent's. -/
theorem step_quiet {s : State} (hh : s.halted = false) (q : s.quiet) : step s = runNext s := by
  unfold step stepOnce
  rw [hh, if_neg Bool.false_ne_true]
  dsimp only
  rw [State.takeArrivals_quiet q.1, pickRequest_none q.2]

end Sys2Proof.Machine
end

