-- ==== Sys2Proof/Laws/Preempt.lean ====
section
/-! SUPPORT. What the operations of the interrupt context can do to the state, whatever preempts them
(60_exceptions.md R252): `Kept` says it once. They keep the invariant; they never touch what is the
consumer's: `bb.consumed`, the Frame Queues, a packet under decoding; the opened batches stay in order (40_batch_buffer.md
R140 clauses 3 and 4), also in the middle of a `BB.RESET`. From it, what a preemption point
can do. -/

namespace Sys2Proof.Machine

/-- From `s`, interrupt handlers lead to `t`. -/
structure Kept (s t : State) : Prop where
  inv         : s.Inv → t.Inv
  ordered     : s.Inv → ∀ v, s.OrderedFrom v → t.OrderedFrom v
  grows       : s.Inv → (s.bbProduced - s.bbConsumed).toNat ≤ (t.bbProduced - t.bbConsumed).toNat
  lengths     : ∀ i : Slot, (s.wlen[i]).toNat ≤ (t.wlen[i]).toNat
  consumed    : t.bbConsumed = s.bbConsumed
  fq          : t.fq = s.fq
  txPending   : t.txPending = s.txPending
  popped      : t.popped = s.popped
  inFlight    : t.inFlight = s.inFlight
  tpTrace     : t.tpTrace = s.tpTrace
  wire        : t.wire = s.wire
  halted      : t.halted = s.halted
  irqMasked   : t.irqMasked = s.irqMasked
  fatalCode   : t.fatalCode = s.fatalCode
  fatalInfo   : t.fatalInfo = s.fatalInfo
  downCong    : t.downlinkCongested = s.downlinkCongested
  phase       : t.phase = s.phase
  calls       : t.calls = s.calls
  stack       : t.stack = s.stack
  packet      : s.dlRd < s.dlLen → t.dlRd = s.dlRd ∧ t.dlLen = s.dlLen ∧ t.dlBuf = s.dlBuf

theorem Kept.refl (s : State) : Kept s s where
  inv := id
  ordered _ _ h := h
  grows _ := Nat.le_refl _
  lengths _ := Nat.le_refl _
  consumed := rfl
  fq := rfl
  txPending := rfl
  popped := rfl
  inFlight := rfl
  tpTrace := rfl
  wire := rfl
  halted := rfl
  irqMasked := rfl
  fatalCode := rfl
  fatalInfo := rfl
  downCong := rfl
  phase := rfl
  calls := rfl
  stack := rfl
  packet _ := ⟨rfl, rfl, rfl⟩

theorem Kept.trans {s t u : State} (h : Kept s t) (k : Kept t u) : Kept s u where
  inv i := k.inv (h.inv i)
  ordered i v o := k.ordered (h.inv i) v (h.ordered i v o)
  grows i := Nat.le_trans (h.grows i) (k.grows (h.inv i))
  lengths i := Nat.le_trans (h.lengths i) (k.lengths i)
  consumed := k.consumed.trans h.consumed
  fq := k.fq.trans h.fq
  txPending := k.txPending.trans h.txPending
  popped := k.popped.trans h.popped
  inFlight := k.inFlight.trans h.inFlight
  tpTrace := k.tpTrace.trans h.tpTrace
  wire := k.wire.trans h.wire
  halted := k.halted.trans h.halted
  irqMasked := k.irqMasked.trans h.irqMasked
  fatalCode := k.fatalCode.trans h.fatalCode
  fatalInfo := k.fatalInfo.trans h.fatalInfo
  downCong := k.downCong.trans h.downCong
  phase := k.phase.trans h.phase
  calls := k.calls.trans h.calls
  stack := k.stack.trans h.stack
  packet i := by
    obtain ⟨a, b, c⟩ := h.packet i
    obtain ⟨a', b', c'⟩ := k.packet (by omega)
    exact ⟨a'.trans a, b'.trans b, c'.trans c⟩

/-- A halt on the way is the fatal halt, and it keeps the invariant. -/
abbrev HaltKept (s : State) : State → Prop := fun t => t.halted = true ∧ (s.Inv → t.Inv)

/-- What a part of an interrupt's operation satisfies, with a fact `P` about its answer. -/
abbrev Keeps {α : Type} (s : State) (P : α → State → Prop) (r : Res α) : Prop :=
  r.Sat (fun a t => Kept s t ∧ P a t) (HaltKept s)

/-- A preemption point under which nothing but handlers run. -/
def Hooked (pt : Hook) : Prop := ∀ s, Keeps s (fun _ _ => True) (pt s)

theorem Keeps.after {α : Type} {s t : State} {P : α → State → Prop} {r : Res α} (k : Kept s t)
    (h : Keeps t P r) : Keeps s P r :=
  h.mono (fun _ _ h => ⟨k.trans h.1, h.2⟩) (fun _ h => ⟨h.1, fun i => h.2 (k.inv i)⟩)

theorem Keeps.ok {α : Type} {s t : State} {P : α → State → Prop} {a : α} (k : Kept s t) (p : P a t) :
    Keeps s P (.ok a t) := ⟨k, p⟩

/-- After a preemption point the operation goes on from a state the handlers led to. -/
theorem Keeps.point {β : Type} {pt : Hook} (hp : Hooked pt) {s t : State} (k : Kept s t)
    {f : Unit → State → Res β} {P : β → State → Prop}
    (hf : ∀ u, Kept s u → Keeps s P (f () u)) : Keeps s P ((pt t).bind f) :=
  ((hp t).after k).bind fun _ u h => hf u h.1

/-- The same, where the step the handlers made counts too. -/
theorem Keeps.pointStep {β : Type} {pt : Hook} (hp : Hooked pt) {s t : State} (k : Kept s t)
    {f : Unit → State → Res β} {P : β → State → Prop}
    (hf : ∀ u, Kept t u → Keeps s P (f () u)) : Keeps s P ((pt t).bind f) :=
  Res.Sat.bind (Q := fun _ u => Kept t u)
    ((hp t).mono (fun _ _ h => h.1) fun _ h => ⟨h.1, fun i => h.2 (k.inv i)⟩) fun _ u h => hf u h

theorem Keeps.bind {α β : Type} {s : State} {r : Res α} {f : α → State → Res β}
    {P : α → State → Prop} {Q : β → State → Prop} (h : Keeps s P r)
    (hf : ∀ a u, Kept s u → P a u → Keeps s Q (f a u)) : Keeps s Q (r.bind f) :=
  Res.Sat.bind h fun a u h => hf a u h.1 h.2

/-! The invariant under the single updates. -/

/-- An update that leaves what the invariant speaks of leaves the invariant. -/
theorem State.Inv.of_eq {s t : State} (i : s.Inv) (h1 : t.bbProduced = s.bbProduced)
    (h2 : t.bbConsumed = s.bbConsumed) (h3 : t.wlen = s.wlen) (hr : t.ranges = s.ranges)
    (h4 : t.batch = s.batch) (h5 : t.dlBuf = s.dlBuf) (h6 : t.fq = s.fq) (h7 : t.dlRd = s.dlRd)
    (h8 : t.dlLen = s.dlLen) (h9 : t.haltOk) (h10 : t.grants = s.grants) : t.Inv where
  cursors := by have := i.cursors; unfold State.cursorsOk at *; rwa [h1, h2]
  wlens := by have := i.wlens; unfold State.wlenOk at *; rwa [h3]
  tiling := by have := i.tiling; unfold State.tilingOk at *; rwa [h3, hr]
  sentinel := by have := i.sentinel; unfold State.sentinelOk at *; rwa [h4]
  memory := by have := i.memory; unfold State.memoryOk at *; rwa [h4, h5]
  queues := by have := i.queues; unfold State.queuesOk at *; rwa [h6]
  entries := by have := i.entries; unfold State.entriesOk at *; rwa [h6]
  downlink := by have := i.downlink; unfold State.downlinkOk at *; rwa [h7, h8]
  halt := h9
  grants := by have := i.grants; unfold State.grantsOk at *; rwa [h10]

theorem State.Inv.raiseFatal {s : State} (i : s.Inv) (c : BitVec 3) (f : FatalInfo)
    (h : 1 ≤ c.toNat ∧ c.toNat ≤ 5 := by decide) : (s.raiseFatal c f).Inv :=
  i.of_eq rfl rfl rfl rfl rfl rfl rfl rfl rfl (fun _ => ⟨rfl, h⟩) rfl

/-- An append within the batch (40_batch_buffer.md R132). -/
theorem State.Inv.extend {s : State} (i : s.Inv) (j : Slot) {n : Nat} (h1 : 1 ≤ n)
    (h2 : (s.wlen[j]).toNat + n ≤ Config.batchSize) : (s.extend j (s.wlen[j]).toNat n).Inv :=
  { i with
    wlens := fun k => by
      rw [State.extend_getElem]
      split
      · simp only [Config.wlenBits, BitVec.toNat_ofNat, Config.batchSize] at *
        omega
      · exact i.wlens k
    tiling := i.tiling.extend j h1 h2
    cursors := i.cursors
    sentinel := i.sentinel
    memory := i.memory
    queues := i.queues
    entries := i.entries
    downlink := i.downlink
    halt := i.halt
    grants := i.grants }

/-- An emptied batch (R135 step T2). -/
theorem State.Inv.emptyBatch {s : State} (i : s.Inv) (j : Slot) : (s.emptyBatch j).Inv :=
  { i with
    wlens := fun k => by
      rw [State.emptyBatch_getElem]
      split
      · decide
      · exact i.wlens k
    tiling := i.tiling.emptyBatch j
    cursors := i.cursors
    sentinel := i.sentinel
    memory := i.memory
    queues := i.queues
    entries := i.entries
    downlink := i.downlink
    halt := i.halt
    grants := i.grants }

/-- A byte of a batch that is not its first. -/
theorem State.Inv.pokeBatch {s : State} (i : s.Inv) (j : Slot) {o : Nat} (b : Byte) (h1 : 1 ≤ o)
    (h2 : o < Config.batchSize) : (s.pokeBatch j o b).Inv :=
  { i with
    cursors := i.cursors
    wlens := i.wlens
    tiling := i.tiling
    entries := i.entries
    sentinel := fun k => by
      have h := i.sentinel k
      rw [State.pokeBatch_batch, Memory.read_write_other]
      · exact h
      · simp only [batchAddr, Config.batchSize] at *; omega
    memory := ⟨Memory.wf_write .batch i.memory.1 _ _, i.memory.2⟩
    queues := i.queues
    downlink := i.downlink
    halt := i.halt
    grants := i.grants }

/-- An update of fields that neither the invariant nor the consumer speaks of. -/
theorem Kept.of_eq {s t : State} (h1 : t.bbProduced = s.bbProduced) (h2 : t.bbConsumed = s.bbConsumed)
    (h3 : t.wlen = s.wlen) (hr : t.ranges = s.ranges) (h4 : t.batch = s.batch) (h5 : t.dlBuf = s.dlBuf) (h6 : t.fq = s.fq)
    (h7 : t.dlRd = s.dlRd) (h8 : t.dlLen = s.dlLen) (h9 : t.halted = s.halted)
    (h10 : t.irqMasked = s.irqMasked) (h11 : t.grants = s.grants) (h12 : t.txPending = s.txPending)
    (h13 : t.popped = s.popped) (h14 : t.inFlight = s.inFlight) (h15 : t.tpTrace = s.tpTrace)
    (h16 : t.wire = s.wire) (h17 : t.fatalCode = s.fatalCode) (h18 : t.fatalInfo = s.fatalInfo)
    (h19 : t.downlinkCongested = s.downlinkCongested) (h20 : t.phase = s.phase)
    (h21 : t.calls = s.calls) (h22 : t.stack = s.stack) : Kept s t where
  inv i := i.of_eq h1 h2 h3 hr h4 h5 h6 h7 h8 (by unfold State.haltOk; rw [h9, h10, h17]; exact i.halt) h11
  ordered _ _ h := h.of_eq h1 h2 h3
  grows _ := by rw [h1, h2]
  lengths _ := by rw [h3]
  consumed := h2
  fq := h6
  txPending := h12
  popped := h13
  inFlight := h14
  tpTrace := h15
  wire := h16
  halted := h9
  irqMasked := h10
  fatalCode := h17
  fatalInfo := h18
  downCong := h19
  phase := h20
  calls := h21
  stack := h22
  packet _ := ⟨h7, h8, h5⟩

theorem Kept.setHw (s : State) (k : Chan) (h : HwPort) : Kept s (s.setHw k h) := by
  apply Kept.of_eq <;> rfl

theorem Kept.rxAck (s : State) (k : Chan) : Kept s (s.rxAck k) := by
  apply Kept.of_eq <;> rfl

theorem Kept.signal (s : State) (e : DiagEvent) : Kept s (s.signal e) := by
  apply Kept.of_eq <;> rfl

theorem Kept.uplinkFlag (s : State) (b : Bool) : Kept s (s.uplinkFlag b) := by
  apply Kept.of_eq <;> rfl

theorem Kept.takeArrivals (s : State) : Kept s s.takeArrivals := by
  apply Kept.of_eq <;> simp

/-- An opened batch stays opened. -/
theorem Kept.opened {s t : State} (k : Kept s t) (i : s.Inv) {v : Cursor} (h : s.OrderedFrom v) {j : Slot}
    (ho : s.openedFrom v j) : t.openedFrom v j := by
  obtain ⟨n, hn, e⟩ := ho
  have h1 := h.distance
  have h2 := (k.ordered i v h).distance
  have h3 := k.grows i
  rw [k.consumed] at h2
  rw [k.consumed] at h3
  exact ⟨n, by omega, e⟩

/-- An append that follows what the handlers led to from `o`: in the order from `v` on, it is one to an opened batch. -/
theorem Kept.extend {o s : State} (k : Kept o s) (j : Slot) {n : Nat} (h1 : 1 ≤ n)
    (h2 : (s.wlen[j]).toNat + n ≤ Config.batchSize)
    (ho : o.Inv → ∀ v, o.OrderedFrom v → s.openedFrom v j) : Kept o (s.extend j (s.wlen[j]).toNat n) :=
  { k with
    inv := fun i => (k.inv i).extend j h1 h2
    ordered := fun i v h => (k.ordered i v h).extend (ho i v h) h2
    lengths := fun m => by
      refine Nat.le_trans (k.lengths m) ?_
      rw [State.extend_getElem]
      split
      · rename_i e
        subst e
        simp only [Config.wlenBits, BitVec.toNat_ofNat, Config.batchSize] at *
        omega
      · exact Nat.le_refl _ }

theorem Kept.pokeBatch {s : State} (j : Slot) {o : Nat} (b : Byte)
    (h : s.Inv → 1 ≤ o ∧ o < Config.batchSize) : Kept s (s.pokeBatch j o b) :=
  { Kept.refl s with
    inv := fun i => i.pokeBatch j b (h i).1 (h i).2
    ordered := fun _ _ h => h.of_eq rfl rfl rfl }

theorem Kept.addGrant {s : State} (j : Slot) {o n : Nat}
    (h : s.Inv → 1 ≤ o ∧ o + n ≤ Config.batchSize) : Kept s (s.addGrant j o n) :=
  { Kept.refl s with
    ordered := fun _ _ h => h.of_eq rfl rfl rfl
    inv := fun i =>
      { cursors := i.cursors
        wlens := i.wlens
        tiling := i.tiling
        entries := i.entries
        sentinel := i.sentinel
        memory := i.memory
        queues := i.queues
        downlink := i.downlink
        halt := i.halt
        grants := fun g hg => by
          simp only [State.addGrant, List.mem_append, List.mem_singleton] at hg
          rcases hg with hg | rfl
          · exact i.grants g hg
          · exact h i } }

/-- Opening a batch (40_batch_buffer.md R131 step A5, R134 step P4), after what the handlers led to from `o`: there is
room for one, and the newest holds data. -/
theorem Kept.openBatch {o s : State} (k : Kept o s)
    (h : o.Inv → (s.bbProduced - s.bbConsumed).toNat ≠ Config.batchCount)
    (hn : s.bbProduced ≠ s.bbConsumed → 1 < (s.wlen[slotOf (s.bbProduced - 1)]).toNat) :
    Kept o { s with bbProduced := s.bbProduced + 1 } := by
  have lt : o.Inv → (s.bbProduced - s.bbConsumed).toNat < Config.batchCount := fun i =>
    Nat.lt_of_le_of_ne (k.inv i).cursors (h i)
  have key : o.Inv → ((s.bbProduced + 1) - s.bbConsumed).toNat = (s.bbProduced - s.bbConsumed).toNat + 1 := by
    intro i
    have h1 := lt i
    simp only [Config.batchCount] at h1
    exact cursor_succ_sub (by omega)
  exact
    { k with
      inv := fun i =>
        { k.inv i with
          cursors := by
            have h1 := lt i
            have h3 := key i
            simp only [State.cursorsOk, Config.batchCount] at *
            omega
          wlens := (k.inv i).wlens
          tiling := (k.inv i).tiling
          sentinel := (k.inv i).sentinel
          memory := (k.inv i).memory
          queues := (k.inv i).queues
          entries := (k.inv i).entries
          downlink := (k.inv i).downlink
          halt := (k.inv i).halt
          grants := (k.inv i).grants }
      ordered := fun i v ho => (k.ordered i v ho).openBatch (lt i) hn
      grows := fun i => by
        have h2 := k.grows i
        have h3 := key i
        simp only at *
        omega }

end Sys2Proof.Machine
end

