-- ==== Sys2Proof/Laws/Producer.lean ====
section
/-! SUPPORT. Each operation of the interrupt context, with any preemption, satisfies `Keeps`; hence so
does a whole handler, and a preemption point. One lemma per shared operation. -/

namespace Sys2Proof.Machine

variable {pt : Hook}

/-- `BB.APPEND` (40_batch_buffer.md R132): a granted offset lies in 1.., and the grant in the batch; where it fails, the
batch has no room. -/
theorem append_keeps (hp : Hooked pt) (slot : Slot) {size : Nat} (h1 : 1 ≤ size) (n : Nat) {o s : State}
    (k : Kept o s) (ho : o.Inv → ∀ v, o.OrderedFrom v → s.openedFrom v slot) :
    Keeps o (fun r t => (∀ off, r = some off → o.Inv → 1 ≤ off ∧ off + size ≤ Config.batchSize) ∧
      (r = none → Config.batchSize < (t.wlen[slot]).toNat + size)) (append pt slot size n s) := by
  induction n generalizing s with
  | zero => trivial
  | succ n ih =>
    have step : ∀ u, Kept s u → o.Inv → ∀ v, o.OrderedFrom v → u.openedFrom v slot := fun u hu i v h =>
      hu.opened (k.inv i) (k.ordered i v h) (ho i v h)
    unfold append
    dsimp only
    split
    · rename_i hfull
      exact Keeps.ok k ⟨by simp, fun _ => hfull⟩
    · rename_i hroom
      refine Keeps.pointStep hp k fun u hu => ?_
      split
      · rename_i hcas
        rw [← hcas] at hroom ⊢
        refine Keeps.ok ((k.trans hu).extend slot h1 (by omega) (step u hu)) ⟨?_, by simp⟩
        rintro off ⟨⟩ i
        exact ⟨(((k.trans hu).inv i).wlens slot).1, by omega⟩
      · exact Keeps.pointStep hp (k.trans hu) fun v hv =>
          ih ((k.trans hu).trans hv) (step v (hu.trans hv))

/-- What a grant satisfies. -/
def GrantOk (s : State) (size : Nat) (r : Option (Slot × Nat)) : Prop :=
  ∀ g, r = some g → s.Inv → 1 ≤ g.2 ∧ g.2 + size ≤ Config.batchSize

theorem appendGrant_keeps (hp : Hooked pt) (slot : Slot) {size : Nat} (h1 : 1 ≤ size) {o s : State}
    (k : Kept o s) (ho : o.Inv → ∀ v, o.OrderedFrom v → s.openedFrom v slot) :
    Keeps o (fun r t => GrantOk o size r ∧ (r = none → Config.batchSize < (t.wlen[slot]).toNat + size))
      (appendGrant pt slot size s) := by
  refine Keeps.bind (append_keeps hp slot h1 _ k ho) fun r u hu hr => ?_
  refine Keeps.ok hu ⟨?_, fun h => hr.2 (by simpa using h)⟩
  rintro g hg i
  cases r with
  | none => simp at hg
  | some off => simp only [Option.map_some, Option.some.injEq] at hg; subst hg; exact hr.1 off rfl i

/-- The congestion signal of step A4 (R131). -/
theorem uplinkCongestion_keeps (hp : Hooked pt) {o s : State} (k : Kept o s) :
    Keeps o (fun _ _ => True) (uplinkCongestion pt s) :=
  Keeps.point hp (k.trans (Kept.signal s _)) fun _ hu => Keeps.ok (hu.trans (Kept.uplinkFlag _ _)) trivial

/-- `BB.ALLOC`, the rounds from A1 (R131). -/
theorem allocRounds_keeps (hp : Hooked pt) {size : Nat} (h1 : 1 ≤ size) (h2 : size ≤ Config.batchPayloadMax)
    (n : Nat) {o s : State} (k : Kept o s) :
    Keeps o (fun r _ => GrantOk o size r) (allocRounds pt size n s) := by
  have h63 : size ≤ 63 := h2
  induction n generalizing s with
  | zero => trivial
  | succ n ih =>
    unfold allocRounds
    refine Keeps.pointStep hp k fun u hu => ?_
    have hc : u.bbConsumed = s.bbConsumed := hu.consumed
    refine Keeps.bind (P := fun r t => Kept s t ∧ GrantOk o size r ∧
      (r = none → s.bbProduced ≠ u.bbConsumed → 1 < (t.wlen[slotOf (s.bbProduced - 1)]).toNat)) ?_
      fun r v hv hr => ?_
    · split
      · rename_i hne
        refine Keeps.pointStep hp (k.trans hu) fun v hv => ?_
        have hsv := hu.trans hv
        have newest : o.Inv → ∀ w, o.OrderedFrom w → v.openedFrom w (slotOf (s.bbProduced - 1)) := fun i w h =>
          hsv.opened (k.inv i) (k.ordered i w h) ((k.ordered i w h).newest (hc ▸ hne))
        refine ((appendGrant_keeps hp _ h1 (k.trans hsv) newest).and
          (appendGrant_keeps hp _ h1 hsv fun _ w h => ?_)).mono (fun r t h => ?_) fun _ h => h
        · exact hsv.opened ‹_› h (h.newest (hc ▸ hne))
        · refine ⟨h.1.1, h.2.1, h.1.2.1, fun e _ => ?_⟩
          have := h.1.2.2 e
          simp only [Config.batchSize] at this
          omega
      · rename_i hne
        exact Keeps.ok (k.trans hu) ⟨hu, by simp [GrantOk], fun _ h => absurd h hne⟩
    · cases r with
      | some g => exact Keeps.ok hv hr.2.1
      | none =>
        have hsv := hr.1
        refine Keeps.pointStep hp hv fun w hw => ?_
        have hsw := hsv.trans hw
        split
        · exact Keeps.bind (uplinkCongestion_keeps hp (k.trans hsw)) fun _ _ hx _ => Keeps.ok hx (by simp [GrantOk])
        · rename_i hfull
          refine Keeps.pointStep hp (k.trans hsw) fun x hx => ?_
          have hsx := hsw.trans hx
          have hxc : x.bbConsumed = s.bbConsumed := hsx.consumed
          split
          · rename_i hcas
            have hopen : Kept o { x with bbProduced := s.bbProduced + 1 } := by
              rw [← hcas]
              refine (k.trans hsx).openBatch (fun _ => by rw [hcas, hxc, ← hc]; exact hfull) fun hne => ?_
              have := hr.2.2 rfl (by rw [hc, ← hxc, ← hcas]; exact hne)
              simp only [hcas]
              exact Nat.lt_of_lt_of_le this ((hw.trans hx).lengths _)
            refine Keeps.pointStep hp hopen fun y hy => ?_
            refine Keeps.bind (appendGrant_keeps hp _ h1 (hopen.trans hy) fun i w h => ?_) fun r z hz hr => ?_
            · refine hy.opened (hopen.inv i) (hopen.ordered i w h) ?_
              have hne : s.bbProduced + 1 ≠ x.bbConsumed := fun e => by
                have h8 := (k.inv i).cursors
                have := cursor_sub_eq_zero.2 (e.trans hxc)
                simp only [State.cursorsOk, Config.batchCount] at h8
                rw [cursor_succ_sub (by omega)] at this
                omega
              have := (hopen.ordered i w h).newest hne
              rwa [show ({ x with bbProduced := s.bbProduced + 1 } : State).bbProduced - 1 = s.bbProduced from
                BitVec.add_sub_cancel _ _] at this
            · cases r with
              | some g => exact Keeps.ok hz hr.1
              | none => exact Keeps.point hp hz fun a ha => ih ha
          · exact Keeps.point hp (k.trans hsx) fun a ha => ih ha

/-- `BB.ALLOC` (R131). -/
theorem alloc_keeps (hp : Hooked pt) (size : Nat) {o s : State} (k : Kept o s) :
    Keeps o (fun r _ => GrantOk o size r) (alloc pt size s) := by
  unfold alloc
  split
  · trivial
  · exact allocRounds_keeps hp (by omega) (by omega) _ k

/-- The bytes of a record, inside its grant (42_wire_framing.md R181). -/
theorem writeRecord_keeps (hp : Hooked pt) (slot : Slot) (off : Nat) (bs : List Byte) {o s : State}
    (k : Kept o s) (h : o.Inv → 1 ≤ off ∧ off + bs.length ≤ Config.batchSize) :
    Keeps o (fun _ _ => True) (writeRecord pt slot off bs s) := by
  induction bs generalizing off s with
  | nil => exact Keeps.ok k trivial
  | cons b bs ih =>
    have h' : o.Inv → 1 ≤ off ∧ off + 1 + bs.length ≤ Config.batchSize := fun i => by
      have := h i; simp only [List.length_cons] at this; omega
    have hk : Kept o (s.pokeBatch slot off b) :=
      { k with
        inv := fun i => (k.inv i).pokeBatch slot b (h' i).1 (by have := h' i; omega)
        ordered := fun i v ho => (k.ordered i v ho).of_eq rfl rfl rfl }
    exact Keeps.point hp hk fun u hu => ih (off + 1) hu fun i => by have := h' i; omega

/-- A producer's record (42_wire_framing.md R181, R182). -/
theorem emit_keeps (hp : Hooked pt) (bytes : List Byte) (s : State) :
    Keeps s (fun _ _ => True) (emit pt bytes s) := by
  refine Keeps.bind (alloc_keeps hp _ (Kept.refl s)) fun r u hu hr => ?_
  cases r with
  | none => exact Keeps.ok hu trivial
  | some g =>
    refine Keeps.point hp hu fun v hv => ?_
    exact Keeps.bind (writeRecord_keeps hp g.1 g.2 bytes hv fun i => hr g rfl i) fun _ w hw _ =>
      Keeps.ok hw trivial

/-- `CAN.RX` (43_can_codec.md R211). -/
theorem receive_keeps (hp : Hooked pt) (k : Chan) (s : State) :
    Keeps s (fun _ _ => True) (receive pt k s) := by
  unfold receive
  split
  · exact ⟨rfl, fun i => i.raiseFatal 4 (.chan k)⟩
  · refine Keeps.point hp (Kept.refl s) fun u hu => ?_
    split
    · trivial
    · refine Keeps.point hp hu fun v hv => Keeps.point hp hv fun w hw => ?_
      refine Keeps.bind (Keeps.after hw (emit_keeps hp _ w)) fun r x hx _ => ?_
      exact Keeps.point hp hx fun y hy => Keeps.ok (hy.trans (Kept.rxAck y k)) trivial

theorem Keeps.context {α : Type} {s : State} {r : Res α} {P : α → State → Prop} (h : Keeps s P r) :
    Keeps s P (inInterruptContext s r) := by
  unfold inInterruptContext
  split
  · exact h
  · trivial

theorem Keeps.asProducer {α : Type} {s : State} {sid : BitVec 4} {r : Res α} {P : α → State → Prop}
    (h : Keeps s P r) : Keeps s P (asProducerOf s sid r) := by
  unfold asProducerOf
  split
  · exact h
  · trivial

theorem Keeps.map {α β : Type} {s : State} {r : Res α} {f : α → β} {P : α → State → Prop}
    (h : Keeps s P r) : Keeps s (fun _ _ => True) (r.map f) :=
  Keeps.bind h fun _ _ hu _ => Keeps.ok hu trivial

theorem allocOp_keeps (hp : Hooked pt) (size : Nat) (s : State) :
    Keeps s (fun _ _ => True) (allocOp pt size s) := by
  refine Keeps.context (Keeps.bind (alloc_keeps hp size (Kept.refl s)) fun r u hu hr => ?_)
  cases r with
  | none => exact Keeps.ok hu trivial
  | some g =>
    refine Keeps.ok { hu with inv := fun i => ?_, ordered := fun i v ho => (hu.ordered i v ho).of_eq rfl rfl rfl } trivial
    exact (Kept.addGrant (s := u) g.1 fun _ => hr g rfl i).inv (hu.inv i)

theorem uplinkOp_keeps (hp : Hooked pt) (k : Chan) (f : CanFrame) (s : State) :
    Keeps s (fun _ _ => True) (uplinkOp pt k f s) :=
  Keeps.context (Keeps.asProducer (Keeps.map (emit_keeps hp _ s)))

theorem receiveOp_keeps (hp : Hooked pt) (k : Chan) (s : State) :
    Keeps s (fun _ _ => True) (receiveOp pt k s) :=
  Keeps.context (Keeps.asProducer (Keeps.map (receive_keeps hp k s)))

theorem externalEmitOp_keeps (hp : Hooked pt) (sid hi : BitVec 4) (rest : List Byte) (s : State) :
    Keeps s (fun _ _ => True) (externalEmitOp pt sid hi rest s) :=
  Keeps.context (Keeps.asProducer (Keeps.map (emit_keeps hp _ s)))

theorem unassignedEmitOp_keeps (s : State) :
    Keeps s (fun _ _ => True) (unassignedEmitOp s) := Keeps.context trivial

/-- `BB.WRITE` (40_batch_buffer.md R133): the byte lies in a grant. -/
theorem writeOp_keeps (slot off : Nat) (b : Byte) (s : State) :
    Keeps s (fun _ _ => True) (writeOp slot off b s) := by
  refine Keeps.context (Keeps.map (P := fun _ _ => True) ?_)
  unfold writeGranted
  split
  · trivial
  · rename_i g hg
    have hmem := List.mem_of_find?_eq_some hg
    have hcov := List.find?_some hg
    simp only [Grant.covers, Bool.and_eq_true, decide_eq_true_eq] at hcov
    split
    · trivial
    refine Keeps.ok
      { Kept.refl s with inv := fun i => ?_, ordered := fun _ _ h => h.of_eq rfl rfl rfl } trivial
    have hgr := i.grants g hmem
    have hi := i.pokeBatch g.slot b (o := off) (by omega) (by omega)
    exact
      { cursors := hi.cursors
        wlens := hi.wlens
        tiling := hi.tiling
        entries := hi.entries
        sentinel := hi.sentinel
        memory := hi.memory
        queues := hi.queues
        downlink := hi.downlink
        halt := hi.halt
        grants := fun h hh => by
          simp only [List.mem_map] at hh
          obtain ⟨h0, h0m, rfl⟩ := hh
          have := i.grants h0 h0m
          unfold Grant.wrote
          split <;> exact this }

/-- Every operation of the interrupt context (60_exceptions.md R253). -/
theorem producerOp_keeps (hp : Hooked pt) (s : State) (i : Instr) :
    Keeps s (fun _ _ => True) (producerOp pt s i) := by
  cases i <;> first
    | exact externalEmitOp_keeps hp _ _ _ s
    | exact uplinkOp_keeps hp _ _ s
    | exact unassignedEmitOp_keeps s
    | exact allocOp_keeps hp _ s
    | exact writeOp_keeps _ _ _ s
    | exact receiveOp_keeps hp _ s
    | trivial

/-- `DL.DEPOSIT` (10_state.md R47): only where the last packet is decoded (70_reset_and_hazards.md R291). -/
theorem deposit_keeps (bytes : List Byte) (s : State) :
    Keeps s (fun _ _ => True) (deposit bytes s) := by
  unfold deposit
  split
  · trivial
  · split
    · trivial
    · rename_i hbusy
      refine Keeps.ok
        { Kept.refl s with
          ordered := fun _ _ h => h.of_eq rfl rfl rfl
          inv := fun i =>
            { cursors := i.cursors
              wlens := i.wlens
              tiling := i.tiling
              entries := i.entries
              sentinel := i.sentinel
              memory := ⟨i.memory.1, Memory.wf_ofBytes bytes⟩
              queues := i.queues
              downlink := Nat.zero_le _
              halt := i.halt
              grants := i.grants }
          packet := fun h => absurd h hbusy } trivial

theorem handlerCall_keeps (hp : Hooked pt) (s : State) (c : Call) :
    Keeps s (fun _ _ => True) (handlerCall pt s c) := by
  cases c with
  | op i => exact Keeps.map (producerOp_keeps hp s i)
  | deposit bytes =>
    show Keeps s _ (if s.running = .usbRx then deposit bytes s else .refused .wrongContext)
    split
    · exact deposit_keeps bytes s
    · trivial

theorem handlerCalls_keeps (hp : Hooked pt) (cs : List Call) {o s : State} (k : Kept o s) :
    Keeps o (fun _ _ => True) (handlerCalls pt cs s) := by
  induction cs generalizing s with
  | nil => exact Keeps.ok k trivial
  | cons c cs ih =>
    refine Keeps.bind (Keeps.after k (handlerCall_keeps hp s c)) fun _ u hu _ => ?_
    exact Keeps.point hp hu fun v hv => ih hv

/-- Interrupt entry changes the stack of handlers only (60_exceptions.md R251). -/
theorem enterHandler_cases {s t : State} {r : IrqReq} {todo : List Call}
    (h : s.enterHandler r todo = .ok () t) : t = { s with stack := ⟨r.agent, todo⟩ :: s.stack } := by
  unfold State.enterHandler at h
  split at h
  · split at h
    · injection h with _ h; exact h.symm
    · simp at h
  · injection h with _ h; exact h.symm

theorem enterHandler_answers (s : State) (r : IrqReq) (todo : List Call) :
    s.enterHandler r todo = .ok () { s with stack := ⟨r.agent, todo⟩ :: s.stack } ∨
      s.enterHandler r todo = .refused .noSuchAgent := by
  unfold State.enterHandler
  split
  · split
    · exact .inl rfl
    · exact .inr rfl
  · exact .inl rfl

/-- The return from a handler pops it and ends its grants (R251, 70_reset_and_hazards.md R285). -/
theorem leaveHandler_answers (s : State) :
    s.leaveHandler = .ok () { s with
        stack := s.stack.tail, grants := s.grants.filter fun g => decide (g.owner ≠ s.running) } ∨
      s.leaveHandler = .refused .unwrittenGrant := by
  unfold State.leaveHandler
  split
  · exact .inr rfl
  · exact .inl rfl

/-- A handler from entry to return leaves the stack of handlers as it was (R251, R252 clause 3). -/
theorem runHandler_keeps (hp : Hooked pt) (r : IrqReq) (s : State) :
    Keeps s (fun _ _ => True) (runHandler pt r s) := by
  unfold runHandler
  rcases enterHandler_answers s r [] with h | h
  · rw [h, Res.bind_ok]
    generalize hs : ({ s with stack := ⟨r.agent, []⟩ :: s.stack } : State) = e
    have back : ∀ u, Kept e u → Kept s { u with
        stack := u.stack.tail, grants := u.grants.filter fun g => decide (g.owner ≠ u.running) } := by
      intro u k
      subst hs
      exact
        { consumed := k.consumed
          fq := k.fq
          txPending := k.txPending
          popped := k.popped
          inFlight := k.inFlight
          tpTrace := k.tpTrace
          wire := k.wire
          halted := k.halted
          irqMasked := k.irqMasked
          fatalCode := k.fatalCode
          fatalInfo := k.fatalInfo
          downCong := k.downCong
          phase := k.phase
          calls := k.calls
          packet := k.packet
          stack := by rw [k.stack]; rfl
          lengths := k.lengths
          grows := fun i => k.grows (i.of_eq rfl rfl rfl rfl rfl rfl rfl rfl rfl i.halt rfl)
          ordered := fun i v o => (k.ordered (i.of_eq rfl rfl rfl rfl rfl rfl rfl rfl rfl i.halt rfl) v
            (o.of_eq rfl rfl rfl)).of_eq rfl rfl rfl
          inv := fun i =>
            have j := k.inv (i.of_eq rfl rfl rfl rfl rfl rfl rfl rfl rfl i.halt rfl)
            { cursors := j.cursors
              wlens := j.wlens
              tiling := j.tiling
              entries := j.entries
              sentinel := j.sentinel
              memory := j.memory
              queues := j.queues
              downlink := j.downlink
              halt := j.halt
              grants := fun g hg => j.grants g (List.mem_of_mem_filter hg) } }
    have haltBack : ∀ u, HaltKept e u → HaltKept s u := by
      intro u h
      subst hs
      exact ⟨h.1, fun i => h.2 (i.of_eq rfl rfl rfl rfl rfl rfl rfl rfl rfl i.halt rfl)⟩
    refine Res.Sat.bind (Q := fun _ u => Kept e u)
      ((hp e).mono (fun _ u h => h.1) haltBack) fun _ u hu => ?_
    refine Res.Sat.bind (Q := fun _ v => Kept e v)
      ((handlerCalls_keeps hp r.calls hu).mono (fun _ v h => h.1) haltBack) fun _ v hv => ?_
    rcases leaveHandler_answers v with h' | h' <;> rw [h']
    · exact ⟨back v hv, trivial⟩
    · trivial
  · rw [h]; trivial

/-- What can happen at a preemption point (60_exceptions.md R252). -/
theorem point_hooked (n : Nat) : Hooked (point n) := by
  induction n with
  | zero => exact fun s => Keeps.ok (Kept.takeArrivals s) trivial
  | succ n ih =>
    intro s
    unfold point
    dsimp only
    split
    · exact Keeps.ok (Kept.takeArrivals s) trivial
    · rename_i r others _
      have k : Kept s { s.takeArrivals with pending := others } := by
        refine (Kept.takeArrivals s).trans ?_
        apply Kept.of_eq <;> rfl
      refine Keeps.bind (Keeps.after k (runHandler_keeps ih r _)) fun _ u hu _ => ?_
      exact Keeps.after hu (ih u)

end Sys2Proof.Machine
end

