-- ==== Sys2Proof/Laws/Consumer.lean ====
section
/-! SUPPORT. Each shared operation of the main context, with any preemption, keeps the invariant, and where the batches
stand in order, their order (`Sound`): one lemma per operation. -/

namespace Sys2Proof.Machine

variable {pt : Hook} {o c : Prop}

/-- The invariant; where `o` holds, clauses 3 and 4 of 40_batch_buffer.md R140; where `c` holds, the batch handed to the
transport is closed. -/
structure Sound (o c : Prop) (s : State) : Prop where
  inv     : s.Inv
  ordered : o → s.OrderedFrom s.bbConsumed
  sent    : c → s.sentClosed

/-- The invariant alone. -/
theorem State.Inv.sound {s : State} (i : s.Inv) : Sound False False s := ⟨i, False.elim, False.elim⟩

/-- A good state whose batches stand in order (`State.Orderly`). -/
theorem Sound.orderly {s : State} : Sound True True s ↔ s.Inv ∧ s.Orderly :=
  ⟨fun i => ⟨i.inv, i.ordered trivial, i.sent trivial⟩, fun h => ⟨h.1, fun _ => h.2.ordered, fun _ => h.2.sent⟩⟩

/-- An update of what only the invariant speaks of. -/
theorem Sound.update {s t : State} (h : Sound o c s) (i : t.Inv) (h1 : t.bbProduced = s.bbProduced)
    (h2 : t.bbConsumed = s.bbConsumed) (h3 : t.wlen = s.wlen) (h4 : t.txPending = s.txPending) : Sound o c t where
  inv := i
  ordered p := by rw [h2]; exact (h.ordered p).of_eq h1 h2 h3
  sent p := by have := h.sent p; unfold State.sentClosed at *; rwa [h1, h2, h4]

/-- An update of nothing that the invariant or the order speaks of. -/
theorem Sound.of_eq {s t : State} (h : Sound o c s) (h1 : t.bbProduced = s.bbProduced)
    (h2 : t.bbConsumed = s.bbConsumed) (h3 : t.wlen = s.wlen) (hr : t.ranges = s.ranges) (h4 : t.batch = s.batch)
    (h5 : t.dlBuf = s.dlBuf) (h6 : t.fq = s.fq) (h7 : t.dlRd = s.dlRd) (h8 : t.dlLen = s.dlLen) (h9 : t.haltOk)
    (h10 : t.grants = s.grants) (h11 : t.txPending = s.txPending) : Sound o c t :=
  h.update (h.inv.of_eq h1 h2 h3 hr h4 h5 h6 h7 h8 h9 h10) h1 h2 h3 h11

/-- What handlers lead to from a good state is one. -/
theorem Kept.sound {s t : State} (k : Kept s t) (i : Sound o c s) : Sound o c t where
  inv := k.inv i.inv
  ordered p := by rw [k.consumed]; exact k.ordered i.inv _ (i.ordered p)
  sent p h := Nat.le_trans (i.sent p (k.txPending ▸ h)) (k.grows i.inv)

/-- A fatal halt with the invariant. -/
abbrev HaltGood (t : State) : Prop := t.halted = true ∧ t.Inv

/-- The operation, whatever it answers or halts in, leaves a good state. -/
abbrev Res.Good {α : Type} (o c : Prop) (r : Res α) : Prop := r.Sat (fun _ t => Sound o c t) HaltGood

/-- After a preemption point of a good state the operation goes on from a good state. -/
theorem Hooked.go {β : Type} {Q : β → State → Prop} (hp : Hooked pt) {s : State} (i : Sound o c s)
    {f : Unit → State → Res β} (hf : ∀ u, Kept s u → Sound o c u → (f () u).Sat Q HaltGood) :
    ((pt s).bind f).Sat Q HaltGood :=
  Res.Sat.bind (Q := fun _ u => Kept s u) ((hp s).mono (fun _ _ h => h.1) fun _ h => ⟨h.1, h.2 i.inv⟩)
    fun _ u hu => hf u hu (hu.sound i)

theorem Hooked.good (hp : Hooked pt) {s : State} (i : Sound o c s) : (pt s).Good o c :=
  (hp s).mono (fun _ _ h => h.1.sound i) fun _ h => ⟨h.1, h.2 i.inv⟩

theorem Res.Good.bind {α β : Type} {Q : β → State → Prop} {r : Res α} {f : α → State → Res β}
    (h : r.Good o c) (hf : ∀ a u, Sound o c u → (f a u).Sat Q HaltGood) : (r.bind f).Sat Q HaltGood :=
  Res.Sat.bind h hf

theorem Res.Good.map {α β : Type} {r : Res α} {f : α → β} (h : r.Good o c) : (r.map f).Good o c :=
  Res.Good.bind h fun _ _ i => i

theorem Res.Good.context {α : Type} {s : State} {r : Res α} (h : r.Good o c) :
    (inMainContext s r).Good o c := by
  unfold inMainContext
  split
  · trivial
  · exact h

/-- What an interrupt's operation keeps, it keeps for a good state. -/
theorem Keeps.good {α : Type} {s : State} {P : α → State → Prop} {r : Res α} (h : Keeps s P r)
    (i : Sound o c s) : r.Good o c := h.mono (fun _ _ h => h.1.sound i) fun _ h => ⟨h.1, h.2 i.inv⟩

theorem Sound.withPopped {s : State} (i : Sound o c s) (p : Option (Slot × Nat)) :
    Sound o c { s with popped := p } := i.of_eq rfl rfl rfl rfl rfl rfl rfl rfl rfl i.inv.halt rfl rfl

/-- Nothing is handed to the transport any more. -/
theorem Sound.sentDone {s : State} (i : Sound o c s) {c' : Prop} : Sound o c' { s with txPending := false } where
  inv := i.inv.of_eq rfl rfl rfl rfl rfl rfl rfl rfl rfl i.inv.halt rfl
  ordered p := (i.ordered p).of_eq rfl rfl rfl
  sent _ h := absurd h Bool.false_ne_true

theorem popClosed_good (slot : Slot) {s : State} (i : Sound o c s) (h : 2 ≤ (s.bbProduced - s.bbConsumed).toNat) :
    (popClosed slot s).Sat (fun r t => Sound o c t ∧
      (r.isSome = true → 2 ≤ (t.bbProduced - t.bbConsumed).toNat)) HaltGood := by
  unfold popClosed
  dsimp only
  split <;> exact ⟨i.withPopped _, fun _ => h⟩

/-- `BB.POP` (40_batch_buffer.md R134): the batch it returns is closed. -/
theorem pop_closed (hp : Hooked pt) {s : State} (i : Sound o c s) :
    (pop pt s).Sat (fun r t => Sound o c t ∧
      (r.isSome = true → 2 ≤ (t.bbProduced - t.bbConsumed).toNat)) HaltGood := by
  unfold pop
  refine hp.go i fun u hu iu => ?_
  dsimp only
  split
  · exact ⟨iu.withPopped _, by simp⟩
  · rename_i hne
    have h0 : (u.bbProduced - s.bbConsumed).toNat ≠ 0 := fun e => hne (cursor_sub_eq_zero.1 e)
    split
    · rename_i hnew
      have h1 : (u.bbProduced - s.bbConsumed).toNat = 1 := cursor_sub_one hnew
      refine hp.go iu fun v hv iv => ?_
      split
      · exact ⟨iv.withPopped _, by simp⟩
      · rename_i hlen
        refine hp.go iv fun w hw iw => ?_
        have hwc : w.bbConsumed = s.bbConsumed := by rw [hw.consumed, hv.consumed, hu.consumed]
        have hgrow : 1 ≤ (w.bbProduced - s.bbConsumed).toNat := by
          have a := hv.grows iu.inv
          have b := hw.grows iv.inv
          rw [hv.consumed, hu.consumed] at a
          rw [hwc, hv.consumed, hu.consumed] at b
          omega
        have hclose : Kept w (if w.bbProduced = u.bbProduced then { w with bbProduced := u.bbProduced + 1 } else w) := by
          split
          · rename_i hcas
            rw [← hcas]
            refine (Kept.refl w).openBatch (fun _ => ?_) fun _ => ?_
            · rw [hcas, hwc, h1]
              decide
            · have e : w.bbProduced - 1 = s.bbConsumed := by rw [hcas, hnew]; exact BitVec.add_sub_cancel _ _
              simp only [e]
              have := hw.lengths (slotOf s.bbConsumed)
              omega
          · exact Kept.refl w
        refine hp.go (hclose.sound iw) fun x hx ix => popClosed_good _ ix ?_
        refine Nat.le_trans ?_ (hx.grows (hclose.inv iw.inv))
        split
        · show 2 ≤ (u.bbProduced + 1 - w.bbConsumed).toNat
          rw [hwc, cursor_succ_sub (by omega)]
          omega
        · rename_i hcas
          rw [hwc]
          have : (w.bbProduced - s.bbConsumed).toNat ≠ 1 := fun e => hcas (cursor_sub_inj (e.trans h1.symm))
          omega
    · rename_i hnew
      refine hp.go iu fun v hv iv => popClosed_good _ iv (Nat.le_trans ?_ (hv.grows iu.inv))
      rw [hu.consumed]
      have : (u.bbProduced - s.bbConsumed).toNat ≠ 1 := fun e =>
        hnew (cursor_sub_inj (e.trans (cursor_sub_one rfl).symm))
      omega

theorem pop_good (hp : Hooked pt) {s : State} (i : Sound o c s) : (pop pt s).Good o c :=
  (pop_closed hp i).mono (fun _ _ h => h.1) fun _ h => h

theorem State.Inv.disturb {s : State} (i : s.Inv) (j : Slot) : (s.disturb j).Inv := by
  apply i.of_eq <;> first | exact i.halt | simp | (simp only [State.haltOk]; simp; exact i.halt)

/-- `BB.RESET` (R135): it advances `bb.consumed` by one opened batch; of a closed one, the order stays; and with a third
opened, the batch handed to the transport is still a closed one. -/
theorem resetOldest_good (hp : Hooked pt) {c' : Prop} {s : State} (i : Sound o c s)
    (h2 : o → 2 ≤ (s.bbProduced - s.bbConsumed).toNat)
    (hs : c' → s.txPending = true → 3 ≤ (s.bbProduced - s.bbConsumed).toNat) : (resetOldest pt s).Good o c' := by
  unfold resetOldest
  split
  · trivial
  · rename_i hne
    have h0 : 1 ≤ (s.bbProduced - s.bbConsumed).toNat := by
      have : (s.bbProduced - s.bbConsumed).toNat ≠ 0 := fun e => hne (cursor_sub_eq_zero.1 e)
      omega
    refine hp.go i fun u hu iu => ?_
    have iw := (iu.inv.emptyBatch (slotOf s.bbConsumed)).disturb (slotOf s.bbConsumed)
    refine Hooked.go (o := False) (c := False) hp iw.sound fun v hv iv => ?_
    have h1 := hu.grows i.inv
    have h3 := hv.grows iw
    have h4 := hv.consumed
    simp only [State.disturb_bbProduced, State.disturb_bbConsumed, State.emptyBatch_bbProduced,
      State.emptyBatch_bbConsumed] at h3 h4
    have h5 : v.bbConsumed = s.bbConsumed := h4.trans hu.consumed
    have h6 : v.txPending = s.txPending := hv.txPending.trans ((State.disturb_txPending ..).trans hu.txPending)
    refine ⟨?_, fun p => ?_, fun p ht => ?_⟩
    · exact
        { cursors := by
            have h6 := iv.inv.cursors
            have h7 : 1 ≤ (v.bbProduced - s.bbConsumed).toNat := by rw [← h5]; omega
            simp only [State.cursorsOk] at *
            rw [cursor_sub_succ h7, ← h5]
            omega
          wlens := iv.inv.wlens
          tiling := iv.inv.tiling
          sentinel := iv.inv.sentinel
          memory := iv.inv.memory
          queues := iv.inv.queues
          entries := iv.inv.entries
          downlink := iv.inv.downlink
          halt := iv.inv.halt
          grants := iv.inv.grants }
    · have e := (iu.ordered p).emptyOldest iu.inv.cursors (Nat.le_trans (h2 p) h1)
      rw [hu.consumed] at e
      have e' := hv.ordered iw _ (e.of_eq (by simp) (by simp) (by simp))
      exact e'.consume rfl rfl rfl
    · have := hs p (h6.symm.trans ht)
      show 2 ≤ (v.bbProduced - (s.bbConsumed + 1)).toNat
      rw [hu.consumed] at h3
      rw [hu.consumed] at h1
      rw [h5] at h3
      rw [cursor_sub_succ (by omega)]
      omega

theorem Sound.drawn {s : State} (i : Sound o c s) : Sound o c s.drawn :=
  i.of_eq rfl rfl rfl rfl rfl rfl rfl rfl rfl i.inv.halt rfl rfl

/-- `BB.READ` (R137). -/
theorem readPopped_good (slot off : Nat) {s : State} (i : Sound o c s) : (readPopped slot off s).Good o c := by
  unfold readPopped
  split
  · split
    · exact i.drawn
    · trivial
  · trivial

theorem Sound.unsent {s : State} (i : Sound o c s) : Sound o False s := ⟨i.inv, i.ordered, False.elim⟩

theorem discardRounds_good (hp : Hooked pt) (n : Nat) {s : State} (i : Sound o False s) :
    (discardRounds pt n s).Good o False := by
  induction n generalizing s with
  | zero => trivial
  | succ n ih =>
    unfold discardRounds
    refine (pop_closed hp i).bind fun r u hu => ?_
    cases r with
    | none => exact hu.1
    | some g =>
      refine hp.go hu.1 fun v hv iv => ?_
      refine (resetOldest_good hp iv (fun _ => Nat.le_trans (hu.2 rfl) (hv.grows hu.1.inv)) False.elim).bind fun _ w iw => ?_
      exact hp.go iw fun x _ ix => ih ix

/-- `BB.DISCARD_ALL` (R138). -/
theorem discardAll_good (hp : Hooked pt) {s : State} (i : Sound o c s) {c' : Prop} : (discardAll pt s).Good o c' :=
  (discardRounds_good hp _ i.unsent).bind fun _ _ iu => hp.go iu fun _ _ iv => iv.sentDone

theorem Sound.completeFlight {s : State} (i : Sound o c s) : Sound o c s.completeFlight := by
  apply i.of_eq <;> first | exact i.inv.halt | simp | (simp only [State.haltOk]; simp; exact i.inv.halt)

theorem askReady_cases (s : State) :
    ∃ b t, s.askReady = (b, t) ∧ (∀ {o c}, Sound o c s → Sound o c t) ∧ Kept { s with readyIn := t.readyIn } t := by
  unfold State.askReady
  split
  · exact ⟨_, _, rfl, fun i => i.of_eq rfl rfl rfl rfl rfl rfl rfl rfl rfl i.inv.halt rfl rfl, Kept.refl _⟩
  · refine ⟨_, _, rfl, fun i => i.drawn, ?_⟩
    apply Kept.of_eq <;> rfl

/-- `UL.PUMP` (R139): it resets the batch it handed to the transport, which is closed. -/
theorem pump_good (hp : Hooked pt) {s : State} (i : Sound o o s) : (pump pt s).Good o o := by
  obtain ⟨b, t, ht, hi, -⟩ := askReady_cases s
  have it := hi i
  unfold pump
  rw [ht]
  cases b with
  | false => exact it
  | true =>
    refine hp.go it.completeFlight fun u _ iu => ?_
    refine Res.Good.bind (o := o) (c := o) ?_ fun _ v iv => (pop_closed hp iv).bind fun r w hw => ?_
    · split
      · rename_i hs
        exact (resetOldest_good (c' := False) hp iu (fun p => iu.sent p hs) False.elim).bind fun _ v iv => hp.go iv fun w _ iw =>
          hp.good iw.sentDone
      · exact iu
    · cases r with
      | none => exact hw.1
      | some g =>
        refine hp.go hw.1 fun x hx ix => ?_
        refine hp.go (s := x.tpSend g.1 g.2) (ix.of_eq rfl rfl rfl rfl rfl rfl rfl rfl rfl ix.inv.halt rfl rfl)
          fun y hy iy => ?_
        refine ⟨iy.inv.of_eq rfl rfl rfl rfl rfl rfl rfl rfl rfl iy.inv.halt rfl,
          fun p => (iy.ordered p).of_eq rfl rfl rfl, fun _ _ => ?_⟩
        exact Nat.le_trans (Nat.le_trans (hw.2 rfl) (hx.grows hw.1.inv))
          (hy.grows (ix.inv.of_eq rfl rfl rfl rfl rfl rfl rfl rfl rfl ix.inv.halt rfl))

/-! Frame Queues. -/

/-- A state that differs from a good one in one Frame Queue, within its capacity and of admitted entries, is good. -/
theorem Sound.setFq {s : State} (i : Sound o c s) (k : Chan) {q : FrameQueue} (h : q.fill ≤ Config.fqCapacity)
    (he : ∀ (j : Fin Config.fqCapacity) (e : Entry), q.slots[j] = some e → e.wf = true) : Sound o c (s.setFq k q) :=
  i.update
    { cursors := i.inv.cursors
      wlens := i.inv.wlens
      tiling := i.inv.tiling
      sentinel := i.inv.sentinel
      memory := i.inv.memory
      queues := fun j => by
        rw [State.setFq_fq, PerChan.get_set]
        split
        · exact h
        · exact i.inv.queues j
      entries := fun m j e => by
        rw [State.setFq_fq, PerChan.get_set]
        split
        · exact he j e
        · exact i.inv.entries m j e
      downlink := i.inv.downlink
      halt := i.inv.halt
      grants := i.inv.grants } rfl rfl rfl rfl

theorem Sound.putEntry {s : State} (i : Sound o c s) (k : Chan) (v : Cursor) {e : Entry} (h : e.wf = true) :
    Sound o c (s.putEntry k v e) :=
  i.setFq k (i.inv.queues k) fun j x hx => by
    simp only [getElem_set_fin] at hx
    split at hx
    · injection hx with hx
      exact hx ▸ h
    · exact i.inv.entries k j x hx

/-- Admitted entries are built by something that keeps the state good and leaves the queues alone. -/
def BuilderGood (o c : Prop) (build : Nat → State → Res Entry) : Prop :=
  ∀ n s, Sound o c s → (build n s).Sat (fun e t => e.wf = true ∧ Sound o c t ∧ t.fq = s.fq) HaltGood

theorem enqFill_good {build : Nat → State → Res Entry} (hb : BuilderGood o c build) (k : Chan)
    (p : Cursor) (rem n : Nat) {s : State} (i : Sound o c s) :
    (enqFill k build p rem n s).Sat (fun _ t => Sound o c t ∧
      (t.fq.get k).produced = (s.fq.get k).produced ∧ (t.fq.get k).consumed = (s.fq.get k).consumed)
      HaltGood := by
  induction rem generalizing n s with
  | zero => exact ⟨i, rfl, rfl⟩
  | succ rem ih =>
    refine (hb n s i).bind fun e u hu => (ih (n + 1) (hu.2.1.putEntry k _ hu.1)).mono ?_ fun _ h => h
    rintro _ t ⟨it, h1, h2⟩
    rw [State.putEntry_fq, PerChan.get_set_same] at h1 h2
    exact ⟨it, by rw [h1, hu.2.2], by rw [h2, hu.2.2]⟩

/-- `FQ.ENQ` (41_frame_queue.md R161). -/
theorem fqEnqueue_good {build : Nat → State → Res Entry} (hb : BuilderGood o c build) (k : Chan)
    (count : Nat) {s : State} (i : Sound o c s) : (fqEnqueue k build count s).Good o c := by
  unfold fqEnqueue
  dsimp only
  split
  · trivial
  · split
    · exact i
    · refine (enqFill_good hb k _ _ 0 i).bind fun _ u hu => hu.1.setFq k ?_ (hu.1.inv.entries k)
      have h := i.inv.queues k
      have hf : min count (s.fq.get k).free ≤ Config.fqCapacity - (s.fq.get k).fill := Nat.min_le_right _ _
      simp only [FrameQueue.fill, Config.fqCapacity] at *
      rw [hu.2.2, cursor_add_sub] <;> omega

theorem Sound.moveOut {s : State} (i : Sound o c s) (k : Chan) (v : Cursor) (n : Nat) :
    Sound o c (s.moveOut k v n) := by
  induction n with
  | zero => exact i
  | succ n ih =>
    refine ih.setFq k (ih.inv.queues k) fun j x hx => ?_
    simp only [getElem_set_fin] at hx
    split at hx
    · simp at hx
    · exact ih.inv.entries k j x hx

/-- Entries are taken by something that keeps the invariant and leaves the queues alone. -/
def CallbackGood (o c : Prop) (cb : Entry → State → Res Unit) : Prop :=
  ∀ e s, Sound o c s → (cb e s).Sat (fun _ t => Sound o c t ∧ t.fq = s.fq) HaltGood

theorem deqTake_good {cb : Entry → State → Res Unit} (hc : CallbackGood o c cb) (k : Chan) (v : Cursor)
    (rem n : Nat) {s : State} (i : Sound o c s) :
    (deqTake k cb v rem n s).Sat (fun _ t => Sound o c t ∧ t.fq = s.fq) HaltGood := by
  induction rem generalizing n s with
  | zero => exact ⟨i, rfl⟩
  | succ rem ih =>
    refine (hc _ s i).bind fun _ u hu => (ih (n + 1) hu.1).bind fun es v hv => ?_
    exact ⟨hv.1, hv.2.trans hu.2⟩

/-- `FQ.DEQ` (R162). -/
theorem fqDequeue_good {cb : Entry → State → Res Unit} (hc : CallbackGood o c cb) (k : Chan) (max : Nat)
    {s : State} (i : Sound o c s) : (fqDequeue k cb max s).Good o c := by
  unfold fqDequeue
  dsimp only
  split
  · exact i
  · refine (deqTake_good hc k _ _ 0 i).bind fun es u hu => (hu.1.drawn.moveOut k _ _).setFq k ?_
      ((hu.1.drawn.moveOut k _ _).inv.entries k)
    have h := i.inv.queues k
    have hm : min max (s.fq.get k).fill ≤ (s.fq.get k).fill := Nat.min_le_right _ _
    simp only [FrameQueue.fill, Config.fqCapacity, State.moveOut_produced, State.drawn_fq] at *
    rw [hu.2, cursor_sub_add hm]
    omega

/-- `FQ.FLUSH` (R163). -/
theorem fqFlushAll_good (k : Chan) {s : State} (i : Sound o c s) : Sound o c (fqFlushAll k s) :=
  i.setFq k (by simp [FrameQueue.fill]) (i.inv.entries k)

/-- A flush of the connect command is `FQ.FLUSH` or nothing (42_wire_framing.md R184). -/
theorem flushIfAsked_eq (k : Chan) (s : State) :
    flushIfAsked k s = if Config.flushFqOnConnect then fqFlushAll k s else s := by
  unfold flushIfAsked
  split <;> rfl

theorem flushIfAsked_good (k : Chan) {s : State} (i : Sound o c s) : Sound o c (flushIfAsked k s) := by
  rw [flushIfAsked_eq]
  split
  · exact fqFlushAll_good k i
  · exact i

/-! The codec. -/

theorem callbackGood_collect : CallbackGood o c fun _ s => .ok () s := fun _ _ i => ⟨i, rfl⟩

theorem Kept.traceHw (s : State) (k : Chan) (e : HwEvent) : Kept s (s.traceHw k e) := Kept.setHw s k _

theorem Kept.txWrite (s : State) (k : Chan) (n : Nat) (e : TxElement) : Kept s (s.txWrite k n e) :=
  (Kept.setHw s k _).trans (Kept.traceHw _ k _)

theorem Kept.txRequest (s : State) (k : Chan) (n : Nat) : Kept s (s.txRequest k n) :=
  (Kept.setHw s k _).trans (Kept.traceHw _ k _)

theorem askTxPut_cases (s : State) (k : Chan) :
    ∃ n t, s.askTxPut k = (n, t) ∧ (∀ {o c}, Sound o c s → Sound o c t) ∧ t.fq = s.fq := by
  unfold State.askTxPut
  split
  · exact ⟨_, _, rfl, fun i => i.of_eq rfl rfl rfl rfl rfl rfl rfl rfl rfl i.inv.halt rfl rfl, rfl⟩
  · exact ⟨_, _, rfl, fun i => i.drawn, rfl⟩

/-- `CAN.TXSLOT` (43_can_codec.md R215). -/
theorem txSlot_good (k : Chan) : CallbackGood o c (txSlot k) := by
  intro e s i
  obtain ⟨n, t, ht, hi, hq⟩ := askTxPut_cases s k
  unfold txSlot
  rw [ht]
  dsimp only
  split
  · exact ⟨rfl, (hi i).inv.raiseFatal 4 (.chan k)⟩
  · exact ⟨(((Kept.txWrite t k n _).trans (Kept.txRequest _ k n)).sound (hi i)), by simpa using hq⟩

/-- The callbacks of `FQ.DEQ`. -/
theorem runCallback_good (k : Chan) (cb : Callback) : CallbackGood o c (runCallback k cb) := by
  cases cb with
  | txSlot => exact txSlot_good k
  | collect => exact callbackGood_collect

theorem askTxFree_cases (s : State) (k : Chan) :
    ∃ n t, s.askTxFree k = (n, t) ∧ (∀ {o c}, Sound o c s → Sound o c t) := by
  unfold State.askTxFree
  split
  · exact ⟨_, _, rfl, fun i => i.of_eq rfl rfl rfl rfl rfl rfl rfl rfl rfl i.inv.halt rfl rfl⟩
  · exact ⟨_, _, rfl, fun i => i.drawn⟩

/-- `CAN.PUMP` (R214). -/
theorem transmitPump_good (hp : Hooked pt) (k : Chan) {s : State} (i : Sound o c s) :
    (transmitPump pt k s).Good o c := by
  obtain ⟨n, t, ht, hi⟩ := askTxFree_cases s k
  unfold transmitPump
  rw [ht]
  dsimp only
  split
  · trivial
  · exact hp.go (hi i) fun u _ iu => (fqDequeue_good (txSlot_good k) k n iu).bind fun _ _ iv => iv

theorem configure_good (k : Chan) (step : Nat) (event : Bool → HwEvent) {s : State} (i : Sound o c s) :
    (configure k step event s).Good o c := by
  unfold configure State.askCfg
  split
  rename_i b t hb
  have it : Sound o c t := by
    split at hb <;> obtain ⟨-, rfl⟩ := Prod.mk.inj hb
    · exact i.of_eq rfl rfl rfl rfl rfl rfl rfl rfl rfl i.inv.halt rfl rfl
    · exact i.drawn
  have ie := (Kept.traceHw t k (event b)).sound it
  dsimp only
  split
  · exact ie
  · show HaltGood ((t.traceHw k (event b)).raiseFatal 5 (.initStep k step))
    exact ⟨rfl, ie.inv.raiseFatal _ _⟩

/-- `CAN.INIT` (R216). -/
theorem initController_good (hp : Hooked pt) (k : Chan) {s : State} (i : Sound o c s) :
    (initController pt k s).Good o c := by
  unfold initController
  refine (configure_good k 1 _ i).bind fun _ u iu => hp.go iu fun v _ iv => ?_
  refine (configure_good k 2 _ iv).bind fun _ w iw => hp.go iw fun x _ ix => ?_
  exact (configure_good k 3 _ ix).bind fun _ y iy =>
    iy.of_eq rfl rfl rfl rfl rfl rfl rfl rfl rfl iy.inv.halt rfl rfl

/-! Downlink. -/

/-- A decoded CAN record lies in the bytes it was decoded from (42_wire_framing.md R189). -/
theorem decCan_size {bs : List Byte} {f : CanFrame} (h : decCan bs = some f) : f.size ≤ bs.length := by
  unfold decCan at h
  split at h
  · exact nomatch h
  · dsimp only at h
    split at h <;> split at h <;> first
      | (simp at h; done)
      | (obtain ⟨h1, h2⟩ := withPayload_some h
         simp only [CanFrame.size, CanFrame.idLen, h1, CanId.isExt, List.length_cons, Bool.false_eq_true, if_true, if_false]
         omega)

end Sys2Proof.Machine
end

