-- ==== Sys2Proof/Laws/Decoder.lean ====
section
/-! SUPPORT. The downlink side and the main loop, with any preemption, keep the invariant: one lemma
per operation; then every meaning and the step. -/

namespace Sys2Proof.Machine

variable {pt : Hook} {o c : Prop}

theorem packetRest_length (s : State) : s.packetRest.length = s.dlLen - s.dlRd := by
  simp [State.packetRest]

/-- The arbitration word has bit 31 zero, `xtd` at bit 30, and beside a standard id nothing in bits 17:0 (30_encoding.md
R106, R111). -/
theorem arbWord_bits (rtr : Bool) (id : CanId) :
    (arbWord rtr id).getLsbD 31 = false ∧ (arbWord rtr id).getLsbD 30 = id.isExt ∧
      (id.isExt = false → (arbWord rtr id).extractLsb' 0 18 = 0) := by
  cases id
  · refine ⟨?_, ?_, fun _ => ?_⟩
    · cases rtr <;> simp [arbWord, CanId.isExt, Config.xtdBit, Config.rtrBit, Config.stdIdShift, Config.stdIdBits]
    · cases rtr <;> simp [arbWord, CanId.isExt, Config.xtdBit, Config.rtrBit, Config.stdIdShift, Config.stdIdBits]
    · apply BitVec.eq_of_getLsbD_eq
      intro i hi
      have h1 : (0x20000000 : Word).getLsbD i = false := by
        have : ∀ j : Fin 18, (0x20000000 : Word).getLsbD j.val = false := by decide
        exact this ⟨i, hi⟩
      cases rtr
      · simp [arbWord, CanId.isExt, Config.xtdBit, Config.rtrBit, Config.stdIdShift, hi, BitVec.getLsbD_shiftLeft]
      · simp [arbWord, CanId.isExt, Config.xtdBit, Config.rtrBit, Config.stdIdShift, hi, BitVec.getLsbD_shiftLeft]
        exact h1
  · refine ⟨?_, ?_, fun h => nomatch h⟩
    · cases rtr <;> simp [arbWord, CanId.isExt, Config.xtdBit, Config.rtrBit, Config.extIdBits]
    · cases rtr <;> simp [arbWord, CanId.isExt, Config.xtdBit, Config.rtrBit, Config.extIdBits]

/-- What makes an entry one the rules admit (`Entry.wf`). -/
theorem Entry.wf_of {e : Entry} (h1 : e.dlc.toNat ≤ Config.maxData) (h2 : e.arb.getLsbD 31 = false)
    (h3 : e.arb.getLsbD 30 = false → e.arb.extractLsb' 0 18 = 0) : e.wf = true := by
  unfold Entry.wf Entry.dlcOk Entry.arbOk
  simp only [Config.xtdBit, h2, Bool.not_false, Bool.true_and, Bool.and_eq_true,
    decide_eq_true_eq, Bool.or_eq_true]
  refine ⟨h1, ?_⟩
  cases h : e.arb.getLsbD 30
  · exact .inr (h3 h)
  · exact .inl rfl

/-- The entry of a record is one the rules admit (R108). -/
theorem entryFor_wf (s : State) (f : CanFrame) : (s.entryFor f).wf = true := by
  obtain ⟨h1, h2, h3⟩ := arbWord_bits f.rtr f.id
  refine Entry.wf_of ?_ h1 fun e => h3 (h2.symm.trans e)
  have h : f.data.bytes.length ≤ 8 := f.data.fits
  show (BitVec.ofNat 4 f.data.bytes.length).toNat ≤ 8
  simp only [BitVec.toNat_ofNat]
  omega

/-- A free entry brought into range is one the rules admit. -/
theorem entryInRange_wf (e : Entry) : (entryInRange e).wf = true := by
  have hb : ∀ n, (entryInRange e).arb.getLsbD n =
      (e.arb.getLsbD n && (if e.arb.getLsbD 30 then (0x7FFFFFFF : Word) else 0x3FFC0000).getLsbD n) :=
    fun n => BitVec.getLsbD_and
  refine Entry.wf_of ?_ ?_ fun h => ?_
  · show (BitVec.ofNat 4 (e.dlc.toNat % (Config.maxData + 1))).toNat ≤ Config.maxData
    simp only [BitVec.toNat_ofNat, Config.maxData]
    omega
  · rw [hb]
    split <;> exact Bool.and_false _
  · rw [hb] at h
    apply BitVec.eq_of_getLsbD_eq
    intro i hi
    have h0 : ∀ j : Fin 18, (0x3FFC0000 : Word).getLsbD j.val = false := by decide
    cases he : e.arb.getLsbD 30
    · simp only [BitVec.getLsbD_extractLsb', Nat.zero_add, hb, he, hi, decide_true,
        Bool.false_eq_true, if_false, h0 ⟨i, hi⟩, Bool.and_false]
      simp
    · rw [he] at h
      exact absurd h (by decide)

/-- What is published of a caller's entry is one the rules admit. -/
theorem entryAdmitted_wf (e free : Entry) : (entryAdmitted e free).wf = true := by
  have h := entryInRange_wf free
  simp only [Entry.wf, Bool.and_eq_true] at h ⊢
  constructor
  · by_cases hd : e.dlcOk = true
    · rw [Entry.dlcOk, show (entryAdmitted e free).dlc = e.dlc from if_pos hd]; exact hd
    · rw [Entry.dlcOk, show (entryAdmitted e free).dlc = (entryInRange free).dlc from if_neg hd]; exact h.1
  · by_cases ha : e.arbOk = true
    · rw [Entry.arbOk, show (entryAdmitted e free).arb = e.arb from if_pos ha]; exact ha
    · rw [Entry.arbOk, show (entryAdmitted e free).arb = (entryInRange free).arb from if_neg ha]; exact h.2

/-- Of a caller's entry everything the rules admit is published. -/
theorem entryAdmitted_published (e free : Entry) : publishedAs e (entryAdmitted e free) :=
  ⟨entryAdmitted_wf e free, rfl, fun h => if_pos h, fun h => if_pos h⟩

/-- A caller's entry that the rules admit is published as it is. -/
theorem publishedAs.eq_of_wf {r e : Entry} (h : publishedAs r e) (hr : r.wf = true) : e = r := by
  simp only [Entry.wf, Bool.and_eq_true] at hr
  obtain ⟨-, h1, h2, h3⟩ := h
  cases e
  cases r
  simp_all

/-- `CAN.TXBUILD` of a record that lies in the packet (43_can_codec.md R213). -/
theorem txBuildFrame_good {f : CanFrame} {s : State} (i : Sound o c s)
    (h : s.dlRd + f.size ≤ s.dlLen) :
    (txBuildFrame f s).Sat (fun e t => e.wf = true ∧ Sound o c t ∧ t.fq = s.fq) HaltGood :=
  ⟨entryFor_wf s f, i.update
    { cursors := i.inv.cursors
      wlens := i.inv.wlens
      tiling := i.inv.tiling
      sentinel := i.inv.sentinel
      memory := i.inv.memory
      queues := i.inv.queues
      entries := i.inv.entries
      downlink := h
      halt := i.inv.halt
      grants := i.inv.grants } rfl rfl rfl rfl, rfl⟩

/-- Every builder of `FQ.ENQ` (41_frame_queue.md R161). -/
theorem runBuilder_good (b : Builder) : BuilderGood o c (runBuilder b) := by
  intro n s i
  cases b with
  | txBuild =>
    show (txBuild s).Sat _ _
    unfold txBuild
    split
    · rename_i f hf
      have h := decCan_size hf
      refine txBuildFrame_good i ?_
      rw [packetRest_length] at h
      have h3 : 3 ≤ f.size := by simp only [CanFrame.size, CanFrame.idLen]; split <;> omega
      omega
    · trivial
  | entries es =>
    unfold runBuilder
    dsimp only
    split
    · exact ⟨entryAdmitted_wf _ _, i.drawn, rfl⟩
    · exact ⟨entryInRange_wf _, i.drawn, rfl⟩

/-- `FQ.ENQ` of one entry: one call of the builder, from the state of the call (R161). -/
theorem fqEnqueue_one (k : Chan) (build : Nat → State → Res Entry) (s : State) :
    fqEnqueue k build 1 s =
      if (s.fq.get k).free = 0 then .ok false s
      else (build 0 s).bind fun e t =>
        .ok true ((t.putEntry k ((s.fq.get k).produced + 0) e).setFq k
          { (t.putEntry k ((s.fq.get k).produced + 0) e).fq.get k with
            produced := (s.fq.get k).produced + 1 }) := by
  unfold fqEnqueue
  dsimp only
  by_cases h : (s.fq.get k).free = 0
  · simp [h]
  · have h1 : min 1 (s.fq.get k).free = 1 := by omega
    simp only [h1, h, one_ne_zero, if_false]
    unfold enqFill
    rw [Res.bind_assoc]
    rfl

/-- `DL.CAN` (42_wire_framing.md R185). -/
theorem downlinkFrame_good (hp : Hooked pt) (k : Chan) (f : CanFrame) {s : State} (i : Sound o c s) :
    (downlinkFrame pt k f s).Good o c := by
  unfold downlinkFrame
  split
  · exact ⟨rfl, i.inv.raiseFatal 3 _⟩
  · rename_i hfit
    have h3 : 3 ≤ f.size := by simp only [CanFrame.size, CanFrame.idLen]; split <;> omega
    refine hp.go i fun u hu iu => ?_
    obtain ⟨r1, r2, r3⟩ := hu.packet (by omega)
    rw [fqEnqueue_one]
    split
    · rw [Res.bind_ok]
      refine hp.go iu fun v hv iv => ?_
      obtain ⟨q1, q2, q3⟩ := hv.packet (by omega)
      rw [if_neg Bool.false_ne_true]
      unfold downlinkCongestion
      rw [Res.bind_assoc]
      refine hp.go (s := v.signal .downlinkCongestion)
        (iv.of_eq rfl rfl rfl rfl rfl rfl rfl rfl rfl iv.inv.halt rfl rfl) fun w hw iw => ?_
      obtain ⟨w1, w2, w3⟩ := hw.packet (by simp; omega)
      refine hp.go (s := w.downlinkFlag true)
        (iw.of_eq rfl rfl rfl rfl rfl rfl rfl rfl rfl iw.inv.halt rfl rfl) fun x hx ix => ?_
      obtain ⟨x1, x2, x3⟩ := hx.packet (by simp at *; omega)
      refine Res.Sat.bind (R := fun _ t => Sound o c t) (txBuildFrame_good ix (by simp at *; omega)) fun _ y hy => ?_
      exact hy.2.1
    · rename_i hfree
      rw [Res.bind_assoc]
      refine (txBuildFrame_good iu (by omega)).bind fun e t ht => ?_
      rw [Res.bind_ok]
      have ie := ht.2.1.putEntry k ((u.fq.get k).produced + 0) ht.1
      have it : Sound o c ((t.putEntry k ((u.fq.get k).produced + 0) e).setFq k
          { (t.putEntry k ((u.fq.get k).produced + 0) e).fq.get k with
            produced := (u.fq.get k).produced + 1 }) := by
        refine ie.setFq k ?_ (ie.inv.entries k)
        have hq := iu.inv.queues k
        have hf : (u.fq.get k).free ≠ 0 := hfree
        simp only [FrameQueue.fill, FrameQueue.free, Config.fqCapacity, State.putEntry_fq,
          PerChan.get_set_same, ht.2.2] at *
        rw [cursor_succ_sub] <;> omega
      refine hp.go it fun v _ iv => ?_
      rw [if_pos rfl]
      exact iv

/-- The read cursor moves within the packet. -/
theorem Sound.withRd {s t : State} (i : Sound o c t) (h : s = { t with dlRd := s.dlRd }) (hr : s.dlRd ≤ s.dlLen) :
    Sound o c s := by
  rw [h] at hr ⊢
  exact i.update
    { cursors := i.inv.cursors
      wlens := i.inv.wlens
      tiling := i.inv.tiling
      sentinel := i.inv.sentinel
      memory := i.inv.memory
      queues := i.inv.queues
      entries := i.inv.entries
      downlink := hr
      halt := i.inv.halt
      grants := i.inv.grants } rfl rfl rfl rfl

/-- `DL.EXT` (R186). -/
theorem external_good (sid : BitVec 4) {s : State} (i : Sound o c s) : (external sid s).Good o c := by
  unfold external State.askExtLen
  split
  rename_i n t ht
  have it : Sound o c t ∧ t.dlRd = s.dlRd ∧ t.dlLen = s.dlLen := by
    split at ht <;> obtain ⟨-, rfl⟩ := Prod.mk.inj ht
    · exact ⟨i.of_eq rfl rfl rfl rfl rfl rfl rfl rfl rfl i.inv.halt rfl rfl, rfl, rfl⟩
    · exact ⟨i, rfl, rfl⟩
  split
  · rename_i hn
    refine it.1.withRd (s := { t with dlRd := t.dlRd + n }) rfl ?_
    have h := it.1.inv.downlink
    simp only [State.downlinkOk] at *
    omega
  · exact ⟨rfl, it.1.inv.raiseFatal 3 _⟩

/-- `BB.DISCARD_ALL` leaves a packet under decoding as it is. -/
theorem pop_dl (hp : Hooked pt) {s : State} (h : s.dlRd < s.dlLen) :
    (pop pt s).Sat (fun _ t => t.dlRd = s.dlRd ∧ t.dlLen = s.dlLen) fun _ => True := by
  have go : ∀ {β : Type} {u : State} {f : Unit → State → Res β} {Q : β → State → Prop},
      (u.dlRd = s.dlRd ∧ u.dlLen = s.dlLen) →
      (∀ v, (v.dlRd = s.dlRd ∧ v.dlLen = s.dlLen) → (f () v).Sat Q fun _ => True) →
      ((pt u).bind f).Sat Q fun _ => True := by
    intro β u f Q hu hf
    refine Res.Sat.bind (Q := fun _ v => v.dlRd = s.dlRd ∧ v.dlLen = s.dlLen)
      ((hp u).mono (fun _ v k => ?_) fun _ _ => trivial) fun _ v hv => hf v hv
    obtain ⟨a, b, -⟩ := k.1.packet (by omega)
    exact ⟨a.trans hu.1, b.trans hu.2⟩
  have last : ∀ slot (u : State), (u.dlRd = s.dlRd ∧ u.dlLen = s.dlLen) →
      (popClosed slot u).Sat (fun _ t => t.dlRd = s.dlRd ∧ t.dlLen = s.dlLen) fun _ => True := by
    intro slot u hu
    unfold popClosed
    dsimp only
    split <;> exact hu
  unfold pop
  refine go ⟨rfl, rfl⟩ fun u hu => ?_
  dsimp only
  split
  · exact hu
  · split
    · refine go hu fun v hv => ?_
      split
      · exact hv
      · refine go hv fun w hw => go (by split <;> exact hw) fun x hx => last _ _ hx
    · exact go hu fun v hv => last _ _ hv

theorem resetOldest_dl (hp : Hooked pt) {s : State} (h : s.dlRd < s.dlLen) :
    (resetOldest pt s).Sat (fun _ t => t.dlRd = s.dlRd ∧ t.dlLen = s.dlLen) fun _ => True := by
  unfold resetOldest
  split
  · trivial
  · refine Res.Sat.bind ((hp s).mono (fun _ _ k => k.1.packet h) fun _ _ => trivial) fun _ u hu => ?_
    refine Res.Sat.bind ((hp _).mono (fun _ _ k => k.1.packet (by simp; omega)) fun _ _ => trivial)
      fun _ v hv => ?_
    simp only [State.disturb_dlRd, State.disturb_dlLen, State.emptyBatch_dlRd, State.emptyBatch_dlLen] at hv
    exact ⟨hv.1.trans hu.1, hv.2.1.trans hu.2.1⟩

theorem discardRounds_dl (hp : Hooked pt) (n : Nat) {s : State} (h : s.dlRd < s.dlLen) :
    (discardRounds pt n s).Sat (fun _ t => t.dlRd = s.dlRd ∧ t.dlLen = s.dlLen) fun _ => True := by
  induction n generalizing s with
  | zero => trivial
  | succ n ih =>
    unfold discardRounds
    refine (pop_dl hp h).bind fun r u hu => ?_
    cases r with
    | none => exact hu
    | some g =>
      refine Res.Sat.bind ((hp u).mono (fun _ _ k => k.1.packet (by omega)) fun _ _ => trivial)
        fun _ v hv => ?_
      refine (resetOldest_dl hp (s := v) (by omega)).bind fun _ w hw => ?_
      refine Res.Sat.bind ((hp w).mono (fun _ _ k => k.1.packet (by omega)) fun _ _ => trivial)
        fun _ x hx => ?_
      refine (ih (s := x) (by omega)).mono (fun _ t ht => ?_) fun _ h => h
      omega

theorem discardAll_dl (hp : Hooked pt) {s : State} (h : s.dlRd < s.dlLen) :
    (discardAll pt s).Sat (fun _ t => t.dlRd = s.dlRd ∧ t.dlLen = s.dlLen) fun _ => True := by
  refine (discardRounds_dl hp _ h).bind fun _ u hu => ?_
  refine Res.Sat.bind ((hp u).mono (fun _ _ k => k.1.packet (by omega)) fun _ _ => trivial)
    fun _ v hv => ?_
  exact ⟨hv.1.trans hu.1, hv.2.1.trans hu.2⟩

/-- The connect command (R184). -/
theorem connect_good (hp : Hooked pt) {s : State} (i : Sound o c s) (h : s.dlRd < s.dlLen) :
    (connect pt s).Good o c := by
  have go : ∀ {β : Type} {u : State} {f : Unit → State → Res β} {Q : β → State → Prop},
      (Sound o c u ∧ u.dlRd = s.dlRd ∧ u.dlLen = s.dlLen) →
      (∀ v, (Sound o c v ∧ v.dlRd = s.dlRd ∧ v.dlLen = s.dlLen) → (f () v).Sat Q HaltGood) →
      ((pt u).bind f).Sat Q HaltGood := by
    intro β u f Q hu hf
    refine hp.go hu.1 fun v hv iv => hf v ⟨iv, ?_⟩
    obtain ⟨a, b, -⟩ := hv.packet (by omega)
    exact ⟨a.trans hu.2.1, b.trans hu.2.2⟩
  have flush : ∀ k (u : State), (Sound o c u ∧ u.dlRd = s.dlRd ∧ u.dlLen = s.dlLen) →
      Sound o c (flushIfAsked k u) ∧ (flushIfAsked k u).dlRd = s.dlRd ∧ (flushIfAsked k u).dlLen = s.dlLen :=
    fun k u hu => ⟨flushIfAsked_good k hu.1, hu.2⟩
  have done : ∀ u : State, (Sound o c u ∧ u.dlRd = s.dlRd ∧ u.dlLen = s.dlLen) →
      Sound o c { u with dlRd := u.dlRd + 1 } := fun u hu =>
    hu.1.withRd (s := { u with dlRd := u.dlRd + 1 }) rfl (by show u.dlRd + 1 ≤ u.dlLen; omega)
  refine ((discardAll_good hp i).and (discardAll_dl hp h)).bind fun _ u hu => go hu fun v hv => ?_
  unfold clearFlags
  rw [Res.bind_assoc]
  refine go (u := v.uplinkFlag false) ⟨?_, hv.2⟩ fun w hw => ?_
  · exact hv.1.of_eq rfl rfl rfl rfl rfl rfl rfl rfl rfl hv.1.inv.halt rfl rfl
  refine go (u := w.downlinkFlag false) ⟨?_, hw.2⟩ fun x hx => ?_
  · exact hw.1.of_eq rfl rfl rfl rfl rfl rfl rfl rfl rfl hw.1.inv.halt rfl rfl
  refine go (u := x.signal .diagReset) ⟨?_, hx.2⟩ fun y hy => ?_
  · exact hx.1.of_eq rfl rfl rfl rfl rfl rfl rfl rfl rfl hx.1.inv.halt rfl rfl
  refine Res.Sat.bind (Q := fun _ v => Sound o c v ∧ v.dlRd = s.dlRd ∧ v.dlLen = s.dlLen) ?_ fun _ v hv => done v hv
  have each : ∀ (ks : List Chan) (u : State), (Sound o c u ∧ u.dlRd = s.dlRd ∧ u.dlLen = s.dlLen) →
      (flushOnConnect pt ks u).Sat (fun _ v => Sound o c v ∧ v.dlRd = s.dlRd ∧ v.dlLen = s.dlLen) HaltGood := by
    intro ks
    induction ks with
    | nil => exact fun u hu => hu
    | cons k ks ih => exact fun u hu => go (flush k u hu) fun v hv => ih v hv
  exact each _ _ hy

/-- `DL.CTRL` (R184). -/
theorem control_good (hp : Hooked pt) (cmd : BitVec 4) {s : State} (i : Sound o c s) (h : s.dlRd < s.dlLen) :
    (control pt cmd s).Good o c := by
  unfold control
  split
  · exact ⟨rfl, i.inv.raiseFatal _ _⟩
  · exact connect_good hp i h

theorem runRecord_good (hp : Hooked pt) {s : State} (i : Sound o c s) (h : s.dlRd < s.dlLen) (r : Instr) :
    (runRecord pt s r).Good o c := by
  cases r <;> first
    | exact connect_good hp i h
    | exact downlinkFrame_good hp _ _ i
    | exact external_good _ i
    | exact ⟨rfl, i.inv.raiseFatal _ _⟩
    | exact control_good hp _ i h
    | trivial

theorem decodeOne_good (hp : Hooked pt) {s : State} (i : Sound o c s) (h : s.dlRd < s.dlLen) :
    (decodeOne pt s).Good o c := by
  unfold decodeOne
  split
  · exact runRecord_good hp i h _
  · exact ⟨rfl, i.inv.raiseFatal 3 _⟩
  · exact i

theorem decodeLoop_good (hp : Hooked pt) (n : Nat) {s : State} (i : Sound o c s) :
    (decodeLoop pt n s).Good o c := by
  induction n generalizing s with
  | zero => exact i
  | succ n ih =>
    unfold decodeLoop
    split
    · rename_i h
      exact (decodeOne_good hp i h).bind fun _ u iu => hp.go iu fun v _ iv => ih iv
    · exact i

/-- `DL.DECODE` (R183). -/
theorem decodePacket_good (hp : Hooked pt) {s : State} (i : Sound o c s) : (decodePacket pt s).Good o c :=
  decodeLoop_good hp _ i

/-- The transmit pumps of an iteration (60_exceptions.md R256). -/
theorem pumpEach_good (hp : Hooked pt) (ks : List Chan) {s : State} (i : Sound o o s) : (pumpEach pt ks s).Good o o := by
  induction ks generalizing s with
  | nil => exact i
  | cons k ks ih =>
    exact hp.go i fun u _ iu => (transmitPump_good hp k iu).bind fun _ v iv => ih iv

/-- `MAIN.ITER` (60_exceptions.md R256). -/
theorem iterate_good (hp : Hooked pt) {s : State} (i : Sound o o s) : (iterate pt s).Good o o := by
  unfold iterate
  refine Res.Good.bind (o := o) (c := o) ?_ fun _ u iu => ?_
  · split
    · exact (decodePacket_good hp i).bind fun _ v iv => hp.good iv
    · exact i
  · exact (pump_good hp iu).bind fun _ v iv => pumpEach_good hp _ iv

end Sys2Proof.Machine
end

