-- ==== Sys2Proof/Laws/Dispatch.lean ====
section
/-! SUPPORT. The arms of `exec` by kind of instruction: the downlink records share one frame around
`runRecord`, the operations of the interrupt context one around `producerOp`, those that emit a record
one around `emit`. -/

namespace Sys2Proof.Machine

/-- A downlink record runs its handler of `DL.DECODE`'s loop (42_wire_framing.md R183). -/
theorem exec_downlink {i : Instr} (h : downlinkRecord i = true) (s : State) :
    exec i s = runDownlink (fun pt s => runRecord pt s i) s := by
  cases i <;> first | rfl | exact absurd h Bool.false_ne_true

/-- An operation of the interrupt context runs as a handler's call does. -/
theorem exec_producer {i : Instr} (h : producerInstr i = true) (s : State) :
    exec i s = runOp (fun pt s => producerOp pt s i) s := by
  cases i <;> first | rfl | exact absurd h Bool.false_ne_true

/-! The operations that emit a record. -/

/-- The source id of a header (30_encoding.md R91). -/
@[simp] theorem headerSid_headerOf (hi sid : BitVec 4) : headerSid (headerOf hi sid) = sid := by
  revert hi sid
  decide

/-- The source id of a CAN record's first byte (42_wire_framing.md R188). -/
@[simp] theorem headerSid_encCan (sid : BitVec 4) (f : CanFrame) : headerSid ((encCan sid f).getD 0 0) = sid :=
  headerSid_headerOf _ sid

/-- An instruction that emits bytes is an operation of the interrupt context. -/
theorem emittedBytes_producer {i : Instr} {bs : List Byte} (h : emittedBytes i = some bs) : producerInstr i = true := by
  cases i <;> first | rfl | simp [emittedBytes] at h

/-- An instruction that emits bytes does nothing else: one `BB.ALLOC` of them and their writes, by an agent that
produces records of their source (42_wire_framing.md R181, R182). -/
theorem producerOp_emits {i : Instr} {bs : List Byte} (h : emittedBytes i = some bs) (pt : Hook) (s : State) :
    producerOp pt s i = inInterruptContext s
      (asProducerOf s (headerSid (bs.getD 0 0)) ((emit pt bs s).map emitResult)) := by
  cases i <;> first
    | (simp [emittedBytes] at h; done)
    | (simp only [emittedBytes, encode, Option.some.injEq] at h
       subst h
       simp only [headerSid_encCan, List.getD_cons_zero, headerSid_headerOf]
       rfl)

/-! The operations of the main context. -/

section main
variable (s : State)

theorem exec_bbPop :
    exec (.bbPop) s = runOp (fun pt s => inMainContext s <|
      (pop pt s).map popResult) s := rfl

theorem exec_bbReset :
    exec (.bbReset) s = runOp (fun pt s => inMainContext s <|
      (resetOldest pt s).map fun _ => .done) s := rfl

theorem exec_bbRead (slot off : Nat) :
    exec (.bbRead slot off) s = runOp (fun _ s => inMainContext s <|
      (readPopped slot off s).map .byte) s := rfl

theorem exec_bbDiscardAll :
    exec (.bbDiscardAll) s = runOp (fun pt s => inMainContext s <|
      (discardAll pt s).map fun _ => .done) s := rfl

theorem exec_ulPump :
    exec (.ulPump) s = runOp (fun pt s => inMainContext s <|
      (pump pt s).map fun b => if b then .sent else .idle) s := rfl

theorem exec_fqEnq (k : Chan) (build : Builder) (count : Nat) :
    exec (.fqEnq k build count) s = runOp (fun _ s => inMainContext s <|
      (fqEnqueue k (runBuilder build) count s).map .bool) s := rfl

theorem exec_fqDeq (k : Chan) (cb : Callback) (max : Nat) :
    exec (.fqDeq k cb max) s = runOp (fun _ s => inMainContext s <|
      (fqDequeue k (runCallback k cb) max s).map fun r => .dequeued r.1 r.2) s := rfl

theorem exec_fqFlush (k : Chan) :
    exec (.fqFlush k) s = runOp (fun _ s => inMainContext s <|
      .ok .done (fqFlushAll k s)) s := rfl

theorem exec_dlDecode :
    exec (.dlDecode) s = runOp (fun pt s => inMainContext s <|
      (decodePacket pt s).map fun _ => .done) s := rfl

theorem exec_canPump (k : Chan) :
    exec (.canPump k) s = runOp (fun pt s => inMainContext s <|
      (transmitPump pt k s).map .bool) s := rfl

theorem exec_canInit (k : Chan) :
    exec (.canInit k) s = runOp (fun pt s => inMainContext s <|
      if s.phase.inBoot then (initController pt k s).map fun _ => .done else .refused .afterBoot) s := rfl

theorem exec_mainIter :
    exec (.mainIter) s = runOp (fun pt s => inMainContext s <|
      (iterate pt s).map fun _ => .done) s := rfl

end main

/-- What the downlink decoder answers is a downlink record (30_encoding.md R114). -/
theorem decode_downlink {bs : List Byte} {i : Instr} (h : decode bs = .ok i) :
    downlinkRecord i = true := by
  have can : ∀ k cs, decodeDownlinkCan k cs = .ok i → downlinkRecord i = true := by
    intro k cs hc
    unfold decodeDownlinkCan at hc
    split at hc
    · injection hc with hc
      subst hc
      unfold downlinkCan
      split <;> rfl
    · simp at hc
  unfold decode at h
  split at h
  · simp at h
  · split at h <;> first
      | exact can _ _ h
      | (injection h with h; subst h; first | rfl | (split <;> rfl))

end Sys2Proof.Machine
end

