-- ==== Sys2Proof/Laws/Still.lean ====
section
/-! SUPPORT. What each shared operation does where nothing preempts it: one equation per operation. -/

namespace Sys2Proof.Machine

/-- Nothing happens at the preemption points of a quiet state. -/
def Still (pt : Hook) : Prop := ∀ s : State, s.quiet → pt s = .ok () s

theorem point_still (n : Nat) : Still (point n) := fun _ q => point_quiet n q

variable {pt : Hook}

theorem Still.bind (hp : Still pt) {β : Type} {s : State} (hq : s.quiet)
    (f : Unit → State → Res β) : (pt s).bind f = f () s := by rw [hp s hq, Res.bind_ok]

/-! Producer side. -/

/-- `BB.APPEND` (40_batch_buffer.md R132). -/
theorem append_still (hp : Still pt) (slot : Slot) (size n : Nat) {s : State} (hq : s.quiet) :
    append pt slot size (n + 1) s =
      if Config.batchSize < (s.wlen[slot]).toNat + size then .ok none s
      else .ok (some (s.wlen[slot]).toNat)
        (s.extend slot (s.wlen[slot]).toNat size) := by
  unfold append
  dsimp only
  split
  · rfl
  · rw [hp.bind hq, if_pos rfl]

theorem appendGrant_still (hp : Still pt) (slot : Slot) (size : Nat) {s : State} (hq : s.quiet) :
    appendGrant pt slot size s =
      if Config.batchSize < (s.wlen[slot]).toNat + size then .ok none s
      else .ok (some (slot, (s.wlen[slot]).toNat))
        (s.extend slot (s.wlen[slot]).toNat size) := by
  unfold appendGrant
  rw [append_still hp slot size _ hq]
  split <;> rfl

/-- `BB.ALLOC` with room in the newest opened batch (R131 step A3). -/
theorem alloc_appends (hp : Still pt) {size : Nat} {s : State} (hq : s.quiet)
    (h1 : 1 ≤ size) (h2 : size ≤ Config.batchPayloadMax) (h : s.roomInNewest size) :
    alloc pt size s = .ok (some (slotOf (s.bbProduced - 1), (s.wlen[slotOf (s.bbProduced - 1)]).toNat))
      (s.extend (slotOf (s.bbProduced - 1)) (s.wlen[slotOf (s.bbProduced - 1)]).toNat size) := by
  unfold alloc
  rw [if_neg (by omega)]
  unfold allocRounds
  dsimp only
  rw [hp.bind hq, if_pos h.1, hp.bind hq, appendGrant_still hp _ _ hq,
    if_neg (by have := h.2; omega), Res.bind_ok]

theorem alloc_none_in_newest (hp : Still pt) {size : Nat} {s : State} (hq : s.quiet) (h : ¬ s.roomInNewest size) :
    (if s.bbProduced ≠ s.bbConsumed then
        (pt s).bind fun _ t => appendGrant pt (slotOf (s.bbProduced - 1)) size t
     else .ok none s) = .ok none s := by
  split
  · rename_i hne
    rw [hp.bind hq, appendGrant_still hp _ _ hq, if_pos]
    have : ¬ (s.wlen[slotOf (s.bbProduced - 1)]).toNat + size ≤ Config.batchSize := fun hle => h ⟨hne, hle⟩
    omega
  · rfl

/-- `BB.ALLOC` that opens the next batch (R131 steps A5, A6). -/
theorem alloc_opens (hp : Still pt) {size : Nat} {s : State} (hq : s.quiet)
    (h1 : 1 ≤ size) (h2 : size ≤ Config.batchPayloadMax) (h : ¬ s.roomInNewest size)
    (hfull : (s.bbProduced - s.bbConsumed).toNat ≠ Config.batchCount) (he : s.nextEmpty) :
    alloc pt size s = .ok (some (slotOf s.bbProduced, 1))
      (({ s with bbProduced := s.bbProduced + 1 } : State).extend (slotOf s.bbProduced) 1 size) := by
  have hw : (s.wlen[slotOf s.bbProduced]).toNat = 1 := by rw [he hfull]; rfl
  unfold alloc
  rw [if_neg (by omega)]
  unfold allocRounds
  dsimp only
  rw [hp.bind hq, alloc_none_in_newest hp hq h, Res.bind_ok]
  dsimp only
  rw [hp.bind hq, if_neg hfull, hp.bind hq, if_pos rfl,
    hp.bind (s := { s with bbProduced := s.bbProduced + 1 }) hq,
    appendGrant_still hp _ _ (s := { s with bbProduced := s.bbProduced + 1 }) hq, hw,
    if_neg (by simp only [Config.batchPayloadMax, Config.batchSize] at *; omega), Res.bind_ok]

/-- `BB.ALLOC` on a full buffer (R131 step A4). -/
theorem alloc_fails (hp : Still pt) {size : Nat} {s : State} (hq : s.quiet)
    (h1 : 1 ≤ size) (h2 : size ≤ Config.batchPayloadMax) (h : ¬ s.roomInNewest size)
    (hfull : (s.bbProduced - s.bbConsumed).toNat = Config.batchCount) :
    alloc pt size s = .ok none ((s.signal .uplinkCongestion).uplinkFlag true) := by
  unfold alloc
  rw [if_neg (by omega)]
  unfold allocRounds
  dsimp only
  rw [hp.bind hq, alloc_none_in_newest hp hq h, Res.bind_ok]
  dsimp only
  rw [hp.bind hq, if_pos hfull]
  unfold uplinkCongestion
  rw [hp.bind (s := s.signal .uplinkCongestion) hq]
  rfl

/-- The bytes of a record from offset `off` on. -/
def State.pokes (s : State) (slot : Slot) : Nat → List Byte → State
  | _, [] => s
  | off, b :: bs => State.pokes (s.pokeBatch slot off b) slot (off + 1) bs

theorem State.pokes_eq (s : State) (slot : Slot) (off : Nat) (bs : List Byte) :
    s.pokes slot off bs = { s with batch := (s.pokes slot off bs).batch } := by
  induction bs generalizing s off with
  | nil => rfl
  | cons b bs ih =>
    show (s.pokeBatch slot off b).pokes slot (off + 1) bs = _
    rw [ih]
    rfl

/-- What the batches read as after the bytes of a record (42_wire_framing.md R181). -/
theorem State.pokes_read (s : State) (slot : Slot) (off : Nat) (bs : List Byte)
    (h : Memory.wf .batch s.batch = true) :
    Memory.wf .batch (s.pokes slot off bs).batch = true ∧
    ∀ a, Memory.read .batch (s.pokes slot off bs).batch a =
      if batchAddr slot off ≤ a ∧ a < batchAddr slot off + bs.length then
        some (bs.getD (a - batchAddr slot off) 0)
      else Memory.read .batch s.batch a := by
  induction bs generalizing s off with
  | nil =>
    refine ⟨h, fun a => ?_⟩
    rw [if_neg (by simp)]
    rfl
  | cons b bs ih =>
    have hb := ih (s.pokeBatch slot off b) (off + 1) (Memory.wf_write .batch h _ _)
    refine ⟨hb.1, fun a => ?_⟩
    show Memory.read .batch ((s.pokeBatch slot off b).pokes slot (off + 1) bs).batch a = _
    rw [hb.2 a]
    have hn : batchAddr slot (off + 1) = batchAddr slot off + 1 := by simp only [batchAddr]; omega
    simp only [hn, List.length_cons, State.pokeBatch_batch]
    by_cases h1 : a = batchAddr slot off
    · subst h1
      rw [if_neg (by omega), if_pos (by omega), Memory.read_write_same .batch h]
      simp
    · rw [Memory.read_write_other .batch _ _ h1]
      by_cases h2 : batchAddr slot off + 1 ≤ a ∧ a < batchAddr slot off + 1 + bs.length
      · rw [if_pos h2, if_pos (by omega)]
        obtain ⟨d, rfl⟩ : ∃ d, a = batchAddr slot off + 1 + d := ⟨a - (batchAddr slot off + 1), by omega⟩
        rw [show batchAddr slot off + 1 + d - (batchAddr slot off + 1) = d by omega,
          show batchAddr slot off + 1 + d - batchAddr slot off = d + 1 by omega]
        simp
      · rw [if_neg h2, if_neg (by omega)]

theorem writeRecord_still (hp : Still pt) (slot : Slot) (off : Nat) (bs : List Byte) {s : State}
    (hq : s.quiet) :
    writeRecord pt slot off bs s = .ok () (s.pokes slot off bs) := by
  induction bs generalizing s off with
  | nil => rfl
  | cons b bs ih =>
    unfold writeRecord
    rw [hp.bind (s := s.pokeBatch slot off b) hq]
    exact ih (off + 1) (s := s.pokeBatch slot off b) hq

/-- A producer's record that `BB.ALLOC` granted bytes for (42_wire_framing.md R181, R182). -/
theorem emit_written (hp : Still pt) {bytes : List Byte} {s t : State} {g : Slot × Nat}
    (h : alloc pt bytes.length s = .ok (some g) t) (hq : t.quiet) :
    emit pt bytes s = .ok true (t.pokes g.1 g.2 bytes) := by
  unfold emit
  rw [h, Res.bind_ok]
  dsimp only
  rw [hp.bind hq, writeRecord_still hp _ _ _ hq, Res.bind_ok]

/-- A producer's record that was dropped (R181, R182). -/
theorem emit_dropped {bytes : List Byte} {s t : State} (h : alloc pt bytes.length s = .ok none t) :
    emit pt bytes s = .ok false t := by
  unfold emit
  rw [h, Res.bind_ok]

/-! Consumer side. -/

/-- `BB.POP` (40_batch_buffer.md R134). -/
theorem pop_still (hp : Still pt) {s : State} (hq : s.quiet) :
    pop pt s =
      if s.bbProduced = s.bbConsumed ∨ (s.wlen[slotOf s.bbConsumed]).toNat ≤ 1 then
        .ok none { s with popped := none }
      else .ok (some (slotOf s.bbConsumed, (s.wlen[slotOf s.bbConsumed]).toNat)) { s with
        bbProduced := if s.bbProduced = s.bbConsumed + 1 then s.bbProduced + 1 else s.bbProduced
        popped := some (slotOf s.bbConsumed, (s.wlen[slotOf s.bbConsumed]).toNat) } := by
  unfold pop
  dsimp only
  rw [hp.bind hq]
  by_cases h0 : s.bbProduced = s.bbConsumed
  · rw [if_pos h0, if_pos (.inl h0)]
  · rw [if_neg h0]
    by_cases h1 : s.bbProduced = s.bbConsumed + 1
    · rw [if_pos h1, hp.bind hq]
      by_cases h2 : (s.wlen[slotOf s.bbConsumed]).toNat ≤ 1
      · rw [if_pos h2, if_pos (.inr h2)]
      · rw [if_neg h2, hp.bind hq, if_pos rfl,
          hp.bind (s := { s with bbProduced := s.bbProduced + 1 }) hq]
        unfold popClosed
        dsimp only
        rw [if_neg h2, if_neg (not_or.2 ⟨h0, h2⟩), if_pos h1]
    · rw [if_neg h1, hp.bind hq]
      unfold popClosed
      dsimp only
      by_cases h2 : (s.wlen[slotOf s.bbConsumed]).toNat ≤ 1
      · rw [if_pos h2, if_pos (.inr h2)]
      · rw [if_neg h2, if_neg (not_or.2 ⟨h0, h2⟩), if_neg h1]

theorem disturb_quiet {s : State} (hq : s.quiet) (i : Slot) : ((s.emptyBatch i).disturb i).quiet :=
  hq.of_eq (by simp) (by simp) (by simp) (by simp) fun k => by simp

/-- `BB.RESET` (R135). -/
theorem resetOldest_still (hp : Still pt) {s : State} (hq : s.quiet)
    (h : s.bbProduced ≠ s.bbConsumed) :
    resetOldest pt s = .ok () { s with
      wlen := s.wlen.set (slotOf s.bbConsumed) 1
      ranges := s.ranges.set (slotOf s.bbConsumed) []
      bbConsumed := s.bbConsumed + 1
      popped := none
      inFlight := s.inFlight.map fun f =>
        if f.slot = slotOf s.bbConsumed then { f with disturbed := true } else f } := by
  unfold resetOldest
  rw [if_neg h]
  dsimp only
  rw [hp.bind hq, hp.bind (disturb_quiet hq _)]
  congr 1
  unfold State.disturb
  simp only [State.emptyBatch_inFlight]
  cases hf : s.inFlight with
  | none => simp [State.emptyBatch, hf]
  | some f =>
    dsimp only
    split <;> simp_all [State.emptyBatch]

end Sys2Proof.Machine
end

