-- ==== Sys2Proof/Laws/Queue.lean ====
section
/-! SUPPORT. What the loops of `FQ.ENQ` and `FQ.DEQ` do to a Frame Queue (41_frame_queue.md R161, R162) and to a
controller (43_can_codec.md R215): one lemma per loop. -/

namespace Sys2Proof.Machine

/-- An entry is read at the same place through equal cursor values. -/
theorem entry_congr {α : Type} (v : Vector α Config.fqCapacity) {a b : Cursor} (h : a = b) :
    v[entryOf a] = v[entryOf b] := by subst h; rfl

/-- Up to 16 cursor values in a row denote different entries (10_state.md R31). -/
theorem entryOf_add_inj {p : Cursor} {i j : Nat} (hi : i < 16) (hj : j < 16)
    (h : entryOf (p + BitVec.ofNat Config.cursorBits i) = entryOf (p + BitVec.ofNat Config.cursorBits j)) : i = j := by
  simp [entryOf, Fin.ext_iff, Config.fqCapacity, Config.cursorBits] at h
  omega

/-- The newest cursor value is the oldest plus the distance. -/
theorem cursor_add_distance (p c : Cursor) : c + BitVec.ofNat Config.cursorBits (p - c).toNat = p := by
  rw [BitVec.ofNat_toNat, BitVec.setWidth_eq, BitVec.add_comm, BitVec.sub_add_cancel]

/-- A Frame Queue replaced by itself. -/
theorem State.withFq_self (s : State) (k : Chan) :
    s = { s with
      fq := s.fq.set k ⟨(s.fq.get k).slots, (s.fq.get k).produced, (s.fq.get k).consumed⟩ } := by
  show s = { s with fq := s.fq.set k (s.fq.get k) }
  rw [PerChan.set_get]

/-- A caller's builder (R161): what is published of its list's entry, beyond the list an admitted one. -/
theorem runBuilder_entries (es : List Entry) (i : Nat) (s : State) :
    ∃ e, runBuilder (.entries es) i s = .ok e s.drawn ∧ e.wf = true ∧ ∀ h : i < es.length, publishedAs es[i] e := by
  unfold runBuilder
  dsimp only
  by_cases h : i < es.length
  · rw [List.getElem?_eq_getElem h]
    exact ⟨_, rfl, entryAdmitted_wf _ _, fun _ => entryAdmitted_published _ _⟩
  · rw [List.getElem?_eq_none (by omega)]
    exact ⟨_, rfl, entryInRange_wf _, fun h' => absurd h' h⟩

/-- Step E3 of `FQ.ENQ` with a caller's entries: what is published of them lies in slot order from cursor value `p + i`
on, beyond the list admitted ones, and every other slot is as before (R161). -/
theorem enqFill_entries (k : Chan) (es : List Entry) (p : Cursor) (n i : Nat) (s : State) (hn : i + n ≤ 16) :
    ∃ sl, enqFill k (runBuilder (.entries es)) p n i s = .ok () { s with
        fq := s.fq.set k ⟨sl, (s.fq.get k).produced, (s.fq.get k).consumed⟩, draws := s.draws + n } ∧
      (∀ j, i ≤ j → j < i + n → ∃ e, sl[entryOf (p + BitVec.ofNat Config.cursorBits j)] = some e ∧ e.wf = true ∧
        ∀ h : j < es.length, publishedAs es[j] e) ∧
      ∀ e : Fin Config.fqCapacity, (∀ j, i ≤ j → j < i + n → e ≠ entryOf (p + BitVec.ofNat Config.cursorBits j)) →
        sl[e] = (s.fq.get k).slots[e] := by
  induction n generalizing i s with
  | zero =>
    exact ⟨(s.fq.get k).slots, by unfold enqFill; exact congrArg _ (s.withFq_self k),
      fun j a b => by omega, fun e h => rfl⟩
  | succ n ih =>
    obtain ⟨e0, hb, hw0, he0⟩ := runBuilder_entries es i s
    obtain ⟨sl, h1, h2, h3⟩ := ih (i + 1) (s.drawn.putEntry k (p + BitVec.ofNat Config.cursorBits i) e0) (by omega)
    refine ⟨sl, ?_, ?_, ?_⟩
    · unfold enqFill
      rw [hb, Res.bind_ok, h1]
      simp [State.putEntry, State.setFq, State.drawn]
      omega
    · intro j a b
      by_cases hj : j = i
      · subst hj
        refine ⟨e0, ?_, hw0, he0⟩
        rw [h3]
        · simp [State.putEntry, State.setFq, State.drawn]
        · intro j' a' b' e
          have := entryOf_add_inj (by omega) (by omega) e
          omega
      · exact h2 j (by omega) (by omega)
    · intro e h
      rw [h3 e fun j a b => h j (by omega) (by omega)]
      simp [State.putEntry, State.setFq, State.drawn]
      exact Vector.getElem_set_ne _ _ fun hh => h i (by omega) (by omega) (Fin.ext hh.symm)

/-- Step G3 of `FQ.DEQ` with a callback that takes the entries (R162). -/
theorem deqTake_collect (k : Chan) (c : Cursor) (n i : Nat) (s : State) :
    deqTake k (runCallback k .collect) c n i s =
      .ok ((List.range' i n).map fun j => s.peekEntry k (c + BitVec.ofNat Config.cursorBits j)) s := by
  induction n generalizing i with
  | zero => rfl
  | succ n ih => unfold deqTake; simp [runCallback, ih, List.range'_succ]

/-- The slots of entries moved out hold nothing specified, the others are as before (R162 corner case (d)). -/
theorem moveOut_slots (s : State) (k : Chan) (c : Cursor) (n : Nat) :
    ∃ sl, s.moveOut k c n = { s with
        fq := s.fq.set k ⟨sl, (s.fq.get k).produced, (s.fq.get k).consumed⟩ } ∧
      ∀ e : Fin Config.fqCapacity, sl[e] =
        if ∃ j, j < n ∧ e = entryOf (c + BitVec.ofNat Config.cursorBits j) then none else (s.fq.get k).slots[e] := by
  induction n with
  | zero => exact ⟨(s.fq.get k).slots, s.withFq_self k, fun e => by simp⟩
  | succ n ih =>
    obtain ⟨sl, h1, h2⟩ := ih
    refine ⟨sl.set (entryOf (c + BitVec.ofNat Config.cursorBits n)) none, ?_, fun e => ?_⟩
    · simp [State.moveOut, h1, State.setFq]
    · by_cases he : e = entryOf (c + BitVec.ofNat Config.cursorBits n)
      · rw [if_pos ⟨n, by omega, he⟩]
        subst he
        simp
      · have : (sl.set (entryOf (c + BitVec.ofNat Config.cursorBits n)) none)[e] = sl[e] :=
          Vector.getElem_set_ne _ _ fun hh => he (Fin.ext hh.symm)
        rw [this, h2]
        congr 1
        apply propext
        constructor
        · rintro ⟨j, a, b⟩
          exact ⟨j, by omega, b⟩
        · rintro ⟨j, a, b⟩
          have : j ≠ n := fun h => he (h ▸ b)
          exact ⟨j, by omega, b⟩

/-- `CAN.TXSLOT[k]` told a slot that exists (43_can_codec.md R215). -/
theorem txSlot_ok (k : Chan) (e : Entry) {s : State} {i : Nat} {rest : List Nat}
    (h : (s.hw.get k).txPutIn = i :: rest) (hi : i < Config.txSlots) :
    txSlot k e s = .ok ()
      (((s.setHw k { s.hw.get k with txPutIn := rest }).txWrite k i (slotWords e)).txRequest k i) := by
  unfold txSlot State.askTxPut
  rw [h]
  dsimp only
  rw [if_neg (by omega)]

/-- A controller after the entries `es` went into the slots `puts` (R215). -/
def HwPort.afterPuts (p : HwPort) (puts left : List Nat) (es : List Entry) : HwPort :=
  { p with
    txPutIn := left
    txSlots := (puts.zip es).foldl (fun m x => putSlot x.1 (slotWords x.2) m) p.txSlots
    txRequest := puts.foldl (fun m i => requestSlot i m) p.txRequest
    trace := p.trace ++ (puts.zip es).flatMap fun x => [.txWrite x.1 (slotWords x.2), .txRequest x.1] }

/-- Step G3 of `FQ.DEQ` with `CAN.TXSLOT[k]`, every slot named one that exists (R214, R215). -/
theorem deqTake_txSlot (k : Chan) (c : Cursor) (puts left : List Nat) (i : Nat) (s : State)
    (hp : ∀ x ∈ puts, x < Config.txSlots) (h : (s.hw.get k).txPutIn = puts ++ left) :
    let es := (List.range' i puts.length).map fun j => s.peekEntry k (c + BitVec.ofNat Config.cursorBits j)
    deqTake k (txSlot k) c puts.length i s =
      .ok es { s with hw := s.hw.set k ((s.hw.get k).afterPuts puts left es) } := by
  induction puts generalizing i s with
  | nil =>
    simp [deqTake, HwPort.afterPuts]
    simp at h
    rw [← h, PerChan.set_get]
  | cons a puts ih =>
    rw [List.length_cons]
    unfold deqTake
    dsimp only
    rw [txSlot_ok k _ h (hp a (by simp)), Res.bind_ok]
    rw [ih (i + 1) _ (fun x hx => hp x (by simp [hx]))
      (by simp [State.txRequest, State.txWrite, State.traceHw, State.setHw])]
    rw [Res.bind_ok]
    simp [List.range'_succ, HwPort.afterPuts, State.txRequest, State.txWrite, State.traceHw, State.setHw,
      State.peekEntry]

end Sys2Proof.Machine
end

