-- ==== Sys2Proof/Laws/MainLoop.lean ====
section
/-! SUPPORT. The operations of the main loop where nothing preempts them: each answers, none changes whose turn it
is, and every pass of `DL.DECODE`'s loop advances (42_wire_framing.md R183; 60_exceptions.md R256). -/

namespace Sys2Proof.Machine

variable {pt : Hook}

/-- One round of `BB.DISCARD_ALL`'s loop (40_batch_buffer.md R138). -/
theorem discardRounds_step (hp : Still pt) (n : Nat) {s : State}
    (hq : s.quiet) :
    discardRounds pt (n + 1) s =
    if s.bbProduced = s.bbConsumed ∨ (s.wlen[slotOf s.bbConsumed]).toNat ≤ 1 then
      .ok () { s with popped := none }
    else discardRounds pt n { s with
      wlen := s.wlen.set (slotOf s.bbConsumed) 1
      ranges := s.ranges.set (slotOf s.bbConsumed) []
      bbConsumed := s.bbConsumed + 1
      bbProduced := if s.bbProduced = s.bbConsumed + 1 then s.bbProduced + 1 else s.bbProduced
      popped := none
      inFlight := s.inFlight.map fun f =>
        if f.slot = slotOf s.bbConsumed then { f with disturbed := true } else f } := by
  conv => lhs; unfold discardRounds
  rw [pop_still hp hq]
  by_cases h : s.bbProduced = s.bbConsumed ∨ (s.wlen[slotOf s.bbConsumed]).toNat ≤ 1
  · rw [if_pos h, if_pos h]; rfl
  · rw [if_neg h, if_neg h]
    simp only [Res.bind_ok]
    rw [hp.bind (by exact hq), resetOldest_still hp (by exact hq), Res.bind_ok,
      hp.bind (by exact hq)]
    push Not at h
    show (if _ then _ else _) ≠ s.bbConsumed
    split
    · rename_i e; rw [e]; intro e2
      have := congrArg BitVec.toNat e2
      have := s.bbConsumed.isLt
      simp [BitVec.toNat_add, Config.cursorBits] at *
      omega
    · exact h.1

/-- An operation ran unpreempted: what belongs to the schedule and to the packet is as before. -/
structure Calm (s t : State) : Prop where
  quiet : t.quiet
  stack : t.stack = s.stack
  halted : t.halted = s.halted
  calls : t.calls = s.calls
  phase : t.phase = s.phase
  dlLen : t.dlLen = s.dlLen
  dlBuf : t.dlBuf = s.dlBuf
  result : t.result = s.result

theorem Calm.refl {s : State}
    (hq : s.quiet) : Calm s s := ⟨hq, rfl, rfl, rfl, rfl, rfl, rfl, rfl⟩

theorem Calm.trans {s t u : State} (h : Calm s t) (k : Calm t u) : Calm s u :=
  ⟨k.1, k.2.trans h.2, k.3.trans h.3, k.4.trans h.4, k.5.trans h.5, k.6.trans h.6, k.7.trans h.7, k.8.trans h.8⟩

/-- An update of a controller that leaves its notification armed or not. -/
theorem Calm.setHw {s t : State} (c : Calm s t) (k : Chan) {h : HwPort} (e : h.rxArmed = (t.hw.get k).rxArmed) :
    Calm s (t.setHw k h) := ⟨c.1.setHw k e, c.2, c.3, c.4, c.5, c.6, c.7, c.8⟩

/-- An output to a controller. -/
theorem Calm.traceHw {s t : State} (c : Calm s t) (k : Chan) (e : HwEvent) : Calm s (t.traceHw k e) := c.setHw k rfl

theorem Calm.txWrite {s t : State} (c : Calm s t) (k : Chan) (i : Nat) (e : TxElement) : Calm s (t.txWrite k i e) := by
  unfold State.txWrite
  refine Calm.traceHw ?_ k _
  exact c.setHw k rfl

theorem Calm.txRequest {s t : State} (c : Calm s t) (k : Chan) (i : Nat) : Calm s (t.txRequest k i) := by
  unfold State.txRequest
  refine Calm.traceHw ?_ k _
  exact c.setHw k rfl

/-- The batches that hold data. -/
def filled (w : Vector WLen Config.batchCount) : Finset Slot := Finset.univ.filter fun i => 1 < (w[i]).toNat

/-- The loop of `BB.DISCARD_ALL` ends: every round empties a batch that held data (R138 corner case (c)). -/
theorem discardRounds_completes (hp : Still pt) (n : Nat) {s : State}
    (hq : s.quiet) (hn : (filled s.wlen).card < n) :
    ∃ t, discardRounds pt n s = .ok () t ∧ Calm s t ∧ t.dlRd = s.dlRd ∧ t.fq = s.fq ∧
      t.diagTrace = s.diagTrace := by
  induction n generalizing s with
  | zero => omega
  | succ n ih =>
    rw [discardRounds_step hp n hq]
    split
    · exact ⟨_, rfl, ⟨hq, rfl, rfl, rfl, rfl, rfl, rfl, rfl⟩, rfl, rfl, rfl⟩
    · rename_i h
      push Not at h
      have hm : (filled (s.wlen.set (slotOf s.bbConsumed) 1)).card < n := by
        have : filled (s.wlen.set (slotOf s.bbConsumed) 1) ⊆ (filled s.wlen).erase (slotOf s.bbConsumed) := by
          intro i hi
          simp only [filled, Finset.mem_filter, Finset.mem_univ, true_and, Finset.mem_erase] at *
          by_cases e : i = slotOf s.bbConsumed
          · subst e; simp at hi
          · refine ⟨e, ?_⟩
            have : (s.wlen.set (slotOf s.bbConsumed) 1)[i] = s.wlen[i] :=
              Vector.getElem_set_ne _ _ fun hh => e (Fin.ext hh.symm)
            rw [this] at hi; exact hi
        have hc := Finset.card_le_card this
        have hm : slotOf s.bbConsumed ∈ filled s.wlen := by
          simp only [filled, Finset.mem_filter, Finset.mem_univ, true_and]
          exact h.2
        rw [Finset.card_erase_of_mem hm] at hc
        have := Finset.card_pos.2 ⟨_, hm⟩
        omega
      obtain ⟨t, k1, k2, k3⟩ := ih (s := { s with
          wlen := s.wlen.set (slotOf s.bbConsumed) 1
          ranges := s.ranges.set (slotOf s.bbConsumed) []
          bbConsumed := s.bbConsumed + 1
          bbProduced := if s.bbProduced = s.bbConsumed + 1 then s.bbProduced + 1 else s.bbProduced
          popped := none
          inFlight := s.inFlight.map fun f =>
            if f.slot = slotOf s.bbConsumed then { f with disturbed := true } else f }) hq hm
      exact ⟨t, k1, ⟨k2.1, k2.2, k2.3, k2.4, k2.5, k2.6, k2.7, k2.8⟩, k3⟩

/-- `BB.DISCARD_ALL` answers (R138), from any state. -/
theorem discardAll_completes (hp : Still pt) {s : State}
    (hq : s.quiet) :
    ∃ t, discardAll pt s = .ok () t ∧ Calm s t ∧ t.dlRd = s.dlRd ∧ t.fq = s.fq ∧
      t.diagTrace = s.diagTrace := by
  obtain ⟨t, h1, h2, h3⟩ := discardRounds_completes hp
    (s.budget * (Config.batchCount + 1) + Config.batchCount + 2) hq (by
    have := Finset.card_le_univ (filled s.wlen)
    simp [Config.batchCount] at *; omega)
  unfold discardAll
  rw [h1, Res.bind_ok, hp.bind h2.1]
  exact ⟨_, rfl, ⟨h2.1, h2.2, h2.3, h2.4, h2.5, h2.6, h2.7, h2.8⟩, h3⟩

/-- Both flags cleared (42_wire_framing.md R184). -/
theorem clearFlags_still (hp : Still pt) {s : State} (hq : s.quiet) :
    clearFlags pt s = .ok () ((s.uplinkFlag false).downlinkFlag false) := by
  unfold clearFlags
  rw [hp.bind (s := s.uplinkFlag false) hq]

/-- The Frame Queues after the connect command (R184). -/
theorem flushOnConnect_still (hp : Still pt) {s : State} (hq : s.quiet) :
    flushOnConnect pt Chan.all s = .ok () { s with
      fq := if Config.flushFqOnConnect then s.fq.map fun q => { q with consumed := q.produced } else s.fq } := by
  show flushOnConnect pt [.can1, .can2, .can3] s = _
  simp only [flushOnConnect]
  rw [hp.bind (s := flushIfAsked .can1 s) hq, hp.bind (s := flushIfAsked .can2 (flushIfAsked .can1 s)) hq,
    hp.bind (s := flushIfAsked .can3 (flushIfAsked .can2 (flushIfAsked .can1 s))) hq]
  simp only [flushIfAsked_eq]
  split
  · refine congrArg (fun q => Res.ok () { s with fq := q }) (PerChan.ext fun k => ?_)
    cases k <;> simp [PerChan.get_set, fqFlushAll]
  · rfl

/-- The connect command is `BB.DISCARD_ALL` and its own updates (42_wire_framing.md R184). -/
theorem connect_still (hp : Still pt) {s : State}
    (hq : s.quiet) : ∃ t, discardAll pt s = .ok () t ∧ Calm s t ∧
   connect pt s = .ok () { t with
        uplinkCongested := false
        downlinkCongested := false
        diagTrace := s.diagTrace ++ [.diagReset]
        fq := if Config.flushFqOnConnect then s.fq.map fun q => { q with consumed := q.produced } else s.fq
        dlRd := s.dlRd + 1 } := by
  obtain ⟨t, h1, h2, h3, h4, h5⟩ := discardAll_completes hp hq
  refine ⟨t, h1, h2, ?_⟩
  unfold connect
  rw [h1, Res.bind_ok, hp.bind h2.1, clearFlags_still hp h2.1, Res.bind_ok, hp.bind (by exact h2.1),
    hp.bind (by exact h2.1), flushOnConnect_still hp (by exact h2.1), Res.bind_ok]
  simp only [State.signal, State.uplinkFlag, State.downlinkFlag, h3, h4, h5]

/-- `DL.CAN` of a record in the packet (R185). -/
theorem downlinkFrame_completes (hp : Still pt) (k f) {s : State}
    (hq : s.quiet) (hf : s.dlRd + f.size ≤ s.dlLen) :
    ∃ t, downlinkFrame pt k f s = .ok () t ∧ Calm s t ∧ t.dlRd = s.dlRd + f.size := by
  unfold downlinkFrame
  rw [if_neg (by omega), hp.bind hq, fqEnqueue_one]
  split
  · unfold downlinkCongestion
    rw [Res.bind_ok, hp.bind hq, if_neg Bool.false_ne_true, Res.bind_assoc,
      hp.bind (s := s.signal .downlinkCongestion) hq, Res.bind_ok,
      hp.bind (s := (s.signal .downlinkCongestion).downlinkFlag true) hq]
    exact ⟨_, rfl, ⟨hq, rfl, rfl, rfl, rfl, rfl, rfl, rfl⟩, rfl⟩
  · simp only [txBuildFrame, Res.bind_ok]
    rw [hp.bind (by exact hq)]
    exact ⟨_, rfl, ⟨hq, rfl, rfl, rfl, rfl, rfl, rfl, rfl⟩, rfl⟩

/-- A pass of `DL.DECODE`'s loop advances `dl.rd` within the packet, or it is fatal (R183). -/
def Res.Advances (s : State) : Res Unit → Prop
  | .ok _ t => Calm s t ∧ s.dlRd < t.dlRd ∧ t.dlRd ≤ t.dlLen
  | .halt t => t.halted = true
  | _ => False

/-- `DL.EXT` (R186). -/
theorem external_advances (sid) {s : State}
    (hq : s.quiet) :
    Res.Advances s (external sid s) := by
  unfold external State.askExtLen
  split
  rename_i n t ht
  have it : Calm s t ∧ t.dlRd = s.dlRd := by
    split at ht <;> obtain ⟨-, rfl⟩ := Prod.mk.inj ht <;>
      exact ⟨⟨hq, rfl, rfl, rfl, rfl, rfl, rfl, rfl⟩, rfl⟩
  split
  · rename_i h
    refine ⟨⟨it.1.1, it.1.2, it.1.3, it.1.4, it.1.5, it.1.6, it.1.7, it.1.8⟩, ?_, ?_⟩
    · show s.dlRd < t.dlRd + n; omega
    · show t.dlRd + n ≤ t.dlLen; omega
  · rfl

/-- The handler of a decoded record. -/
theorem runRecord_advances (hp : Still pt) {s : State}
    (hq : s.quiet) (hr : s.dlRd < s.dlLen) {i}
    (hd : decode s.packetRest = .ok i) : Res.Advances s (runRecord pt s i) := by
  have hcan : ∀ k, decodeDownlinkCan k s.packetRest = .ok i → Res.Advances s (runRecord pt s i) := by
    intro k hk
    unfold decodeDownlinkCan at hk
    split at hk
    · rename_i f hf
      injection hk with hk
      subst hk
      have hs := decCan_size hf
      rw [packetRest_length] at hs
      have hf3 : 3 ≤ f.size := by unfold CanFrame.size CanFrame.idLen; split <;> omega
      obtain ⟨t, a, b, c⟩ := downlinkFrame_completes hp k f hq (by omega)
      have ha : Res.Advances s (downlinkFrame pt k f s) := by
        rw [a]
        exact ⟨b, by omega, by rw [b.dlLen]; omega⟩
      obtain ⟨r, id, d⟩ := f
      cases k <;> cases id <;> exact ha
    · cases hk
  unfold decode at hd
  generalize hg : s.packetRest = l at *
  cases l with
  | nil => cases hd
  | cons h t =>
    dsimp only at hd
    split at hd <;> first
      | exact hcan _ hd
      | (injection hd with hd; subst hd
         first
           | exact external_advances _ hq
           | exact rfl
           | (split
              · obtain ⟨t, h1, h2, h3⟩ := connect_still hp hq
                simp only [runRecord]
                rw [h3]
                exact ⟨⟨h2.1, h2.2, h2.3, h2.4, h2.5, h2.6, h2.7, h2.8⟩,
                  by show _ < s.dlRd + 1; omega, by show s.dlRd + 1 ≤ t.dlLen; rw [h2.dlLen]; omega⟩
              · rename_i hne
                simp only [runRecord, control]
                rw [if_pos hne]
                exact rfl))

theorem packetRest_ne_nil {s : State} (h : s.dlRd < s.dlLen) : s.packetRest ≠ [] := by
  intro e; have := congrArg List.length e; rw [packetRest_length] at this; simp at this; omega

/-- Where the packet has a byte left there is a record to read. -/
theorem decode_ne_empty {s : State} (h : s.dlRd < s.dlLen) : decode s.packetRest ≠ .error .empty := by
  intro e
  unfold decode at e
  split at e
  · rename_i hh; exact packetRest_ne_nil h hh
  · have : ∀ k l, decodeDownlinkCan k l ≠ .error .empty := by
      intro k l e; unfold decodeDownlinkCan at e; split at e <;> cases e
    split at e <;> first | exact this _ _ e | cases e

/-- One pass of `DL.DECODE`'s loop. -/
theorem decodeOne_advances (hp : Still pt) {s : State}
    (hq : s.quiet) (hr : s.dlRd < s.dlLen) :
    Res.Advances s (decodeOne pt s) := by
  unfold decodeOne
  split
  · rename_i h; exact runRecord_advances hp hq hr h
  · exact rfl
  · rename_i h; exact absurd h (decode_ne_empty hr)

/-- `DL.DECODE`'s loop ends, at the packet's end or in the fatal halt. -/
theorem decodeLoop_completes (hp : Still pt) (n : Nat) {s : State}
    (hq : s.quiet) (hr : s.dlRd ≤ s.dlLen) (hn : s.dlLen - s.dlRd ≤ n) :
   (∃ t, decodeLoop pt n s = .ok () t ∧ Calm s t ∧ t.dlRd = t.dlLen) ∨
      ∃ t, decodeLoop pt n s = .halt t ∧ t.halted = true := by
  induction n generalizing s with
  | zero => exact .inl ⟨s, rfl, Calm.refl hq, by omega⟩
  | succ n ih =>
    unfold decodeLoop
    split
    · rename_i hlt
      have := decodeOne_advances hp hq hlt
      cases h : decodeOne pt s with
      | ok a t =>
        rw [h] at this
        obtain ⟨c, h1, h2⟩ := this
        rw [Res.bind_ok, hp.bind c.1]
        rcases ih c.1 h2 (by rw [c.dlLen]; omega) with ⟨u, hu, cu, hh⟩ | h
        · exact .inl ⟨u, hu, c.trans cu, hh⟩
        · exact .inr h
      | halt t => rw [h] at this; exact .inr ⟨t, rfl, this⟩
      | fault e => rw [h] at this; exact this.elim
      | refused e => rw [h] at this; exact this.elim
    · exact .inl ⟨s, rfl, Calm.refl hq, by omega⟩

/-- The bound of `DL.DECODE`'s passes covers the packet. -/
theorem packetBudget_covers (s : State) : s.dlLen - s.dlRd ≤ s.packetBudget := by
  unfold State.packetBudget
  omega

/-- Nothing is left to decode. -/
theorem decodeLoop_done (n : Nat) {s : State} (hn : s.dlLen ≤ s.dlRd) : decodeLoop pt n s = .ok () s := by
  cases n with
  | zero => rfl
  | succ n => unfold decodeLoop; rw [if_neg (by omega)]

/-- The bound of the loop does not matter where it covers the packet. -/
theorem decodeLoop_fuel {pt pt' : Hook} (hp : Still pt) (hp' : Still pt') (n m : Nat) {s : State}
    (hq : s.quiet) (hn : s.dlLen - s.dlRd ≤ n) (hm : s.dlLen - s.dlRd ≤ m)
   (he : ∀ u : State, u.quiet → decodeOne pt u = decodeOne pt' u) :
    decodeLoop pt n s = decodeLoop pt' m s := by
  induction n generalizing s m with
  | zero => rw [decodeLoop_done _ (by omega), decodeLoop_done _ (by omega)]
  | succ n ih =>
    by_cases h : s.dlRd < s.dlLen
    · obtain ⟨m, rfl⟩ : ∃ k, m = k + 1 := ⟨m - 1, by omega⟩
      unfold decodeLoop
      rw [if_pos h, if_pos h, ← he s hq]
      have := decodeOne_advances hp hq h
      cases h : decodeOne pt s with
      | ok a t =>
        rw [h] at this
        obtain ⟨c, h1, h2⟩ := this
        rw [Res.bind_ok, Res.bind_ok, hp.bind c.1, hp'.bind c.1]
        exact ih m c.1 (by rw [c.dlLen]; omega) (by rw [c.dlLen]; omega)
      | halt t => rfl
      | fault e => rfl
      | refused e => rfl
    · rw [decodeLoop_done _ (by omega), decodeLoop_done _ (by omega)]

/-- A part of the main loop answers calmly, is fatal, or stops. -/
def Res.Calm {α : Type} (s : State) (r : Res α) : Prop :=
  r.Sat (fun _ t => Machine.Calm s t) fun t => t.halted = true

theorem askReady_calm {s : State} (hq : s.quiet) : Calm s s.askReady.2 := by
  unfold State.askReady
  split <;> exact ⟨hq, rfl, rfl, rfl, rfl, rfl, rfl, rfl⟩

theorem completeFlight_calm {s t : State} (c : Calm s t) : Calm s t.completeFlight := by
  unfold State.completeFlight
  split
  · exact ⟨c.1, c.2, c.3, c.4, c.5, c.6, c.7, c.8⟩
  · exact c

theorem pop_calm (hp : Still pt) {s t : State} (c : Calm s t) : (pop pt t).Calm s := by
  rw [pop_still hp c.1]
  split <;> exact ⟨c.1, c.2, c.3, c.4, c.5, c.6, c.7, c.8⟩

theorem resetOldest_calm (hp : Still pt) {s t : State} (c : Calm s t) : (resetOldest pt t).Calm s := by
  by_cases h : t.bbProduced = t.bbConsumed
  · unfold resetOldest
    rw [if_pos h]
    trivial
  · rw [resetOldest_still hp c.1 h]
    exact ⟨c.1, c.2, c.3, c.4, c.5, c.6, c.7, c.8⟩

theorem point_calm (hp : Still pt) {s t : State} (c : Calm s t) : (pt t).Calm s := by
  rw [hp t c.1]
  exact c

/-- `UL.PUMP` (40_batch_buffer.md R139). -/
theorem pump_calm (hp : Still pt) {s t : State} (c : Calm s t) : (pump pt t).Calm s := by
  have h := c.trans (askReady_calm c.1)
  unfold pump
  split
  · rename_i u hu
    rw [hu] at h
    exact h
  · rename_i u hu
    rw [hu] at h
    refine (point_calm hp (completeFlight_calm h)).bind fun _ v cv => ?_
    refine Res.Sat.bind (Q := fun _ w => Machine.Calm s w) ?_ fun _ w cw => ?_
    · split
      · refine (resetOldest_calm hp cv).bind fun _ x cx => (point_calm hp cx).bind fun _ y cy => ?_
        exact point_calm hp ⟨cy.1, cy.2, cy.3, cy.4, cy.5, cy.6, cy.7, cy.8⟩
      · exact cv
    · refine (pop_calm hp cw).bind fun r x cx => ?_
      split
      · exact cx
      · refine (point_calm hp cx).bind fun _ y cy => ?_
        refine (point_calm hp (t := y.tpSend _ _)
          ⟨cy.1, cy.2, cy.3, cy.4, cy.5, cy.6, cy.7, cy.8⟩).bind fun _ z cz => ?_
        exact ⟨cz.1, cz.2, cz.3, cz.4, cz.5, cz.6, cz.7, cz.8⟩

theorem txSlot_calm (k : Chan) (e : Entry) {s t : State} (c : Calm s t) : (txSlot k e t).Calm s := by
  unfold txSlot State.askTxPut
  split
  rename_i i u hu
  have cu : Machine.Calm s u := by
    split at hu <;> obtain ⟨-, rfl⟩ := Prod.mk.inj hu
    · exact c.setHw k rfl
    · exact ⟨c.1, c.2, c.3, c.4, c.5, c.6, c.7, c.8⟩
  split
  · show (u.raiseFatal 4 (.chan k)).halted = true
    rfl
  · exact (cu.txWrite k i _).txRequest k i

theorem deqTake_calm (k : Chan) (c : Cursor) (n i : Nat) {s t : State} (ct : Calm s t) :
    (deqTake k (txSlot k) c n i t).Calm s := by
  induction n generalizing i t with
  | zero => exact ct
  | succ n ih =>
    unfold deqTake
    exact (txSlot_calm k _ ct).bind fun _ u cu => (ih (i + 1) cu).bind fun _ v cv => cv

theorem moveOut_calm (k : Chan) (c : Cursor) (n : Nat) {s t : State} (ct : Calm s t) :
    Calm s (t.moveOut k c n) := by
  obtain ⟨sl, h, -⟩ := moveOut_slots t k c n
  rw [h]
  exact ⟨ct.1, ct.2, ct.3, ct.4, ct.5, ct.6, ct.7, ct.8⟩

/-- `CAN.PUMP` (43_can_codec.md R214). -/
theorem transmitPump_calm (hp : Still pt) (k : Chan) {s t : State} (c : Calm s t) :
    (transmitPump pt k t).Calm s := by
  unfold transmitPump State.askTxFree
  split
  rename_i n u hu
  have cu : Machine.Calm s u := by
    split at hu <;> obtain ⟨-, rfl⟩ := Prod.mk.inj hu
    · exact c.setHw k rfl
    · exact ⟨c.1, c.2, c.3, c.4, c.5, c.6, c.7, c.8⟩
  split
  · trivial
  · refine (point_calm hp cu).bind fun _ v cv =>
      Res.Sat.bind (Q := fun _ w => Machine.Calm s w) ?_ fun _ w cw => cw
    unfold fqDequeue
    dsimp only
    split
    · exact cv
    · refine (deqTake_calm k _ _ _ cv).bind fun _ w cw => ?_
      have cm := moveOut_calm k (v.fq.get k).consumed (min n (v.fq.get k).fill) (t := w.drawn)
        (s := s) ⟨cw.1, cw.2, cw.3, cw.4, cw.5, cw.6, cw.7, cw.8⟩
      exact ⟨cm.1, cm.2, cm.3, cm.4, cm.5, cm.6, cm.7, cm.8⟩

end Sys2Proof.Machine
end

