-- ==== Sys2Proof/Laws/PerInstr.lean ====
section
/-! SUPPORT. The family `RecordLength`: how long the encoding of a well-formed instruction is, one lemma per
constructor of `Instr` (30_encoding.md R101; 42_wire_framing.md R182). -/

namespace Sys2Proof.Laws.RecordLength

open Sys2Proof.Machine

/-- A record is at least its header; a downlink record is at most 13 bytes, and every record fits an empty batch. -/
def Statement (i : Instr) : Prop :=
  i.wf = true → ∀ bs, encode i = some bs →
    1 ≤ bs.length ∧ bs.length ≤ Config.batchPayloadMax ∧ (downlinkRecord i = true → bs.length ≤ longestRecord)

/-- The length of a CAN record (30_encoding.md R101). -/
theorem canBytes_length (sid : BitVec 4) (f : CanFrame) : (canBytes sid f).length = f.size := by
  obtain ⟨rtr, id, data⟩ := f
  unfold canBytes CanFrame.size CanFrame.idLen
  cases id <;> simp [bytesLE16, bytesLE32, CanId.isExt] <;> omega

theorem size_le (f : CanFrame) : f.size ≤ longestRecord := by
  have h : f.data.bytes.length ≤ 8 := f.data.fits
  unfold CanFrame.size CanFrame.idLen longestRecord
  split <;> omega

/-- A CAN record. -/
theorem can {i : Instr} {sid : BitVec 4} {f : CanFrame} (he : encode i = some (canBytes sid f)) : Statement i := by
  intro _ bs hbs
  rw [he, Option.some.injEq] at hbs
  subst hbs
  rw [canBytes_length]
  have hs := size_le f
  refine ⟨by unfold CanFrame.size; omega, le_trans hs (by decide), fun _ => hs⟩

/-- A record of a header byte alone. -/
theorem header {i : Instr} {h : Byte} (he : encode i = some [h]) : Statement i := by
  intro _ bs hbs
  rw [he, Option.some.injEq] at hbs
  subst hbs
  exact ⟨le_refl 1, show 1 ≤ 63 by decide, fun _ => show 1 ≤ 13 by decide⟩

/-- An opaque uplink record. -/
theorem opaqueRecord {i : Instr} {h : Byte} {rest : List Byte} (hw : i.wf = true → opaqueOk rest = true)
    (hd : downlinkRecord i = false) (he : encode i = some (h :: rest)) : Statement i := by
  intro w bs hbs
  rw [he, Option.some.injEq] at hbs
  subst hbs
  have := of_decide_eq_true (hw w)
  refine ⟨by simp, by simpa using this, fun h => by rw [hd] at h; exact absurd h Bool.false_ne_true⟩

/-- A port operation is no record. -/
theorem port {i : Instr} (he : encode i = none) : Statement i := by
  intro _ bs hbs
  rw [he] at hbs
  exact absurd hbs (by simp)

theorem dCtrlConnect : Statement (.dCtrlConnect) :=
  header rfl

theorem dCtrlReserved (cmd : BitVec 4) : Statement (.dCtrlReserved cmd) :=
  header rfl

theorem dGpio (hi : BitVec 4) : Statement (.dGpio hi) :=
  header rfl

theorem dCan1Std (rtr : Bool) (id : StdId) (data : Payload) : Statement (.dCan1Std rtr id data) :=
  can rfl

theorem dCan1Ext (rtr : Bool) (id : ExtId) (data : Payload) : Statement (.dCan1Ext rtr id data) :=
  can rfl

theorem dCan2Std (rtr : Bool) (id : StdId) (data : Payload) : Statement (.dCan2Std rtr id data) :=
  can rfl

theorem dCan2Ext (rtr : Bool) (id : ExtId) (data : Payload) : Statement (.dCan2Ext rtr id data) :=
  can rfl

theorem dCan3Std (rtr : Bool) (id : StdId) (data : Payload) : Statement (.dCan3Std rtr id data) :=
  can rfl

theorem dCan3Ext (rtr : Bool) (id : ExtId) (data : Payload) : Statement (.dCan3Ext rtr id data) :=
  can rfl

theorem dUart1 (hi : BitVec 4) : Statement (.dUart1 hi) :=
  header rfl

theorem dUart2 (hi : BitVec 4) : Statement (.dUart2 hi) :=
  header rfl

theorem dUart3 (hi : BitVec 4) : Statement (.dUart3 hi) :=
  header rfl

theorem dUart4 (hi : BitVec 4) : Statement (.dUart4 hi) :=
  header rfl

theorem dUart5 (hi : BitVec 4) : Statement (.dUart5 hi) :=
  header rfl

theorem dUart6 (hi : BitVec 4) : Statement (.dUart6 hi) :=
  header rfl

theorem dLed (hi : BitVec 4) : Statement (.dLed hi) :=
  header rfl

theorem dBuzzer (hi : BitVec 4) : Statement (.dBuzzer hi) :=
  header rfl

theorem dReserved13 (hi : BitVec 4) : Statement (.dReserved13 hi) :=
  header rfl

theorem dReserved14 (hi : BitVec 4) : Statement (.dReserved14 hi) :=
  header rfl

theorem dReserved15 (hi : BitVec 4) : Statement (.dReserved15 hi) :=
  header rfl

theorem uCtrl (hi : BitVec 4) (rest : List Byte) : Statement (.uCtrl hi rest) :=
  opaqueRecord id rfl rfl

theorem uGpio (hi : BitVec 4) (rest : List Byte) : Statement (.uGpio hi rest) :=
  opaqueRecord id rfl rfl

theorem uCan1Std (rtr : Bool) (id : StdId) (data : Payload) : Statement (.uCan1Std rtr id data) :=
  can rfl

theorem uCan1Ext (rtr : Bool) (id : ExtId) (data : Payload) : Statement (.uCan1Ext rtr id data) :=
  can rfl

theorem uCan2Std (rtr : Bool) (id : StdId) (data : Payload) : Statement (.uCan2Std rtr id data) :=
  can rfl

theorem uCan2Ext (rtr : Bool) (id : ExtId) (data : Payload) : Statement (.uCan2Ext rtr id data) :=
  can rfl

theorem uCan3Std (rtr : Bool) (id : StdId) (data : Payload) : Statement (.uCan3Std rtr id data) :=
  can rfl

theorem uCan3Ext (rtr : Bool) (id : ExtId) (data : Payload) : Statement (.uCan3Ext rtr id data) :=
  can rfl

theorem uUart1 (hi : BitVec 4) (rest : List Byte) : Statement (.uUart1 hi rest) :=
  opaqueRecord id rfl rfl

theorem uUart2 (hi : BitVec 4) (rest : List Byte) : Statement (.uUart2 hi rest) :=
  opaqueRecord id rfl rfl

theorem uUart3 (hi : BitVec 4) (rest : List Byte) : Statement (.uUart3 hi rest) :=
  opaqueRecord id rfl rfl

theorem uUart4 (hi : BitVec 4) (rest : List Byte) : Statement (.uUart4 hi rest) :=
  opaqueRecord id rfl rfl

theorem uUart5 (hi : BitVec 4) (rest : List Byte) : Statement (.uUart5 hi rest) :=
  opaqueRecord id rfl rfl

theorem uUart6 (hi : BitVec 4) (rest : List Byte) : Statement (.uUart6 hi rest) :=
  opaqueRecord id rfl rfl

theorem uSensor (hi : BitVec 4) (rest : List Byte) : Statement (.uSensor hi rest) :=
  opaqueRecord id rfl rfl

theorem uReserved12 (hi : BitVec 4) (rest : List Byte) : Statement (.uReserved12 hi rest) :=
  opaqueRecord id rfl rfl

theorem uReserved13 (hi : BitVec 4) (rest : List Byte) : Statement (.uReserved13 hi rest) :=
  opaqueRecord id rfl rfl

theorem uReserved14 (hi : BitVec 4) (rest : List Byte) : Statement (.uReserved14 hi rest) :=
  opaqueRecord id rfl rfl

theorem uReserved15 (hi : BitVec 4) (rest : List Byte) : Statement (.uReserved15 hi rest) :=
  opaqueRecord id rfl rfl

theorem bbAlloc (size : Nat) : Statement (.bbAlloc size) :=
  port rfl

theorem bbWrite (slot off : Nat) (byte : Byte) : Statement (.bbWrite slot off byte) :=
  port rfl

theorem bbPop : Statement (.bbPop) :=
  port rfl

theorem bbReset : Statement (.bbReset) :=
  port rfl

theorem bbRead (slot off : Nat) : Statement (.bbRead slot off) :=
  port rfl

theorem bbDiscardAll : Statement (.bbDiscardAll) :=
  port rfl

theorem ulPump : Statement (.ulPump) :=
  port rfl

theorem fqEnq (k : Chan) (build : Builder) (count : Nat) : Statement (.fqEnq k build count) :=
  port rfl

theorem fqDeq (k : Chan) (cb : Callback) (max : Nat) : Statement (.fqDeq k cb max) :=
  port rfl

theorem fqFlush (k : Chan) : Statement (.fqFlush k) :=
  port rfl

theorem ulCan (k : Chan) (ext rtr : Bool) (id : BitVec (CanId.width ext)) (data : Payload) :
    Statement (.ulCan k ext rtr id data) :=
  port rfl

theorem dlDecode : Statement (.dlDecode) :=
  port rfl

theorem canRx (k : Chan) : Statement (.canRx k) :=
  port rfl

theorem canPump (k : Chan) : Statement (.canPump k) :=
  port rfl

theorem canInit (k : Chan) : Statement (.canInit k) :=
  port rfl

theorem mainIter : Statement (.mainIter) :=
  port rfl

end Sys2Proof.Laws.RecordLength
end

