-- ==== Sys2Proof/Tests/Slice0.lean ====
section
/-! SUPPORT. Tests: ill-formed terms, words written out from the encodings of 30_encoding.md, one step of each
instruction against the vectors of 95_test_vectors.md, and for every statement a state that meets its hypotheses. -/

namespace Sys2Proof.Tests

open Sys2Proof.Machine

/-! States. -/

/-- A controller whose notification is armed. -/
def armed : HwPort := { HwPort.reset with rxArmed := true }

/-- The start state of the vectors: reset state after boot, interrupts unmasked. -/
def booted : State :=
  { State.reset with irqMasked := false, phase := .decode, hw := .const armed }

/-- A handler of the agent runs. -/
def handling (a : Agent) (s : State) : State := { s with stack := [⟨a, []⟩] }

/-- The handler of CAN1 runs. -/
def inRx1 (s : State) : State := handling (.canRx .can1) s

/-- The handler of an out-of-scope producer runs. -/
def inExt (s : State) : State := handling (.extProd 1) s

/-- A packet was deposited. -/
def packet (bs : List Byte) (s : State) : State :=
  { s with dlBuf := Memory.ofBytes 0 bs, dlLen := bs.length, dlRd := 0 }

/-- The Batch Buffer at `p/c` with the given written lengths, 1 beyond the list, each batch granted in one piece. -/
def batches (p c : Cursor) (w : List Nat) (s : State) : State :=
  { s with
    bbProduced := p, bbConsumed := c
    wlen := Vector.ofFn fun i : Slot => BitVec.ofNat 7 (w.getD i.val 1)
    ranges := Vector.ofFn fun i : Slot => if w.getD i.val 1 ≤ 1 then [] else [(1, w.getD i.val 1 - 1)] }

/-- The Frame Queue of CAN1 at `p/c`, its slots all holding `e`. -/
def queue (p c : Cursor) (e : Entry) (s : State) : State :=
  { s with fq := s.fq.set .can1 ⟨Vector.replicate 16 (some e), p, c⟩ }

/-- What stands of controller CAN1. -/
def port1 (h : HwPort) (s : State) : State := { s with hw := s.hw.set .can1 h }

/-- What is seen of a next state. -/
def see {α : Type} (o : Host.Outcome State Fault Refusal) (f : State → α) : Option α :=
  match o with
  | .next t => some (f t)
  | .fault _ => none
  | .refused _ => none

/-- Why an instruction was refused. -/
def refusal (o : Host.Outcome State Fault Refusal) : Option Refusal :=
  match o with
  | .next _ => none
  | .fault _ => none
  | .refused r => some r

/-- Entry of a caller: standard id `n`. -/
def entry (n : Nat) : Entry := ⟨BitVec.ofNat 32 n <<< 18, 0, Vector.replicate 8 0⟩

/-- An entry whose data-length code is none of 0 to 8 (10_state.md R30). -/
def longEntry : Entry := { entry 0 with dlc := 9 }

/-- The receive element of standard 0x123 with data 1 to 8 (program P1). -/
def element : RxElement := ⟨0x048C0000, 0x00080000, #v[1, 2, 3, 4, 5, 6, 7, 8]⟩

/-- A remote frame of standard 0x7FF (V-CAN-3). -/
def remoteElement : RxElement := ⟨0x3FFC0000, 0x00050000, Vector.replicate 8 0⟩

/-- V-WF-1. -/
def record1 : List Byte := [0x42, 0x23, 0x39, 1, 2, 3, 4, 5, 6, 7, 8]

/-- Data bytes of a CAN frame. -/
def bytes (bs : List Byte) (h : bs.length ≤ 8 := by decide) : Payload := ⟨bs, h⟩

/-! Parameters. -/

/-- The constraints of 00_scope.md R7 at the validated setting. -/
theorem test_parameters : 2 ^ Config.cursorBits % Config.batchCount = 0 ∧ 2 ^ Config.cursorBits % Config.fqCapacity = 0 ∧
    2 ≤ Config.batchSize ∧ Config.batchSize ≤ 2 ^ Config.wlenBits - 1 ∧ longestRecord ≤ Config.batchPayloadMax ∧
    Config.maxData = 2 ^ Config.lenBits := by decide

/-- `CAN_CHANNELS` controllers, CAN1 first, with the source ids 2, 3, 4 (R5, 30_encoding.md R96). -/
theorem test_channels : Chan.all = [.can1, .can2, .can3] ∧ Chan.all.map Chan.sid = [2, 3, 4] ∧
    Chan.all.map Chan.next = [some .can2, some .can3, none] := by decide

/-! WellFormed: each check refuses an ill-formed term. -/

theorem test_wf_command : Instr.wf (.dCtrlReserved 0) = false := by decide
theorem test_wf_uplink_remote : Instr.wf (.uCan1Std true 0 (bytes [1])) = false := by decide
theorem test_wf_opaque : Instr.wf (.uSensor 0 (List.replicate 63 0)) = false := by decide
theorem test_wf_alloc_zero : Instr.wf (.bbAlloc 0) = false := by decide
theorem test_wf_alloc_large : Instr.wf (.bbAlloc 64) = false := by decide
theorem test_wf_write_slot : Instr.wf (.bbWrite 8 1 0) = false := by decide
theorem test_wf_write_sentinel : Instr.wf (.bbWrite 0 0 0) = false := by decide
theorem test_wf_write_offset : Instr.wf (.bbWrite 0 64 0) = false := by decide
theorem test_wf_read_slot : Instr.wf (.bbRead 8 0) = false := by decide
theorem test_wf_read_offset : Instr.wf (.bbRead 0 64) = false := by decide
theorem test_wf_count : Instr.wf (.fqEnq .can1 .txBuild 0) = false := by decide
theorem test_wf_entry_dlc : Instr.wf (.fqEnq .can1 (.entries [entry 0, longEntry]) 2) = false := by decide
theorem test_wf_entry_bit31 : Instr.wf (.fqEnq .can1 (.entries [{ entry 0 with arb := 0x80000000 }]) 1) = false := by decide
theorem test_wf_entry_std_low : Instr.wf (.fqEnq .can1 (.entries [{ entry 0 with arb := 1 }]) 1) = false := by decide
theorem test_wf_admits : Instr.wf (.bbAlloc 63) = true ∧ Instr.wf (.bbWrite 7 63 0) = true ∧
    Instr.wf (.ulCan .can3 false true 0x7FF (bytes [1, 2, 3, 4, 5, 6, 7, 8])) = true ∧
    Instr.wf (.fqEnq .can1 (.entries [⟨0x5ABCDEF1, 8, Vector.replicate 8 0⟩]) 1) = true := by decide

/-! Decoding: a word of every constructor. Header `H`: sid 3:0, ext 4, rtr 5, has_data 6 (R91, R92);
`V16`: id 10:0, lenf 13:11 (R94); `V32`: id 28:0, lenf 31:29 (R95); bytes low first (R8). -/

theorem test_decode_dCtrlConnect : decode [0x00] = .ok .dCtrlConnect := by decide
theorem test_decode_dCtrlReserved : decode [0x50] = .ok (.dCtrlReserved 5) := by decide
theorem test_decode_dGpio : decode [0x01] = .ok (.dGpio 0) := by decide
-- V-WF-1
theorem test_decode_dCan1Std : decode record1 = .ok (.dCan1Std false 0x123 (bytes [1, 2, 3, 4, 5, 6, 7, 8])) := by decide
-- V-WF-5
theorem test_decode_dCan1Ext : decode [0x32, 0xFF, 0xFF, 0xFF, 0x1F] = .ok (.dCan1Ext true 0x1FFFFFFF .empty) := by decide
-- V-WF-7
theorem test_decode_dCan2Std : decode [0x43, 0xFF, 0x07, 0xFF] = .ok (.dCan2Std false 0x7FF (bytes [0xFF])) := by decide
-- V-WF-2
theorem test_decode_dCan2Ext : decode [0x53, 0xF0, 0xDE, 0xBC, 0x3A, 0xAA, 0xBB] =
    .ok (.dCan2Ext false 0x1ABCDEF0 (bytes [0xAA, 0xBB])) := by decide
-- V-WF-3
theorem test_decode_dCan3Std : decode [0x24, 0xFF, 0x07] = .ok (.dCan3Std true 0x7FF .empty) := by decide
-- V-WF-6
theorem test_decode_dCan3Ext : decode [0x54, 0, 0, 0, 0xE0, 0x11, 0x22, 0x33, 0x44, 0x55, 0x66, 0x77, 0x88] =
    .ok (.dCan3Ext false 0 (bytes [0x11, 0x22, 0x33, 0x44, 0x55, 0x66, 0x77, 0x88])) := by decide
theorem test_decode_dUart1 : decode [0x05] = .ok (.dUart1 0) := by decide
theorem test_decode_dUart2 : decode [0x16] = .ok (.dUart2 1) := by decide
theorem test_decode_dUart3 : decode [0x27] = .ok (.dUart3 2) := by decide
theorem test_decode_dUart4 : decode [0x38] = .ok (.dUart4 3) := by decide
theorem test_decode_dUart5 : decode [0x49] = .ok (.dUart5 4) := by decide
theorem test_decode_dUart6 : decode [0x0A] = .ok (.dUart6 0) := by decide
theorem test_decode_dLed : decode [0x0B] = .ok (.dLed 0) := by decide
theorem test_decode_dBuzzer : decode [0xFC] = .ok (.dBuzzer 15) := by decide
theorem test_decode_dReserved13 : decode [0xFD] = .ok (.dReserved13 15) := by decide
theorem test_decode_dReserved14 : decode [0x0E] = .ok (.dReserved14 0) := by decide
theorem test_decode_dReserved15 : decode [0x0F] = .ok (.dReserved15 0) := by decide
-- V-WF-D4: the reserved bits are ignored
theorem test_decode_reserved_bits : decode [0xC2, 0x23, 0xF9, 1, 2, 3, 4, 5, 6, 7, 8] = decode record1 := by decide
-- V-WF-D5: `rtr` = 1 with a payload is accepted
theorem test_decode_remote_data : decode [0x62, 0x23, 0x09, 0xAA, 0xBB] =
    .ok (.dCan1Std true 0x123 (bytes [0xAA, 0xBB])) := by decide
-- V-WF-D6: `lenf` is ignored without `has_data`
theorem test_decode_lenf : decode [0x02, 0x00, 0x38] = .ok (.dCan1Std false 0 .empty) := by decide
-- V-WF-D7 to D9
theorem test_decode_truncated : decode [0x42, 0x23, 0x39, 1, 2] = .error .truncated ∧
    decode [0x53, 0xF0, 0xDE] = .error .truncated ∧ decode [0x42] = .error .truncated := by decide

theorem test_decode_uCtrl : decodeUplink [0x10, 0xAA] = .ok (.uCtrl 1 [0xAA]) := by decide
theorem test_decode_uGpio : decodeUplink [0x01] = .ok (.uGpio 0 []) := by decide
theorem test_decode_uCan1Std : decodeUplink record1 = .ok (.uCan1Std false 0x123 (bytes [1, 2, 3, 4, 5, 6, 7, 8])) := by decide
theorem test_decode_uCan1Ext : decodeUplink [0x32, 0xFF, 0xFF, 0xFF, 0x1F] =
    .ok (.uCan1Ext true 0x1FFFFFFF .empty) := by decide
theorem test_decode_uCan2Std : decodeUplink [0x43, 0xFF, 0x07, 0xFF] = .ok (.uCan2Std false 0x7FF (bytes [0xFF])) := by decide
theorem test_decode_uCan2Ext : decodeUplink [0x53, 0xF0, 0xDE, 0xBC, 0x3A, 0xAA, 0xBB] =
    .ok (.uCan2Ext false 0x1ABCDEF0 (bytes [0xAA, 0xBB])) := by decide
theorem test_decode_uCan3Std : decodeUplink [0x24, 0xFF, 0x07] = .ok (.uCan3Std true 0x7FF .empty) := by decide
theorem test_decode_uCan3Ext : decodeUplink [0x54, 0, 0, 0, 0xE0, 0x11, 0x22, 0x33, 0x44, 0x55, 0x66, 0x77, 0x88] =
    .ok (.uCan3Ext false 0 (bytes [0x11, 0x22, 0x33, 0x44, 0x55, 0x66, 0x77, 0x88])) := by decide
theorem test_decode_uUart1 : decodeUplink [0x05, 1] = .ok (.uUart1 0 [1]) := by decide
theorem test_decode_uUart2 : decodeUplink [0x16, 2] = .ok (.uUart2 1 [2]) := by decide
theorem test_decode_uUart3 : decodeUplink [0x27, 3] = .ok (.uUart3 2 [3]) := by decide
theorem test_decode_uUart4 : decodeUplink [0x38, 4] = .ok (.uUart4 3 [4]) := by decide
theorem test_decode_uUart5 : decodeUplink [0x49, 5] = .ok (.uUart5 4 [5]) := by decide
theorem test_decode_uUart6 : decodeUplink [0x5A, 6] = .ok (.uUart6 5 [6]) := by decide
theorem test_decode_uSensor : decodeUplink [0x3B, 0x05] = .ok (.uSensor 3 [0x05]) := by decide
theorem test_decode_uReserved12 : decodeUplink [0x0C] = .ok (.uReserved12 0 []) := by decide
theorem test_decode_uReserved13 : decodeUplink [0x1D] = .ok (.uReserved13 1 []) := by decide
theorem test_decode_uReserved14 : decodeUplink [0x2E] = .ok (.uReserved14 2 []) := by decide
theorem test_decode_uReserved15 : decodeUplink [0x3F] = .ok (.uReserved15 3 []) := by decide

/-- The select codes of 30_encoding.md R115, in the table's order; the table gives the operands no bits. -/
theorem test_decode_select : (List.range 16).map (fun n => decodeTableWord 4 n) =
    [some (.bbAlloc 0), some (.bbWrite 0 0 0), some .bbPop, some .bbReset, some (.bbRead 0 0), some .bbDiscardAll,
     some .ulPump, some (.fqEnq .can1 .txBuild 0), some (.fqDeq .can1 .txSlot 0), some (.fqFlush .can1),
     some (.ulCan .can1 false false 0 .empty), some .dlDecode, some (.canRx .can1), some (.canPump .can1),
     some (.canInit .can1), some .mainIter] := by decide

-- the first byte is the least significant
theorem test_decode_table_word : decodeTableWord 24 0x07FF24 = some (.dCan3Std true 0x7FF .empty) := by decide

/-! Downlink records, one step each. -/

-- V-EX-1: three closed batches are discarded; `BB.POP` steps close the third
theorem test_dCtrlConnect : see (step (packet [0x00] (batches 3 0 [12, 12, 12] booted)))
    (fun t => (t.bbProduced, t.bbConsumed, t.wlen, t.dlRd)) = some (4, 3, Vector.replicate 8 1, 1) := by decide
theorem test_dCtrlConnect_flags : see
    (step { packet [0x00] booted with uplinkCongested := true, downlinkCongested := true, txPending := true })
    (fun t => (t.uplinkCongested, t.downlinkCongested, t.txPending, t.diagTrace)) =
      some (false, false, false, [.diagReset]) := by decide
-- V-EX-2
theorem test_dCtrlReserved : see (step (packet [0x10] booted))
    (fun t => (t.halted, t.fatalCode, t.irqMasked, t.diagTrace)) =
      some (true, 1, true, [.fatal 1 (.cmd 1)]) := by decide
-- 42_wire_framing.md R184: command 0 is connect, whichever row is named
theorem test_dCtrlReserved_zero : see (exec (.dCtrlReserved 0) (packet [0x00] booted))
    (fun t => (t.dlRd, t.diagTrace, t.halted)) = some (1, [.diagReset], false) := by decide
-- V-WF-H6
theorem test_dReserved13 : see (step (packet [0xFD] booted)) (fun t => (t.halted, t.fatalCode, t.fatalInfo)) =
    some (true, 2, .sid 13) := by decide
theorem test_dReserved14 : see (step (packet [0x0E] booted)) (fun t => (t.halted, t.fatalCode, t.fatalInfo)) =
    some (true, 2, .sid 14) := by decide
theorem test_dReserved15 : see (step (packet [0x0F] booted)) (fun t => (t.halted, t.fatalCode, t.fatalInfo)) =
    some (true, 2, .sid 15) := by decide
-- program P2, record 1
theorem test_dCan1Std : see (step (packet record1 booted))
    (fun t => ((t.fq.get .can1).slots[0], (t.fq.get .can1).produced, t.dlRd)) =
      some (some ⟨0x048C0000, 8, #v[1, 2, 3, 4, 5, 6, 7, 8]⟩, 1, 11) := by decide
-- V-EX-5: the queue is full
theorem test_dCan1Std_full : see (step (packet record1 (queue 16 0 (entry 0) booted)))
    (fun t => ((t.fq.get .can1).produced, t.dlRd, t.downlinkCongested, t.diagTrace, t.halted)) =
      some (16, 11, true, [.downlinkCongestion], false) := by decide
-- V-CAN-9
theorem test_dCan1Ext : see (step (packet [0x32, 0xFF, 0xFF, 0xFF, 0x1F] booted))
    (fun t => ((t.fq.get .can1).slots[0].map fun e => (e.arb, e.dlc), t.dlRd)) = some (some (0x7FFFFFFF, 0), 5) := by decide
-- program P5, record 2: the entry's data goes on with the next record's bytes
theorem test_dCan2Std : see (step (packet [0x43, 0xFF, 0x07, 0xFF, 0x02, 0x01, 0x00] booted))
    (fun t => ((t.fq.get .can2).slots[0].map fun e => (e.arb, e.dlc, e.data.toList.take 4), t.dlRd)) =
      some (some (0x1FFC0000, 1, [0xFF, 0x02, 0x01, 0x00]), 4) := by decide
-- V-CAN-7
theorem test_dCan2Ext : see (step (packet [0x53, 0xF0, 0xDE, 0xBC, 0x3A, 0xAA, 0xBB] booted))
    (fun t => ((t.fq.get .can2).slots[0].map fun e => (e.arb, e.dlc, e.data.toList.take 2), t.dlRd)) =
      some (some (0x5ABCDEF0, 2, [0xAA, 0xBB]), 7) := by decide
-- V-CAN-8
theorem test_dCan3Std : see (step (packet [0x24, 0xFF, 0x07] booted))
    (fun t => ((t.fq.get .can3).slots[0].map fun e => (e.arb, e.dlc), (t.fq.get .can3).produced, t.dlRd)) =
      some (some (0x3FFC0000, 0), 1, 3) := by decide
-- V-WF-6
theorem test_dCan3Ext : see (step (packet [0x54, 0, 0, 0, 0xE0, 0x11, 0x22, 0x33, 0x44, 0x55, 0x66, 0x77, 0x88] booted))
    (fun t => ((t.fq.get .can3).slots[0], t.dlRd)) =
      some (some ⟨0x40000000, 8, #v[0x11, 0x22, 0x33, 0x44, 0x55, 0x66, 0x77, 0x88]⟩, 13) := by decide
-- V-EX-4
theorem test_dCan_truncated : see (step (packet [0x42, 0x23, 0x39, 1, 2] booted))
    (fun t => (t.halted, t.fatalCode, t.fatalInfo, t.dlRd, (t.fq.get .can1).produced)) = some (true, 3, .rd 0, 0, 0) := by decide
-- V-WF-H5: `DL.EXT` with the handler's answer 2; 0 and past the end are fatal cause 3 (R186)
theorem test_dGpio : see (step { packet [0x01, 0xAA] booted with extLenIn := [2] }) (fun t => (t.dlRd, t.halted)) =
    some (2, false) := by decide
theorem test_dUart1 : see (step { packet [0x05, 0] booted with extLenIn := [1] }) (·.dlRd) = some 1 := by decide
theorem test_dUart2 : see (step { packet [0x06, 0] booted with extLenIn := [1] }) (·.dlRd) = some 1 := by decide
theorem test_dUart3 : see (step { packet [0x07, 0] booted with extLenIn := [1] }) (·.dlRd) = some 1 := by decide
theorem test_dUart4 : see (step { packet [0x08, 0] booted with extLenIn := [1] }) (·.dlRd) = some 1 := by decide
theorem test_dUart5 : see (step { packet [0x09, 0] booted with extLenIn := [1] }) (·.dlRd) = some 1 := by decide
theorem test_dUart6 : see (step { packet [0x0A, 0] booted with extLenIn := [1] }) (·.dlRd) = some 1 := by decide
theorem test_dLed : see (step { packet [0x0B] booted with extLenIn := [0] })
    (fun t => (t.dlRd, t.fatalCode, t.fatalInfo)) = some (0, 3, .rd 0) := by decide
theorem test_dBuzzer : see (step { packet [0xFC] booted with extLenIn := [2] })
    (fun t => (t.dlRd, t.fatalCode, t.fatalInfo)) = some (0, 3, .rd 0) := by decide

/-! Uplink records: the emission of one. -/

/-- The first bytes of batch 0 after its sentinel. -/
def stream (n : Nat) (t : State) : List (Option Byte) := (List.range n).map fun i => Memory.read .batch t.batch (1 + i)

-- program P1: the bytes of the record
theorem test_uCan1Std : see (exec (.uCan1Std false 0x123 (bytes [1, 2, 3, 4, 5, 6, 7, 8])) (inRx1 booted))
    (fun t => (stream 11 t, t.wlen[0], t.bbProduced, t.result)) =
      some (record1.map some, 12, 1, .written) := by decide
theorem test_uCan1Ext : see (exec (.uCan1Ext true 0x1FFFFFFF .empty) (inRx1 booted)) (stream 5) =
    some ([0x32, 0xFF, 0xFF, 0xFF, 0x1F].map some) := by decide
theorem test_uCan2Std : see (exec (.uCan2Std false 0x7FF (bytes [0xFF])) (handling (.canRx .can2) booted)) (stream 4) =
    some ([0x43, 0xFF, 0x07, 0xFF].map some) := by decide
theorem test_uCan2Ext : see (exec (.uCan2Ext false 0x1ABCDEF0 (bytes [0xAA, 0xBB])) (handling (.canRx .can2) booted)) (stream 7) =
    some ([0x53, 0xF0, 0xDE, 0xBC, 0x3A, 0xAA, 0xBB].map some) := by decide
theorem test_uCan3Std : see (exec (.uCan3Std true 0x7FF .empty) (handling (.canRx .can3) booted)) (stream 3) =
    some ([0x24, 0xFF, 0x07].map some) := by decide
theorem test_uCan3Ext : see (exec (.uCan3Ext false 0 (bytes [0x11])) (handling (.canRx .can3) booted)) (stream 6) =
    some ([0x54, 0x00, 0x00, 0x00, 0x00, 0x11].map some) := by decide
theorem test_uCtrl : see (exec (.uCtrl 1 [7]) (inExt booted)) (stream 2) = some [some 0x10, some 7] := by decide
theorem test_uGpio : see (exec (.uGpio 2 [7]) (inExt booted)) (stream 2) = some [some 0x21, some 7] := by decide
theorem test_uUart1 : see (exec (.uUart1 0 [7]) (inExt booted)) (stream 2) = some [some 0x05, some 7] := by decide
theorem test_uUart2 : see (exec (.uUart2 0 [7]) (inExt booted)) (stream 2) = some [some 0x06, some 7] := by decide
theorem test_uUart3 : see (exec (.uUart3 0 [7]) (inExt booted)) (stream 2) = some [some 0x07, some 7] := by decide
theorem test_uUart4 : see (exec (.uUart4 0 [7]) (inExt booted)) (stream 2) = some [some 0x08, some 7] := by decide
theorem test_uUart5 : see (exec (.uUart5 0 [7]) (inExt booted)) (stream 2) = some [some 0x09, some 7] := by decide
theorem test_uUart6 : see (exec (.uUart6 0 [7]) (inExt booted)) (stream 2) = some [some 0x0A, some 7] := by decide
theorem test_uSensor : see (exec (.uSensor 3 [7]) (inExt booted)) (stream 2) = some [some 0x3B, some 7] := by decide
theorem test_uReserved12 : refusal (exec (.uReserved12 0 []) (inExt booted)) = some .unassignedUplinkSource := by decide
theorem test_uReserved13 : refusal (exec (.uReserved13 0 []) (inExt booted)) = some .unassignedUplinkSource := by decide
theorem test_uReserved14 : refusal (exec (.uReserved14 0 []) (inExt booted)) = some .unassignedUplinkSource := by decide
theorem test_uReserved15 : refusal (exec (.uReserved15 0 []) (inExt booted)) = some .unassignedUplinkSource := by decide
-- V-EX-7: the buffer is full
theorem test_ulCan_dropped : see (exec (.ulCan .can1 false false 0x123 (bytes [1])) (inRx1 (batches 8 0 (List.replicate 8 64) booted)))
    (fun t => (t.result, t.diagTrace, t.uplinkCongested, t.bbProduced)) =
      some (.dropped, [.uplinkCongestion], true, 8) := by decide
-- V-WF-3: of a remote frame neither length nor data are sent
theorem test_ulCan : see (exec (.ulCan .can3 false true 0x7FF (bytes [1, 2, 3, 4, 5])) (handling (.canRx .can3) booted)) (fun t => (stream 3 t, t.wlen[0])) =
    some ([0x24, 0xFF, 0x07].map some, 4) := by decide

-- 42_wire_framing.md R182, 60_exceptions.md R248: another agent's source
theorem test_uGpio_foreign : refusal (exec (.uGpio 2 [7]) (inRx1 booted)) = some .foreignSource := by decide
theorem test_uCan2Std_foreign : refusal (exec (.uCan2Std false 0x7FF (bytes [0xFF])) (inRx1 booted)) = some .foreignSource := by decide
theorem test_uCan1Std_foreign : refusal (exec (.uCan1Std false 0x123 (bytes [1])) (inExt booted)) = some .foreignSource := by decide

/-! Batch Buffer. -/

-- V-BB-3b: 54 + 11 does not fit
theorem test_bbAlloc : see (exec (.bbAlloc 11) (inRx1 (batches 1 0 [54] booted)))
    (fun t => (t.result, t.bbProduced, t.wlen[0], t.wlen[1])) = some (.granted 1 1, 2, 54, 12) := by decide
-- V-BB-10: the cursor wraps
theorem test_bbAlloc_wraps : see (exec (.bbAlloc 3) (inRx1 (batches 0xFFFFFFFF 0xFFFFFFFF [] booted)))
    (fun t => (t.result, t.bbProduced, t.wlen[7])) = some (.granted 7 1, 0, 4) := by decide
/-- CAN1's handler holds offsets 1 and 2 of batch 1. -/
def granted : State :=
  { inRx1 (batches 2 0 [60, 3] booted) with grants := [⟨.canRx .can1, 1, 1, 2, [1, 2]⟩] }
theorem test_bbWrite : see (exec (.bbWrite 1 2 0xA5) granted)
    (fun t => (t.batch, t.grants.map (·.left))) = some ([(66, 0xA5)], [[1]]) := by decide
-- beyond the grant; the first byte of a grant as the header of an unassigned source (93_implementation_defined.md U15), of a UART
theorem test_bbWrite_refused : refusal (exec (.bbWrite 1 3 0xA5) granted) = some .notGranted ∧
    refusal (exec (.bbWrite 1 1 0x4C) granted) = some .unassignedUplinkSource ∧
    refusal (exec (.bbWrite 1 1 0x45) granted) = some .foreignSource := by decide
-- V-BB-2: the pop
theorem test_bbPop : see (exec .bbPop (batches 1 0 [22] booted)) (fun t => (t.result, t.bbProduced, t.bbConsumed)) =
    some (.popped 0 22, 2, 0) := by decide
-- V-BB-7: a producer of three bytes preempts after step Q3
theorem test_bbPop_preempted : see
    (exec .bbPop { port1 { armed with rxFifo := [remoteElement] } (batches 1 0 [22] booted) with
      arrivals := [[], [], [.fire (.canRx .can1)]] })
    (fun t => (t.result, t.bbProduced, t.wlen[0], (t.hw.get .can1).trace)) = some (.popped 0 25, 2, 25, [.rxAck]) := by decide
theorem test_bbReset : see (exec .bbReset (batches 2 0 [22] booted)) (fun t => (t.wlen[0], t.bbProduced, t.bbConsumed)) =
    some (1, 2, 1) := by decide
-- V-BB-8
theorem test_bbReset_refused : refusal (exec .bbReset booted) = some .nothingOpened := by decide
theorem test_bbRead : see (exec (.bbRead 0 1) { batches 2 0 [22] booted with popped := some (0, 22), batch := [(1, 0x24)] })
    (·.result) = some (.byte 0x24) := by decide
theorem test_bbRead_refused : refusal (exec (.bbRead 0 22) { batches 2 0 [22] booted with popped := some (0, 22) }) =
    some .notPopped := by decide
-- V-SRC-7
theorem test_bbDiscardAll : see (exec .bbDiscardAll (batches 3 0 [12, 12, 12] booted))
    (fun t => (t.bbProduced, t.bbConsumed, t.wlen)) = some (4, 3, Vector.replicate 8 1) := by decide
-- V-BB-11, call 1 and call 3
theorem test_ulPump : see (exec .ulPump { batches 1 0 [12] booted with readyIn := [true] })
    (fun t => (t.result, t.tpTrace, t.txPending, t.bbProduced)) = some (.sent, [(0, 12)], true, 2) := by decide
-- 10_state.md R44: the packet that is complete
theorem test_ulPump_complete : see (exec .ulPump { batches 2 0 [3] booted with
      readyIn := [true], txPending := true, inFlight := some ⟨0, 3, false⟩, batch := [(1, 0x01), (2, 0xA5)] })
    (fun t => (t.result, t.wlen[0], t.bbConsumed, t.txPending, t.wire)) = some (.idle, 1, 1, false,
      [(if Config.txIncludesSentinel then [Config.sentinel] else []) ++ [0x01, 0xA5]]) := rfl

/-! Frame Queue. -/

-- V-FQ-7: the cursors wrap
theorem test_fqEnq : see (exec (.fqEnq .can1 (.entries [entry 1, entry 2, entry 3, entry 4]) 4)
      (queue 0xFFFFFFFE 0xFFFFFFFE (entry 0) booted))
    (fun t => (t.result, (t.fq.get .can1).produced, (t.fq.get .can1).slots[14], (t.fq.get .can1).slots[1])) =
      some (.bool true, 2, some (entry 1), some (entry 4)) := by decide
-- V-FQ-4; 10_state.md R30: of an entry with a length code of 9 all but the code is published
theorem test_fqEnq_full : see (exec (.fqEnq .can1 (.entries [entry 1]) 1) (queue 16 0 (entry 0) booted))
    (fun t => (t.result, (t.fq.get .can1).produced)) = some (.bool false, 16) ∧
    see (exec (.fqEnq .can1 (.entries [entry 1, longEntry]) 2) booted)
      (fun t => (t.result, (t.fq.get .can1).produced, (t.fq.get .can1).slots[0], (t.fq.get .can1).slots[1].map (·.arb))) =
      some (.bool true, 2, some (entry 1), some longEntry.arb) := by decide
-- V-FQ-2
theorem test_fqDeq : see (exec (.fqDeq .can1 .collect 2) (queue 3 0 (entry 5) booted))
    (fun t => (t.result, (t.fq.get .can1).consumed)) = some (.dequeued true [entry 5, entry 5], 2) := by decide
-- V-FQ-3
theorem test_fqDeq_zero : see (exec (.fqDeq .can1 .collect 0) (queue 3 2 (entry 5) booted))
    (fun t => (t.result, (t.fq.get .can1).consumed)) = some (.dequeued false [], 2) := by decide
-- V-FQ-9
theorem test_fqFlush : see (exec (.fqFlush .can1) (queue 5 2 (entry 0) booted)) (fun t => (t.fq.get .can1).consumed) = some 5 := by decide

/-! Wire framing and CAN codec. -/

-- V-EX-3
theorem test_dlDecode : see (exec .dlDecode (packet [0x02, 0x00, 0x00, 0x0E] booted))
    (fun t => ((t.fq.get .can1).produced, t.dlRd, t.halted, t.fatalInfo)) = some (1, 3, true, .sid 14) := by decide
-- program P1, step 1; 60_exceptions.md R249: the last element clears the controller's interrupt, another leaves it
theorem test_canRx : see (exec (.canRx .can1) { inRx1 (port1 { armed with rxFifo := [element] } booted) with
      irqMasked := true, pending := [.canRx .can1, .canRx .can2] })
    (fun t => (stream 11 t, (t.hw.get .can1).rxFifo, (t.hw.get .can1).trace, t.pending)) =
      some (record1.map some, [], [.rxAck], [.canRx .can2]) ∧
    see (exec (.canRx .can1) { inRx1 (port1 { armed with rxFifo := [element, remoteElement] } booted) with
      irqMasked := true, pending := [.canRx .can1] }) (fun t => (t.result, t.pending)) = some (.written, [.canRx .can1]) := ⟨by decide, by decide⟩
-- V-EX-6; 43_can_codec.md R210: another controller's
theorem test_canRx_empty : see (exec (.canRx .can1) (inRx1 booted)) (fun t => (t.fatalCode, t.fatalInfo, (t.hw.get .can1).trace)) =
    some (4, .chan .can1, []) ∧ refusal (exec (.canRx .can2) (inRx1 booted)) = some .foreignSource := by decide
-- program P2, step 2: `tx_free() = 1`, `tx_put() = 0`
theorem test_canPump : see (exec (.canPump .can1) (port1 { armed with txFreeIn := [1], txPutIn := [0] }
      (queue 1 0 ⟨0x048C0000, 8, #v[1, 2, 3, 4, 5, 6, 7, 8]⟩ booted)))
    (fun t => (t.result, (t.fq.get .can1).consumed, (t.hw.get .can1).txRequest, (t.hw.get .can1).trace)) =
      some (.bool true, 1, [0],
        [.txWrite 0 ⟨0x048C0000, 0x00080000, #v[1, 2, 3, 4, 5, 6, 7, 8]⟩, .txRequest 0]) := by decide
-- V-CAN-12
theorem test_canPump_none_free : see (exec (.canPump .can1) (port1 { armed with txFreeIn := [0] } (queue 1 0 (entry 0) booted)))
    (fun t => (t.result, (t.fq.get .can1).consumed, (t.hw.get .can1).trace)) = some (.bool false, 0, []) := by decide
theorem test_canInit : see (exec (.canInit .can1) (port1 { HwPort.reset with cfgIn := [true, true, true] } State.reset))
    (fun t => ((t.hw.get .can1).rxArmed, (t.hw.get .can1).trace.length, t.halted)) = some (true, 3, false) := by decide
-- V-CAN-13
theorem test_canInit_err : see
    (exec (.canInit .can2) { State.reset with
      hw := State.reset.hw.set .can2 { HwPort.reset with cfgIn := [true, false] } })
    (fun t => (t.fatalCode, t.fatalInfo, (t.hw.get .can2).rxArmed)) = some (5, .initStep .can2 2, false) := by decide
/-- No transport, no free transmit slot. -/
def quietPorts (s : State) : State :=
  { s with
    readyIn := [false]
    hw := .const { armed with txFreeIn := [0] } }
-- program P5
theorem test_mainIter : see (exec .mainIter (quietPorts (packet [0x02, 0, 0, 0x43, 0xFF, 0x07, 0xFF, 0x02, 0x01, 0x00]
      (queue 16 0 (entry 0) booted))))
    (fun t => (t.dlRd, (t.fq.get .can1).produced, (t.fq.get .can2).produced, t.diagTrace, t.halted)) =
      some (10, 16, 1, [.downlinkCongestion, .downlinkCongestion], false) := by decide
-- V-CAN-1 to V-CAN-5
theorem test_rxDecode : rxDecode 0x048C0000 0x00081234 = ⟨false, .std 0x123, 8⟩ ∧
    rxDecode 0x5ABCDEF0 0x00020000 = ⟨false, .ext 0x1ABCDEF0, 2⟩ ∧
    rxDecode 0x3FFC0000 0x00050000 = ⟨true, .std 0x7FF, 5⟩ ∧
    rxDecode 0x848C0001 0xFFFFFFFF = ⟨false, .std 0x123, 8⟩ ∧
    rxDecode 0x7FFFFFFF 0 = ⟨true, .ext 0x1FFFFFFF, 0⟩ := by decide

/-! The schedule. -/

theorem test_step_enters_handler : see (step { booted with pending := [.canRx .can2] }) (·.stack) =
    some [⟨.canRx .can2, [.op (.canRx .can2)]⟩] := by decide
theorem test_step_masked : see (step { booted with pending := [.canRx .can2], irqMasked := true, phase := .unmask })
    (fun t => (t.stack, t.irqMasked)) = some ([], false) := by decide
theorem test_withFetchWord : see (step (State.reset.withFetchWord 24 0x07FF24)) (fun t => (t.fq.get .can3).produced) = some 1 := by decide

/-! Witnesses: for every statement with hypotheses, a state and operands that meet them all, and each clause at a
boundary of its range. -/

/-- Frames: standard with data, extended without, a remote frame with data. -/
def dataFrame : CanFrame := ⟨false, .std 0x7FF, bytes [1, 2, 3, 4, 5, 6, 7, 8]⟩
def emptyFrame : CanFrame := ⟨false, .ext 0x1FFFFFFF, .empty⟩
def remoteFrame : CanFrame := ⟨true, .std 0x123, bytes [1]⟩

/-- With nothing to come and nothing pending, nothing preempts. -/
theorem no_request {s : State} (ha : s.arrivals = []) (hp : s.pending = []) : s.quiet := ⟨ha, by simp [hp]⟩
theorem main_turn {s : State} (hh : s.halted = false) (ha : s.arrivals = []) (hp : s.pending = []) (hs : s.stack = []) :
    s.MainTurn := ⟨hh, no_request ha hp, hs⟩
theorem handler_turn {s : State} (hh : s.halted = false) (ha : s.arrivals = []) (hp : s.pending = [])
    (hc : s.inInterrupt = true) : s.HandlerTurn := ⟨hh, no_request ha hp, hc⟩

/-- A state of empty batches and Frame Queues, nothing granted, meets the invariant. -/
theorem inv_of {s : State} (h1 : s.cursorsOk) (h2 : s.wlenOk) (h3 : s.tilingOk) (h4 : s.batch = []) (h5 : s.dlBuf = [])
    (h6 : s.fq = State.reset.fq) (h7 : s.dlRd = 0) (h8 : s.halted = false) (h9 : s.grants = []) : s.Inv where
  cursors := h1
  wlens := h2
  tiling := h3
  sentinel := fun i => by rw [h4]; fin_cases i <;> rfl
  memory := by rw [State.memoryOk, h4, h5]; exact ⟨rfl, rfl⟩
  queues := fun k => by rw [h6]; cases k <;> decide
  entries := fun k j e he => by
    rw [h6] at he
    cases k <;> simp [State.reset, PerChan.get, PerChan.const, FrameQueue.reset] at he
  downlink := by rw [State.downlinkOk, h7]; exact Nat.zero_le _
  halt := fun h => absurd (h8.symm.trans h) Bool.false_ne_true
  grants := fun g h => by rw [h9] at h; exact absurd h List.not_mem_nil

theorem main_booted : booted.MainTurn := main_turn rfl rfl rfl rfl
theorem handler_booted : (inRx1 booted).HandlerTurn := handler_turn rfl rfl rfl (by decide)

/-- Two opened batches, the first closed with 21 bytes, and a `BB.RESET` asked for. -/
def resetting : State := { batches 2 0 [22] booted with calls := [.bbReset] }

theorem resetting_orderly : resetting.Orderly where
  ordered :=
    { place := .inl rfl
      empty := fun i h => by fin_cases i <;> first | rfl | exact absurd rfl (h 0 (by decide))
      filled := fun n h => by
        have : n = 0 := by have : n + 1 < 2 := h; omega
        subst this
        decide }
  sent := fun h => absurd h Bool.false_ne_true

-- the fewest opened batches of `State.resetsClosed`; the whole premise of the order
theorem witness_StepKeepsInv : resetting.Inv ∧ resetting.Orderly ∧ resetting.resetsClosed ∧
    ∃ t, step resetting = .next t ∧ t.halted = false :=
  ⟨inv_of (show (2 - 0 : Cursor).toNat ≤ 8 by decide) (fun i => by revert i; decide)
      (fun i => by fin_cases i <;> simp [resetting, batches, tiles, Config.wlenBits]) rfl rfl rfl rfl rfl rfl,
    resetting_orderly, fun _ => by decide, _, rfl, rfl⟩

theorem witness_resetsClosed : resetting.nextCall = some .bbReset ∧
    (handling .main { booted with calls := [.bbPop] }).nextCall = none ∧ booted.nextCall = none := by decide

theorem witness_StepRunsDecodedRecord : (packet [0xFC] booted).MainTurn ∧ (packet [0xFC] booted).calls = [] ∧
    (packet [0xFC] booted).phase = .decode ∧ (packet [0xFC] booted).dlRd < (packet [0xFC] booted).dlLen ∧
    decode (packet [0xFC] booted).packetRest = .ok (.dBuzzer 15) :=
  ⟨main_turn rfl rfl rfl rfl, rfl, rfl, by decide, by decide⟩

-- a request that is pending and may not start: the handler's own level
theorem witness_StepRunsHandlerCall :
    let s : State := { booted with stack := [⟨.canRx .can1, [.op (.canRx .can1)]⟩], pending := [.canRx .can1] }
    s.halted = false ∧ s.quiet ∧ s.stack = [⟨.canRx .can1, [.op (.canRx .can1)]⟩] :=
  ⟨rfl, ⟨rfl, fun r h => by
    obtain rfl := List.mem_singleton.1 h
    simp [State.admissible, IrqReq.agent]⟩, rfl⟩

theorem witness_MainSchedule (p : Phase) : ({ booted with phase := p } : State).MainTurn ∧
    ({ booted with phase := p } : State).calls = [] ∧ ({ booted with phase := p } : State).phase = p ∧
    ({ booted with phase := p } : State).dlLen ≤ ({ booted with phase := p } : State).dlRd :=
  ⟨main_turn rfl rfl rfl rfl, rfl, rfl, Nat.le_refl 0⟩

theorem witness_frames : dataFrame.rtr = false ∧ remoteFrame.rtr = true ∧ 2 ≤ (2 : BitVec 4).toNat ∧ (4 : BitVec 4).toNat ≤ 4 := by decide

-- the three cases of `dec_can`: no id field, no payload, whole
theorem witness_DecCanRule : ([0x42, 0x23] : List Byte).length < 1 + 2 ∧ ([0x42, 0x23, 0x39] : List Byte).length < 11 ∧
    11 ≤ record1.length ∧ (le16 0x23 0x39).extractLsb' 11 3 = 7#3 := by decide

theorem witness_SymmetricFormats : uplinkDataOk dataFrame.rtr dataFrame.data = true ∧
    uplinkDataOk emptyFrame.rtr emptyFrame.data = true := by decide

theorem witness_ReservedBitsIgnored : (0x42 : Byte).getLsbD 4 = false ∧ dataFrame.id.isExt = false := by decide

theorem witness_RoundTrips : downlinkRecord (.dCan1Std true 0x7FF (bytes [1])) = true ∧ (Instr.dCan1Std true 0x7FF (bytes [1])).wf = true ∧
    uplinkRecord (.uCan3Ext false 0 (bytes [1])) = true ∧ (Instr.uCan3Ext false 0 (bytes [1])).wf = true := by decide

theorem witness_RxDecodeRule : (0x5ABCDEF0 : Word).getLsbD 30 = true ∧ (0x048C0000 : Word).getLsbD 30 = false := by decide

theorem witness_AllocAppends : (inRx1 (batches 1 0 [1] booted)).HandlerTurn ∧
    (inRx1 (batches 1 0 [1] booted)).roomInNewest 63 ∧ (inRx1 (batches 1 0 [63] booted)).roomInNewest 1 :=
  ⟨handler_turn rfl rfl rfl (by decide), ⟨by decide, by decide⟩, by decide, by decide⟩

theorem witness_AllocOpens : (inRx1 booted).HandlerTurn ∧ ¬ (inRx1 booted).roomInNewest 1 ∧
    ((inRx1 booted).bbProduced - (inRx1 booted).bbConsumed).toNat ≠ Config.batchCount ∧ (inRx1 booted).nextEmpty :=
  ⟨handler_booted, fun h => h.1 rfl, by decide, fun _ => by decide⟩

/-- Eight full batches. -/
def fullBatches : State := batches 8 0 (List.replicate 8 64) booted

theorem witness_AllocFails : (inRx1 fullBatches).HandlerTurn ∧ ¬ (inRx1 fullBatches).roomInNewest 1 ∧
    ((inRx1 fullBatches).bbProduced - (inRx1 fullBatches).bbConsumed).toNat = Config.batchCount :=
  ⟨handler_turn rfl rfl rfl (by decide), fun h => absurd h.2 (by decide), by decide⟩

-- an opaque record of 64 bytes; another agent's source
theorem witness_ProducerDomains : (inRx1 booted).halted = false ∧ (inRx1 booted).inInterrupt = true ∧
    (inRx1 booted).running = .canRx .can1 ∧ (inExt booted).inInterrupt = true ∧ (inExt booted).running = .extProd 1 ∧
    62 < (List.replicate 63 (0 : Byte)).length ∧ emittedBytes (.uGpio 2 [7]) = some [0x21, 7] ∧
    emits (inRx1 booted).running (headerSid 0x21) = false ∧ (inRx1 booted).running ≠ .canRx .can2 := by decide

/-- 30_encoding.md R96, 42_wire_framing.md R182: the sources at the ends of an agent's ranges. -/
theorem test_emits : (List.range 16).map (fun n => (emits (.canRx .can3) (BitVec.ofNat 4 n), emits (.extProd 1) (BitVec.ofNat 4 n))) =
    [(false, true), (false, true), (false, false), (false, false), (true, false), (false, true), (false, true), (false, true),
     (false, true), (false, true), (false, true), (false, true), (false, false), (false, false), (false, false),
     (false, false)] := by decide

theorem witness_AllocGrantInBatch : see (exec (.bbAlloc 63) (inRx1 booted)) (fun t => (t.halted, t.result)) =
    some (false, .granted 0 1) := by decide

-- the last byte of the grant, its first with the handler's header, with an unassigned and with another's; a byte beyond it
theorem witness_WriteGranted : granted.HandlerTurn ∧ Memory.wf .batch granted.batch = true ∧
    (granted.grants.map fun g => g.covers granted.running 1 2) = [true] ∧
    (granted.grants.map fun g => g.covers granted.running 1 1) = [true] ∧ (granted.grants.map (·.off)) = [1] ∧
    emits granted.running (headerSid 0x42) = true ∧ emits granted.running (headerSid 0x4C) = false ∧
    12 ≤ (headerSid 0x4C).toNat ∧ emits granted.running (headerSid 0x45) = false ∧
    (granted.grants.map fun g => g.covers granted.running 1 3) = [false] :=
  ⟨handler_turn rfl rfl rfl (by decide), rfl, by decide, by decide, rfl, by decide, by decide, by decide, by decide, by decide⟩

-- an opaque record by an `ExtProd`; a CAN record by its controller's handler
theorem witness_Emit : (Instr.uSensor 3 [7]).wf = true ∧ emittedBytes (.uSensor 3 [7]) = some [0x3B, 7] ∧
    (inExt booted).HandlerTurn ∧ emits (inExt booted).running (headerSid 0x3B) = true ∧
    emits (inRx1 booted).running (headerSid 0x42) = true ∧
    (inExt (batches 1 0 [62] booted)).roomInNewest 2 ∧ ¬ (inExt booted).roomInNewest 2 ∧
    ¬ (inExt fullBatches).roomInNewest 2 ∧ Memory.wf .batch (inExt booted).batch = true :=
  ⟨by decide, by decide, handler_turn rfl rfl rfl (by decide), by decide, by decide, ⟨by decide, by decide⟩, fun h => h.1 rfl,
    fun h => absurd h.2 (by decide), rfl⟩

theorem witness_UnassignedUplinkStops : (inExt booted).halted = false ∧ (inExt booted).inInterrupt = true ∧
    granted.inInterrupt = true ∧ 12 ≤ (headerSid 0x0C).toNat ∧
    (granted.grants.map fun g => g.covers granted.running 1 1) = [true] ∧ (granted.grants.map (·.off)) = [1] := by decide

theorem witness_PopReturnsClosed : see (exec .bbPop (batches 1 0 [2] booted)) (fun t => (t.halted, t.result)) =
    some (false, .popped 0 2) := by decide

theorem witness_PopReturnsClosed_inv : (batches 1 0 [2] booted).Inv :=
  inv_of (show (1 - 0 : Cursor).toNat ≤ 8 by decide) (fun i => by revert i; decide)
    (fun i => by fin_cases i <;> simp [batches, tiles, Config.wlenBits]) rfl rfl rfl rfl rfl rfl

theorem witness_ResetRule : (batches 1 0 [2] booted).MainTurn ∧
    (batches 1 0 [2] booted).bbProduced ≠ (batches 1 0 [2] booted).bbConsumed ∧ booted.bbProduced = booted.bbConsumed :=
  ⟨main_turn rfl rfl rfl rfl, by decide, rfl⟩

-- the last byte of the popped batch, the first beyond it, another batch, nothing popped
theorem witness_ReadPopped : ({ booted with popped := some (0, 22) } : State).MainTurn ∧ 21 < 22 ∧ 22 ≤ 22 ∧
    (1 : Slot) ≠ 0 ∧ booted.popped = none := ⟨main_turn rfl rfl rfl rfl, by decide, by decide, by decide, rfl⟩

theorem full_filled : ∀ i : Slot, 1 < (fullBatches.wlen[i]).toNat := by decide

-- nothing opened; the buffer full
theorem witness_DiscardAllRule : booted.cursorsOk ∧ booted.OrderedFrom booted.bbConsumed ∧
    fullBatches.MainTurn ∧ fullBatches.cursorsOk ∧ fullBatches.OrderedFrom fullBatches.bbConsumed :=
  ⟨show (0 - 0 : Cursor).toNat ≤ 8 by decide,
    ⟨.inl rfl, fun i _ => by revert i; decide, fun n h => absurd h (by show ¬ n + 1 < 0; omega)⟩,
    main_turn rfl rfl rfl rfl, show (8 - 0 : Cursor).toNat ≤ 8 by decide,
    ⟨.inl rfl, fun i h => absurd (show slotOf (fullBatches.bbConsumed + BitVec.ofNat 32 i.val) = i by revert i; decide)
      (h i.val (by have := i.isLt; show i.val < 8; omega)), fun _ _ => full_filled _⟩⟩

-- busy; ready with nothing sent; ready with a batch sent; ready with `tx_pending` and nothing opened
theorem witness_PumpRule : ({ booted with readyIn := [false] } : State).askReady.1 = false ∧
    ({ batches 1 0 [2] booted with readyIn := [true] } : State).askReady.1 = true ∧
    ({ batches 1 0 [2] booted with readyIn := [true] } : State).txPending = false ∧
    ({ batches 2 0 [2] booted with readyIn := [true], txPending := true } : State).bbProduced ≠ 0 ∧
    ({ booted with readyIn := [true], txPending := true } : State).bbProduced = booted.bbConsumed := by decide

-- room, none, a caller's list shorter than the count
theorem witness_EnqueueRule : 1 ≤ min 5 ((queue 14 0 (entry 0) booted).fq.get .can1).free ∧
    min 1 ((queue 16 0 (entry 0) booted).fq.get .can1).free = 0 ∧ 1 < 2 ∧ (entry 1).wf = true ∧
    longEntry.wf = false := by decide

theorem witness_EnqueueRecord : (packet record1 booted).MainTurn ∧
    decCan (packet record1 booted).packetRest = some ⟨false, .std 0x123, bytes [1, 2, 3, 4, 5, 6, 7, 8]⟩ ∧
    1 ≤ ((packet record1 booted).fq.get .can1).free ∧
    ((packet record1 (queue 16 0 (entry 0) booted)).fq.get .can1).free = 0 :=
  ⟨main_turn rfl rfl rfl rfl, by decide, by decide, by decide⟩

theorem witness_DequeueRule : min 0 ((queue 3 2 (entry 5) booted).fq.get .can1).fill = 0 ∧
    min 5 ((queue 16 0 (entry 5) booted).fq.get .can1).fill = 5 := by decide

-- one queued entry and a new one; a full queue
theorem witness_QueueFifo : (∀ e ∈ ([entry 6] : List Entry).take (16 - 1), e.wf = true) ∧ ([entry 5] : List Entry).length = ((queue 1 0 (entry 5) booted).fq.get .can1).fill ∧
    ((queue 1 0 (entry 5) booted).fq.get .can1).slots[entryOf (0 + BitVec.ofNat 32 0)] = some (entry 5) ∧
    (List.replicate 16 (entry 5)).length = ((queue 16 0 (entry 5) booted).fq.get .can1).fill ∧
    (∀ j : Fin 16, ((queue 16 0 (entry 5) booted).fq.get .can1).slots[entryOf (0 + BitVec.ofNat 32 j.val)] =
      some (entry 5)) := by decide

theorem witness_CanRecordRule : (packet record1 booted).MainTurn ∧
    (packet record1 booted).dlRd + dataFrame.size ≤ (packet record1 booted).dlLen ∧
    1 ≤ ((packet record1 booted).fq.get .can1).free ∧
    ((packet record1 (queue 16 0 (entry 0) booted)).fq.get .can1).free = 0 :=
  ⟨main_turn rfl rfl rfl rfl, by decide, by decide, by decide⟩

theorem witness_DownlinkDomains : booted.halted = false ∧ booted.stack = [] ∧ booted.dlLen ≤ booted.dlRd ∧
    downlinkRecord (.dGpio 0) = true ∧ (packet [0] booted).dlRd < (packet [0] booted).dlLen ∧
    decCan (packet [0x42] booted).packetRest = none ∧ 1 ≤ ((packet [0x42] booted).fq.get .can1).free := by decide

-- the record one byte too long for its packet; a packet's bytes that decode to none
theorem witness_TruncatedRecordHalts : (packet (record1.dropLast) booted).MainTurn ∧
    (packet (record1.dropLast) booted).dlLen < (packet (record1.dropLast) booted).dlRd + dataFrame.size ∧
    (packet (record1.dropLast) booted).dlRd < (packet (record1.dropLast) booted).dlLen ∧
    (packet (record1.dropLast) booted).calls = [] ∧ (packet (record1.dropLast) booted).phase = .decode ∧
    decode (packet (record1.dropLast) booted).packetRest = .error .truncated :=
  ⟨main_turn rfl rfl rfl rfl, by decide, by decide, rfl, rfl, by decide⟩

theorem witness_ConnectRule : (packet [0] booted).MainTurn ∧ (packet [0] booted).dlRd < (packet [0] booted).dlLen ∧
    (packet [0] booted).halted = false ∧ (packet [0] booted).stack = [] ∧ (15 : BitVec 4) ≠ 0 :=
  ⟨main_turn rfl rfl rfl rfl, by decide, rfl, rfl, by decide⟩

-- an answer of 1, of all that is left, of 0, of one too many; no answer in State
theorem witness_ExternalRule : externalSid (.dLed 0) = some 11 ∧
    ({ packet [0x0B, 0] booted with extLenIn := [2] } : State).MainTurn ∧
    1 ≤ 1 ∧ 2 ≤ (packet [0x0B, 0] booted).dlLen - (packet [0x0B, 0] booted).dlRd ∧
    (packet [0x0B, 0] booted).dlLen - (packet [0x0B, 0] booted).dlRd < 3 ∧ (packet [0x0B, 0] booted).extLenIn = [] :=
  ⟨by decide, main_turn rfl rfl rfl rfl, by decide, by decide, by decide, rfl⟩

theorem witness_Decode : (packet [0x24, 0xFF, 0x07] booted).MainTurn ∧
    (packet [0x24, 0xFF, 0x07] booted).dlRd ≤ (packet [0x24, 0xFF, 0x07] booted).dlLen ∧
    decode (packet [0x24, 0xFF, 0x07] booted).packetRest = .ok (.dCan3Std true 0x7FF .empty) ∧
    booted.dlLen ≤ booted.dlRd := ⟨main_turn rfl rfl rfl rfl, by decide, by decide, by decide⟩

-- bytes that are no whole record
theorem witness_DecodeUnrolls : (packet [0x24, 0xFF] booted).MainTurn ∧
    decode (packet [0x24, 0xFF] booted).packetRest = .error .truncated := ⟨main_turn rfl rfl rfl rfl, by decide⟩

theorem witness_ReceiveRule : (inRx1 (port1 { armed with rxFifo := [element] } booted)).HandlerTurn ∧
    (inRx1 (port1 { armed with rxFifo := [element] } booted)).nextEmpty ∧
    (inRx1 (port1 { armed with rxFifo := [element] } booted)).running = .canRx .can1 ∧
    ((inRx1 (port1 { armed with rxFifo := [element] } booted)).hw.get .can1).rxFifo = [element] ∧
    (bytes [1, 2, 3, 4, 5, 6, 7, 8]).bytes = element.data.toList.take (rxDecode element.r0 element.r1).len :=
  ⟨handler_turn rfl rfl rfl (by decide), fun _ => by decide, rfl, rfl, by decide⟩

theorem witness_PortFaultHalts : (inRx1 booted).halted = false ∧ (inRx1 booted).running = .canRx .can1 ∧
    ((inRx1 booted).hw.get .can1).rxFifo = [] := ⟨rfl, rfl, rfl⟩

/-- CAN1's queue holds one entry, one slot is free and the controller names slot `i`. -/
def toSend (free i : Nat) : State := port1 { armed with txFreeIn := [free], txPutIn := [i] } (queue 1 0 (entry 5) booted)

-- a slot that does not exist
theorem witness_PortFaultHalts_slot : (toSend 1 Config.txSlots).MainTurn ∧ 1 ≤ Config.txSlots ∧
    Config.txSlots ≤ Config.txSlots ∧ 1 ≤ ((toSend 1 Config.txSlots).fq.get .can1).fill :=
  ⟨main_turn rfl rfl rfl rfl, Nat.succ_le_succ (Nat.zero_le _), Nat.le_refl _, by decide⟩

-- nothing free, one slot free, more than there are
theorem witness_TransmitPumpRule : (toSend 0 0).MainTurn ∧ min 0 ((toSend 0 0).fq.get .can1).fill = 0 ∧
    1 ≤ min 1 ((toSend 1 0).fq.get .can1).fill ∧ 1 ≤ Config.txSlots ∧ 0 < Config.txSlots ∧
    Config.txSlots < Config.txSlots + 1 :=
  ⟨main_turn rfl rfl rfl rfl, by decide, by decide, Nat.succ_le_succ (Nat.zero_le _), Nat.succ_pos _, Nat.lt_succ_self _⟩

theorem witness_InitRule : State.reset.MainTurn ∧ State.reset.phase.inBoot = true ∧ booted.phase.inBoot = false ∧
    ((port1 { HwPort.reset with cfgIn := [true, true, false] } State.reset).hw.get .can1).cfgIn = [true, true, false] :=
  ⟨main_turn rfl rfl rfl rfl, rfl, rfl, rfl⟩

theorem witness_IterationIdle : (quietPorts booted).MainTurn ∧ (quietPorts booted).dlLen ≤ (quietPorts booted).dlRd ∧
    (quietPorts booted).readyIn = [false] ∧
    ∀ k, ((quietPorts booted).hw.get k).txFreeIn = [0] ∧ 0 ≤ Config.txSlots ∧ ((quietPorts booted).fq.get k).fill = 0 :=
  ⟨main_turn rfl rfl rfl rfl, Nat.le_refl 0, rfl, fun k => by cases k <;> exact ⟨rfl, Nat.zero_le _, rfl⟩⟩

theorem witness_FatalEntry : ({ booted with halted := true } : State).halted = true := rfl

-- a request of any kind alone, in `Main`
theorem witness_HandlerEntry (r : IrqReq) : let s : State := { booted with pending := [r] }
    s.halted = false ∧ s.arrivals = [] ∧ s.pending = [] ++ r :: [] ∧ s.irqMasked = false ∧
    (∀ k, r = .canRx k → (s.hw.get k).rxArmed = true) ∧ (∀ a ∈ s.stack, Config.prio a.agent < Config.prio r.agent) ∧
    (∀ x ∈ ([] : List IrqReq), s.admissible x = true → Config.prio x.agent < Config.prio r.agent) ∧
    ∀ x ∈ ([] : List IrqReq), s.admissible x = true → Config.prio x.agent ≤ Config.prio r.agent :=
  ⟨rfl, rfl, rfl, rfl, fun k _ => by cases k <;> rfl, by simp [booted, State.reset], by simp, by simp⟩

-- before another of its own level
theorem witness_HandlerEntry_tie (a b : List Byte) : let s : State := { booted with pending := [.usbRx a, .usbRx b] }
    s.pending = [] ++ .usbRx a :: [.usbRx b] ∧
    ∀ x ∈ [IrqReq.usbRx b], s.admissible x = true → Config.prio x.agent ≤ Config.prio (IrqReq.usbRx a).agent :=
  ⟨rfl, fun x h _ => by obtain rfl := List.mem_singleton.1 h; exact Nat.le_refl _⟩

/-- CAN2 receives a frame before the next micro-step. -/
def receiving : State := { booted with arrivals := [[.rxFrame .can2 element]] }

-- room for the first element; a FIFO with none
theorem witness_HandlerEntry_frame : receiving.arrivals = [.rxFrame .can2 element] :: [] ∧
    (receiving.hw.get .can2).rxFifo.length < Config.rxFifoDepth ∧
    Config.rxFifoDepth ≤ (List.replicate Config.rxFifoDepth element).length :=
  ⟨rfl, Nat.succ_pos _, by simp⟩

-- 60_exceptions.md R249: the frame makes the interrupt pending, and its handler starts
theorem test_frame_interrupts :
    (match step receiving with
     | .next t => (t.pending, t.stack, (t.hw.get .can2).rxFifo)
     | _ => ([], [], [])) = ([], [⟨.canRx .can2, [.op (.canRx .can2)]⟩], [element]) := by decide

-- the environment's move makes the request pending that then starts
theorem witness_HighestPriorityStarts : pickRequest (fun _ => true) [.usbRx [1]] = some (.usbRx [1], []) ∧
    booted.halted = false ∧
    ∃ x ∈ ({ booted with arrivals := [[.fire (.usbRx [1])]] } : State).takeArrivals.pending,
      ({ booted with arrivals := [[.fire (.usbRx [1])]] } : State).takeArrivals.admissible x = true :=
  ⟨by decide, rfl, .usbRx [1], List.mem_singleton.2 rfl, by decide⟩

-- every granted byte written; one not written
theorem witness_HandlerReturn : (inRx1 booted).halted = false ∧ (inRx1 booted).quiet ∧ granted.quiet ∧ (∀ g ∈ (inRx1 booted).grants, g.left = []) ∧
    ∃ g ∈ granted.grants, g.owner = .canRx .can1 ∧ g.left ≠ [] :=
  ⟨rfl, no_request rfl rfl, no_request rfl rfl, fun g h => absurd h (List.not_mem_nil), _, List.mem_singleton.2 rfl, rfl, by decide⟩

theorem witness_MaskedNoHandler : State.reset.irqMasked = true ∧ State.reset.halted = false := ⟨rfl, rfl⟩

theorem witness_PreemptionKeepsConsumer : (batches 1 0 [2] booted).Inv ∧ ∃ t, point 0 (batches 1 0 [2] booted) = .ok () t :=
  ⟨witness_PopReturnsClosed_inv, _, rfl⟩

theorem witness_ContextRule : booted.halted = false ∧ booted.stack = [] ∧ (inRx1 booted).inInterrupt = true ∧
    producerInstr (.bbAlloc 1) = true ∧ producerInstr .bbPop = false := by decide

/-- `UsbRx` deposits a packet. -/
def depositing (bytes : List Byte) (s : State) : State := { s with stack := [⟨.usbRx, [.deposit bytes]⟩] }

-- one byte, `DL_MAX` bytes, none, one too many, the last packet not decoded, another agent
theorem witness_DepositRule : (depositing [0] booted).halted = false ∧ (depositing [0] booted).quiet ∧ 1 ≤ ([0] : List Byte).length ∧
    (List.replicate Config.dlMax (0 : Byte)).length ≤ Config.dlMax ∧
    Config.dlMax < (List.replicate (Config.dlMax + 1) (0 : Byte)).length ∧ booted.dlLen ≤ booted.dlRd ∧
    (packet [0] booted).dlRd < (packet [0] booted).dlLen ∧ Agent.main ≠ .usbRx :=
  ⟨rfl, no_request rfl rfl, by decide, by simp, by simp, by decide, by decide, by decide⟩

end Sys2Proof.Tests
end

section
/-! SUPPORT. Every step keeps the invariant, and the order of the batches where no `BB.RESET` meets one that is not
closed: what a whole operation leads to (`Lands`), the operations by kind of instruction, then the step. -/

namespace Sys2Proof.Machine

variable {o : Prop}

/-- A next state of the outcome is good, in order where `o` holds, or the fatal halt with the invariant. -/
def Lands (o : Prop) : Host.Outcome State Fault Refusal → Prop
  | .next t => Sound o o t ∨ HaltGood t
  | .fault _ => True
  | .refused _ => True

/-! Outcomes. -/

theorem Sound.withResult {s : State} (i : Sound o o s) (r : OpResult) : Sound o o { s with result := r } :=
  i.of_eq rfl rfl rfl rfl rfl rfl rfl rfl rfl i.inv.halt rfl rfl

theorem Res.Good.lands {r : Res OpResult} (h : r.Good o o) : Lands o r.outcome := by
  cases r with
  | ok a s => exact .inl (Sound.withResult h a)
  | halt s => exact .inr h
  | fault e => trivial
  | refused e => trivial

theorem Res.Good.landsUnit {r : Res Unit} (h : r.Good o o) : Lands o r.outcomeUnit := by
  cases r with
  | ok _ s => exact .inl h
  | halt s => exact .inr h
  | fault e => trivial
  | refused e => trivial

/-- A good body makes a good operation, with every preemption the environment asks for (60_exceptions.md R252). -/
theorem runOp_lands {body : Hook → State → Res OpResult} {s : State}
    (h : ∀ pt, Hooked pt → (body pt s).Good o o) : Lands o (runOp body s) := by
  unfold runOp
  split
  · trivial
  · exact (h _ (point_hooked _)).lands

/-- The same in the main context (R253). -/
theorem runOp_main_lands {body : Hook → State → Res OpResult} {s : State}
    (h : ∀ pt, Hooked pt → (body pt s).Good o o) :
    Lands o (runOp (fun pt s => inMainContext s (body pt s)) s) :=
  runOp_lands fun pt hp => (h pt hp).context

/-! Instructions. -/

/-- A downlink record (42_wire_framing.md R183). -/
theorem exec_downlink_lands {i : Instr} (hd : downlinkRecord i = true) {s : State} (h : Sound o o s) :
    Lands o (exec i s) := by
  rw [exec_downlink hd]
  refine runOp_main_lands fun pt hp => ?_
  split
  · rename_i hrd
    exact (runRecord_good hp h hrd i).map
  · trivial

/-- An operation of the interrupt context (60_exceptions.md R253). -/
theorem exec_producer_lands {i : Instr} (hi : producerInstr i = true) {s : State} (h : Sound o o s) :
    Lands o (exec i s) := by
  rw [exec_producer hi]
  exact runOp_lands fun pt hp => (producerOp_keeps hp s i).good h

/-- The premise of the order (40_batch_buffer.md R135; log entry 29): a `BB.RESET` meets a closed batch, and a third one where
`UL.PUMP` has still one to reset. -/
def ResetMeetsClosed (o : Prop) (s : State) (i : Instr) : Prop :=
  o → i = .bbReset → (if s.txPending then 3 else 2) ≤ (s.bbProduced - s.bbConsumed).toNat

/-- `BB.RESET` (40_batch_buffer.md R135). -/
theorem exec_bbReset_lands {s : State} (h : Sound o o s) (hr : ResetMeetsClosed o s .bbReset) :
    Lands o (exec .bbReset s) := by
  rw [exec_bbReset]
  refine runOp_main_lands fun pt hp => (resetOldest_good hp h (fun p => ?_) fun p ht => ?_).map
  · exact Nat.le_trans (by split <;> decide) (hr p rfl)
  · exact Nat.le_trans (by rw [if_pos ht]) (hr p rfl)

/-- Every instruction, whatever preempts it. -/
theorem exec_lands (i : Instr) {s : State} (h : Sound o o s) (hr : ResetMeetsClosed o s i) : Lands o (exec i s) := by
  by_cases hd : downlinkRecord i = true
  · exact exec_downlink_lands hd h
  by_cases hi : producerInstr i = true
  · exact exec_producer_lands hi h
  cases i with
  | bbReset => exact exec_bbReset_lands h hr
  | bbPop =>
    rw [exec_bbPop]
    exact runOp_main_lands fun pt hp => (pop_good hp h).map
  | bbRead slot off =>
    rw [exec_bbRead]
    exact runOp_main_lands fun _ _ => (readPopped_good slot off h).map
  | bbDiscardAll =>
    rw [exec_bbDiscardAll]
    exact runOp_main_lands fun pt hp => (discardAll_good hp h (c' := o)).map
  | ulPump =>
    rw [exec_ulPump]
    exact runOp_main_lands fun pt hp => (pump_good hp h).map
  | fqEnq k build count =>
    rw [exec_fqEnq]
    exact runOp_main_lands fun _ _ => (fqEnqueue_good (runBuilder_good build) k count h).map
  | fqDeq k cb max =>
    rw [exec_fqDeq]
    exact runOp_main_lands fun _ _ => (fqDequeue_good (runCallback_good k cb) k max h).map
  | fqFlush k =>
    rw [exec_fqFlush]
    exact runOp_main_lands fun _ _ => fqFlushAll_good k h
  | dlDecode =>
    rw [exec_dlDecode]
    exact runOp_main_lands fun pt hp => (decodePacket_good hp h).map
  | canPump k =>
    rw [exec_canPump]
    exact runOp_main_lands fun pt hp => (transmitPump_good hp k h).map
  | canInit k =>
    rw [exec_canInit]
    refine runOp_main_lands fun pt hp => ?_
    split
    · exact (initController_good hp k h).map
    · trivial
  | mainIter =>
    rw [exec_mainIter]
    exact runOp_main_lands fun pt hp => (iterate_good hp h).map
  | _ => first | exact absurd rfl hd | exact absurd rfl hi

/-! The step. -/

/-- Who runs next, and what it has still to do, is nothing that the invariant speaks of. -/
theorem Sound.reschedule {s : State} (i : Sound o o s) (pending : List IrqReq) (stack : List Activation)
    (calls : List Instr) (phase : Phase) :
    Sound o o { s with pending := pending, stack := stack, calls := calls, phase := phase } :=
  i.of_eq rfl rfl rfl rfl rfl rfl rfl rfl rfl i.inv.halt rfl rfl

/-- Boot step B3 (70_reset_and_hazards.md R282). -/
theorem Sound.unmask {s : State} (i : Sound o o s) (hh : s.halted = false) (phase : Phase) :
    Sound o o { s with irqMasked := false, phase := phase } :=
  i.of_eq rfl rfl rfl rfl rfl rfl rfl rfl rfl (fun h => absurd (hh.symm.trans h) Bool.false_ne_true) rfl rfl

/-- The return from a handler ends its grants (60_exceptions.md R251). -/
theorem leaveHandler_good {s : State} (i : Sound o o s) : s.leaveHandler.Good o o := by
  rcases leaveHandler_answers s with h | h <;> rw [h]
  · exact i.update
      { cursors := i.inv.cursors
        wlens := i.inv.wlens
        tiling := i.inv.tiling
        sentinel := i.inv.sentinel
        memory := i.inv.memory
        queues := i.inv.queues
        entries := i.inv.entries
        downlink := i.inv.downlink
        halt := i.inv.halt
        grants := fun g hg => i.inv.grants g (List.mem_of_mem_filter hg) } rfl rfl rfl rfl
  · trivial

/-- `Main`'s own step: no `BB.RESET` is among them (70_reset_and_hazards.md R282; 60_exceptions.md R256). -/
theorem mainStep_lands {s : State} (i : Sound o o s) (hh : s.halted = false) : Lands o (mainStep s) := by
  unfold mainStep
  split
  · exact exec_lands _ (i.reschedule _ _ _ _) fun _ e => nomatch e
  · exact .inl (i.unmask hh _)
  · split
    · split
      · rename_i r hr
        exact exec_downlink_lands (decode_downlink hr) i
      · exact .inr ⟨rfl, i.inv.raiseFatal 3 _⟩
    · exact exec_lands _ (i.reschedule _ _ _ _) fun _ e => nomatch e
  · exact exec_lands _ (i.reschedule _ _ _ _) fun _ e => nomatch e

/-- The running agent's next instruction. -/
theorem runNext_lands {s : State} (i : Sound o o s) (hh : s.halted = false) (hr : o → s.resetsClosed) :
    Lands o (runNext s) := by
  unfold runNext
  split
  · exact (leaveHandler_good i).landsUnit
  · rename_i a c todo rest hs
    exact exec_lands c (i.reschedule _ _ _ _) fun p e => hr p (by simp [State.nextCall, hs, e])
  · exact ((handlerCall_keeps (fun s => Keeps.ok (Kept.refl s) trivial) _ _).good
      (i.reschedule _ _ _ _)).landsUnit
  · rename_i hs
    split
    · rename_i c calls hc
      exact exec_lands c (i.reschedule _ _ _ _) fun p e => hr p (by simp [State.nextCall, hs, hc, e])
    · exact mainStep_lands i hh

/-- The environment's moves leave the next call and the cursors as they are. -/
theorem State.takeArrivals_resetsClosed {s : State} : s.takeArrivals.resetsClosed ↔ s.resetsClosed := by
  simp [State.resetsClosed, State.nextCall]

/-- Every step, with whatever preempts it. -/
theorem step_lands {s : State} (i : Sound o o s) (hr : o → s.resetsClosed) : Lands o (step s) := by
  unfold step stepOnce
  split
  · trivial
  · rename_i hh
    have iu : Sound o o s.takeArrivals := (Kept.takeArrivals s).sound i
    dsimp only
    split
    · rename_i r others _
      rcases enterHandler_answers { s.takeArrivals with pending := others } r r.calls with h | h <;> rw [h]
      · exact .inl (iu.reschedule _ _ _ _)
      · trivial
    · exact runNext_lands iu (by simpa using hh) fun p => State.takeArrivals_resetsClosed.2 (hr p)

/-- Settles O3: every step is one of a good state (`step_lands`), in order under the premises of the order. -/
theorem stepKeepsInv : Obligations.StepKeepsInv := by
  intro s t hi ht
  have i : Sound (s.Orderly ∧ s.resetsClosed) (s.Orderly ∧ s.resetsClosed) s :=
    ⟨hi, fun p => p.1.ordered, fun p => p.1.sent⟩
  rcases (ht ▸ step_lands i fun p => p.2 : Lands _ (.next t)) with h | ⟨hh, h⟩
  · exact ⟨h.inv, fun ho hr _ => ⟨h.ordered ⟨ho, hr⟩, h.sent ⟨ho, hr⟩⟩⟩
  · exact ⟨h, fun _ _ hn => absurd (hn.symm.trans hh) Bool.false_ne_true⟩

end Sys2Proof.Machine
end

section
/-! SUPPORT. The start of a handler (60_exceptions.md R248 to R252). -/

namespace Sys2Proof.Machine

/-! Which request starts. -/

/-- What is picked is a pending request that is admitted. -/
theorem pickRequest_mem {ok : IrqReq → Bool} {rs others : List IrqReq} {r : IrqReq}
    (h : pickRequest ok rs = some (r, others)) : r ∈ rs ∧ ok r = true := by
  induction rs generalizing r others with
  | nil => exact nomatch h
  | cons x xs ih =>
    unfold pickRequest at h
    split at h
    · split at h
      · rename_i hx
        cases h
        exact ⟨List.mem_cons_self, hx⟩
      · exact nomatch h
    · rename_i b rest hb
      split at h
      · rename_i hx
        cases h
        exact ⟨List.mem_cons_self, (Bool.and_eq_true _ _ ▸ hx).1⟩
      · cases h
        exact (ih hb).imp_left (List.mem_cons_of_mem _)

/-- An admitted request that every admitted one before it is strictly below, and every one after it not above, is the
one picked; the others stay in their order (60_exceptions.md R250). -/
theorem pickRequest_append {ok : IrqReq → Bool} {before after : List IrqReq} {r : IrqReq} (hr : ok r = true)
    (hb : ∀ x ∈ before, ok x = true → Config.prio x.agent < Config.prio r.agent)
    (ha : ∀ x ∈ after, ok x = true → Config.prio x.agent ≤ Config.prio r.agent) :
    pickRequest ok (before ++ r :: after) = some (r, before ++ after) := by
  induction before with
  | nil =>
    show pickRequest ok (r :: after) = some (r, after)
    unfold pickRequest
    split
    · rw [if_pos hr]
    · rename_i b others hpick
      obtain ⟨hmem, hok⟩ := pickRequest_mem hpick
      rw [if_pos (by simp [hr, ha b hmem hok])]
  | cons x xs ih =>
    have hx : (ok x && decide (Config.prio r.agent ≤ Config.prio x.agent)) = false := by
      cases hok : ok x
      · rfl
      · have := hb x List.mem_cons_self hok
        simpa using this
    simp [pickRequest, ih fun y hy => hb y (List.mem_cons_of_mem _ hy), hx]

/-- A step that enters the handler of the picked request (R251, R252 clause 1). -/
theorem step_enters {s : State} {r : IrqReq} {before after : List IrqReq} (hh : s.halted = false)
    (hs : s.arrivals = []) (hp : s.pending = before ++ r :: after) (hr : s.admissible r = true)
    (hb : ∀ x ∈ before, s.admissible x = true → Config.prio x.agent < Config.prio r.agent)
    (ha : ∀ x ∈ after, s.admissible x = true → Config.prio x.agent ≤ Config.prio r.agent) :
    step s = (({ s with pending := before ++ after }).enterHandler r r.calls).outcomeUnit := by
  unfold step stepOnce
  rw [if_neg (by simp [hh])]
  dsimp only
  rw [State.takeArrivals_quiet hs, hp, pickRequest_append hr hb ha]

/-- When a request may start (R250, R252 clause 1). -/
theorem State.admissible_of {s : State} {r : IrqReq} (hm : s.irqMasked = false) (he : s.enabled r = true)
    (ha : ∀ a ∈ s.stack, Config.prio a.agent < Config.prio r.agent) : s.admissible r = true := by
  simpa [State.admissible, hm, he] using ha

/-- The handler of an `ExtProd` that exists (10_state.md R20). -/
theorem enterHandler_extProd {j : Nat} (h : 1 ≤ j ∧ j ≤ Config.nExtProducers) (s : State) (ops : List Instr)
    (todo : List Call) :
    s.enterHandler (.extProd j ops) todo = .ok () { s with stack := ⟨.extProd j, todo⟩ :: s.stack } :=
  if_pos h

/-- The handler of an `ExtProd` that does not. -/
theorem enterHandler_noSuchAgent {j : Nat} (h : j = 0 ∨ Config.nExtProducers < j) (s : State) (ops : List Instr)
    (todo : List Call) : s.enterHandler (.extProd j ops) todo = .refused .noSuchAgent :=
  if_neg (by omega)

/-! The environment's move. -/

/-- A step sees of the environment's moves only what they lead to. -/
theorem step_congr_arrivals {s t : State} (hh : s.halted = t.halted) (h : s.takeArrivals = t.takeArrivals) :
    step s = step t := by
  unfold step stepOnce
  rw [hh, h]

/-- A frame for which the FIFO has room (60_exceptions.md R249). -/
theorem State.receiveFrame_room {s : State} {k : Chan} (e : RxElement)
    (h : (s.hw.get k).rxFifo.length < Config.rxFifoDepth) :
    s.receiveFrame k e = { s with
      hw := s.hw.set k { s.hw.get k with rxFifo := (s.hw.get k).rxFifo ++ [e] }
      pending := s.pending ++ [.canRx k] } := by
  simp [State.receiveFrame, State.setHw, HwPort.hasRoom, h]

/-- A frame that finds the FIFO full is lost (43_can_codec.md R217). -/
theorem State.receiveFrame_full {s : State} {k : Chan} (e : RxElement)
    (h : Config.rxFifoDepth ≤ (s.hw.get k).rxFifo.length) : s.receiveFrame k e = s := by
  have hroom : (s.hw.get k).hasRoom = false := by simpa [HwPort.hasRoom] using h
  unfold State.receiveFrame
  simp only [hroom, Bool.false_eq_true, if_false]
  exact congrArg (fun w => { s with hw := w }) (PerChan.set_get s.hw k)

/-- One frame is all that arrives. -/
theorem State.takeArrivals_rxFrame {s : State} {k : Chan} {e : RxElement} {later : List (List EnvEvent)}
    (h : s.arrivals = [.rxFrame k e] :: later) :
    s.takeArrivals = ({ s with arrivals := later } : State).receiveFrame k e := by
  simp [State.takeArrivals, h, State.applyEvent]

/-- Settles O54: `step_enters` for each kind of request, and the two cases of `State.receiveFrame`. -/
theorem handlerEntry : Obligations.HandlerEntry := by
  refine ⟨fun s r before after hh hs hp hm hc hst hb ha => ?_,
    fun s k e later hs => ⟨fun hroom => ?_, fun hfull => ?_⟩⟩
  · have he : s.enabled r = true := by
      cases r with
      | canRx k => exact hc k rfl
      | usbRx bytes => rfl
      | extProd j ops => rfl
    have enters := step_enters hh hs hp (State.admissible_of hm he hst) hb ha
    refine ⟨?_, ?_, ?_, ?_⟩
    · rintro k rfl
      exact enters
    · rintro bytes rfl
      exact enters
    · rintro j ops rfl h1 h2
      rw [enters, enterHandler_extProd ⟨h1, h2⟩]
      rfl
    · rintro j ops rfl hj
      rw [enters, enterHandler_noSuchAgent hj]
      rfl
  · exact step_congr_arrivals rfl ((State.takeArrivals_rxFrame hs).trans (State.receiveFrame_room e hroom))
  · exact step_congr_arrivals rfl ((State.takeArrivals_rxFrame hs).trans (State.receiveFrame_full e hfull))

end Sys2Proof.Machine
end

section
/-! SUPPORT. The call by which `UsbRx` deposits a packet (10_state.md R47). -/

namespace Sys2Proof.Machine

/-- A deposited packet reads back, and nothing beyond it has a value (10_state.md R47). -/
theorem Memory.read_ofBytes (bs : List Byte) (j : Nat) : Memory.read .dlbuf (Memory.ofBytes 0 bs) j = bs[j]? := by
  have h := Memory.find_ofBytes 0 bs j
  rw [Nat.zero_add] at h
  unfold Memory.read
  rw [h]
  cases bs[j]? <;> rfl

/-- `DL.DEPOSIT` of a packet that fits, the last one decoded (R47). -/
theorem deposit_ok {bytes : List Byte} {s : State} (h1 : 1 ≤ bytes.length) (h2 : bytes.length ≤ Config.dlMax)
    (hd : s.dlLen ≤ s.dlRd) :
    deposit bytes s = .ok () { s with dlBuf := Memory.ofBytes 0 bytes, dlLen := bytes.length, dlRd := 0 } := by
  unfold deposit
  rw [if_neg (by omega), if_neg (by omega)]

/-- Of one that is empty or too long. -/
theorem deposit_size {bytes : List Byte} (h : bytes.length = 0 ∨ Config.dlMax < bytes.length) (s : State) :
    deposit bytes s = .refused .depositSize := if_pos h

/-- While the last one is not decoded (70_reset_and_hazards.md R291). -/
theorem deposit_busy {bytes : List Byte} {s : State} (h1 : 1 ≤ bytes.length) (h2 : bytes.length ≤ Config.dlMax)
    (hd : s.dlRd < s.dlLen) : deposit bytes s = .refused .depositBusy := by
  unfold deposit
  rw [if_neg (by omega), if_pos hd]

/-- A step of a handler that has `DL.DEPOSIT` to call: it is `UsbRx`'s alone (60_exceptions.md R253). -/
theorem step_deposit {s : State} {a : Agent} {bytes : List Byte} {todo : List Call} {rest : List Activation}
    (hh : s.halted = false) (q : s.quiet) (hs : s.stack = ⟨a, .deposit bytes :: todo⟩ :: rest) :
    step s = (if a = .usbRx then deposit bytes { s with stack := ⟨a, todo⟩ :: rest }
      else .refused .wrongContext).outcomeUnit := by
  rw [step_quiet hh q]
  unfold runNext
  rw [hs]
  rfl

/-- Settles O60: `step_deposit`, with what `DL.DEPOSIT` does in each part of its domain. -/
theorem depositRule : Obligations.DepositRule := by
  intro s a bytes todo rest hh q hs
  have hstep := step_deposit hh q hs
  refine ⟨fun ha h1 h2 hd => ⟨Memory.ofBytes 0 bytes, ?_, Memory.read_ofBytes bytes⟩, fun ha hlen => ?_,
    fun ha h1 h2 hd => ?_, fun ha => ?_⟩
  · rw [hstep, if_pos ha, deposit_ok h1 h2]
    · rfl
    · exact hd
  · rw [hstep, if_pos ha, deposit_size hlen]
    rfl
  · rw [hstep, if_pos ha, deposit_busy h1 h2]
    · rfl
    · exact hd
  · rw [hstep, if_neg ha]
    rfl

end Sys2Proof.Machine
end

section
/-! SUPPORT. The state after reset (10_state.md R50), and the step that fetches a record (R36). -/

namespace Sys2Proof.Machine

/-! `BATCH` before anything is written. -/

/-- Byte 0 of a batch is the sentinel (10_state.md R22). -/
theorem Memory.read_nil_first (i : Slot) : Memory.read .batch [] (batchAddr i 0) = some Config.sentinel :=
  if_pos (by simp only [batchAddr, Config.batchSize]; omega)

/-- Every other byte of it has no value (R50). -/
theorem Memory.read_nil_payload (i : Slot) {off : Nat} (h1 : 1 ≤ off) (h2 : off < Config.batchSize) :
    Memory.read .batch [] (batchAddr i off) = none :=
  if_neg (by simp only [batchAddr, Config.batchSize] at *; omega)

/-! Reset. -/

theorem reset_wlen (i : Slot) : State.reset.wlen[i] = 1 := Vector.getElem_replicate _

theorem reset_ranges (i : Slot) : State.reset.ranges[i] = [] := Vector.getElem_replicate _

theorem reset_fq (k : Chan) : State.reset.fq.get k = FrameQueue.reset := PerChan.get_const _ k

theorem reset_hw (k : Chan) : State.reset.hw.get k = HwPort.reset := PerChan.get_const _ k

theorem reset_slot (j : Fin Config.fqCapacity) : FrameQueue.reset.slots[j] = none := Vector.getElem_replicate _

/-- Nothing is granted, queued or deposited yet. -/
theorem reset_inv : State.reset.Inv where
  cursors := Nat.zero_le _
  wlens i := by rw [reset_wlen]; decide
  tiling i := by rw [reset_wlen, reset_ranges]; rfl
  sentinel := Memory.read_nil_first
  memory := ⟨Memory.wf_nil _, Memory.wf_nil _⟩
  queues k := by rw [reset_fq]; decide
  entries k j e he := by
    rw [reset_fq, reset_slot] at he
    exact nomatch he
  downlink := Nat.le_refl 0
  halt h := absurd h Bool.false_ne_true
  grants := nofun

/-- No batch is opened, and all of them are empty. -/
theorem reset_orderly : State.reset.Orderly where
  ordered :=
    { place := .inl rfl
      empty := fun i _ => reset_wlen i
      filled := fun _ h => absurd h (Nat.not_lt_zero _) }
  sent h := absurd h Bool.false_ne_true

/-- Settles O1: the table of 10_state.md R50, row by row. -/
theorem resetState : Obligations.ResetState := by
  refine ⟨fun i => ⟨reset_wlen i, Memory.read_nil_first i, fun o => Memory.read_nil_payload i⟩, rfl, rfl, rfl,
    fun k => ?_, rfl, rfl, fun _ => rfl, rfl, rfl, rfl, rfl, rfl⟩
  rw [reset_fq, reset_hw]
  exact ⟨rfl, rfl, reset_slot, rfl⟩

/-- Settles O2: the base of what `stepKeepsInv` keeps. -/
theorem resetInv : Obligations.ResetInv := ⟨reset_inv, reset_orderly⟩

/-! The fetch of a record. -/

/-- With nothing asked of it, `Main` goes on by itself (60_exceptions.md R256). -/
theorem step_main {s : State} (m : s.MainTurn) (hc : s.calls = []) : step s = mainStep s := by
  rw [step_quiet m.running m.quiet]
  unfold runNext
  rw [m.stack, hc]

/-- At the head of its loop it runs the record at `dl.rd` (10_state.md R36; 42_wire_framing.md R183). -/
theorem mainStep_record {s : State} {i : Instr} (hp : s.phase = .decode) (hrd : s.dlRd < s.dlLen)
    (hi : decode s.packetRest = .ok i) : mainStep s = exec i s := by
  unfold mainStep
  rw [hp]
  dsimp only
  rw [if_pos hrd, hi]

/-- Settles O4. -/
theorem stepRunsDecodedRecord : Obligations.StepRunsDecodedRecord :=
  fun _ _ m hc hp hrd hi => (step_main m hc).trans (mainStep_record hp hrd hi)

end Sys2Proof.Machine
end

section
/-! SUPPORT. The two decoders against the encoder (30_encoding.md R96, R97, R102 to R105, R114). -/

namespace Sys2Proof.Machine

/-! Headers. -/

/-- The high nibble of a header (30_encoding.md R91). -/
@[simp] theorem headerHi_headerOf (hi sid : BitVec 4) : headerHi (headerOf hi sid) = hi := (headerOf_fields hi sid).2

/-! CAN records in both directions. -/

theorem encode_uplinkCan (k : Chan) (f : CanFrame) : encode (uplinkCan k f) = some (encCan k.sid f) := by
  obtain ⟨rtr, id, data⟩ := f
  cases k <;> cases id <;> rfl

/-- An admitted uplink frame is written as it stands: `enc_can` has no payload to leave out (30_encoding.md R100). -/
theorem encCan_eq_canBytes {f : CanFrame} (h : uplinkDataOk f.rtr f.data = true) (sid : BitVec 4) :
    encCan sid f = canBytes sid f := by
  unfold encCan
  rw [uplinkDataOk_iff h]

/-- A CAN record's bytes start with a header that has its source id. -/
theorem canBytes_eq_cons (sid : BitVec 4) (f : CanFrame) : ∃ h t, canBytes sid f = h :: t ∧ headerSid h = sid :=
  ⟨_, _, rfl, headerSid_headerOf _ sid⟩

/-- Where the header has the source id of controller `k`, the downlink decoder reads a CAN record of `k` (R97). -/
theorem decode_chan {h : Byte} {k : Chan} (hk : headerSid h = k.sid) (t : List Byte) :
    decode (h :: t) = decodeDownlinkCan k (h :: t) := by
  cases k <;> simp [decode, hk, Chan.sid, Chan.number]

/-- The same of the uplink decoder (R96). -/
theorem decodeUplink_chan {h : Byte} {k : Chan} (hk : headerSid h = k.sid) (t : List Byte) :
    decodeUplink (h :: t) = decodeUplinkCan k (h :: t) := by
  cases k <;> simp [decodeUplink, hk, Chan.sid, Chan.number]

/-- A CAN record is read downlink as it was written, whatever follows it. -/
theorem decode_canBytes (k : Chan) (f : CanFrame) (rest : List Byte) :
    decode (canBytes k.sid f ++ rest) = .ok (downlinkCan k f) := by
  have hdec := decCan_canBytes k.sid f rest
  obtain ⟨h, t, hcons, hsid⟩ := canBytes_eq_cons k.sid f
  rw [hcons] at hdec ⊢
  rw [List.cons_append] at hdec ⊢
  rw [decode_chan hsid, decodeDownlinkCan, hdec]

/-- And uplink. -/
theorem decodeUplink_canBytes (k : Chan) (f : CanFrame) :
    decodeUplink (canBytes k.sid f) = .ok (uplinkCan k f) := by
  have hdec := decCan_canBytes k.sid f []
  obtain ⟨h, t, hcons, hsid⟩ := canBytes_eq_cons k.sid f
  rw [List.append_nil] at hdec
  rw [hcons] at hdec ⊢
  rw [decodeUplink_chan hsid, decodeUplinkCan, hdec]

theorem decodeUplink_encCan (k : Chan) (f : CanFrame) (h : uplinkDataOk f.rtr f.data = true) :
    decodeUplink (encCan k.sid f) = .ok (uplinkCan k f) := by
  rw [encCan_eq_canBytes h, decodeUplink_canBytes]

/-! Round trips. -/

/-- Settles O13: `decode_canBytes` for the CAN records; a control record is read by its two nibbles, and any other by
its header alone. -/
theorem downlinkRoundTrip : Obligations.DownlinkRoundTrip := by
  intro i hrec hwf
  cases i with
  | dCtrlConnect => exact ⟨_, rfl, fun _ => rfl⟩
  | dCtrlReserved cmd =>
    have hcmd : cmd ≠ 0#4 := of_decide_eq_true hwf
    exact ⟨_, rfl, fun rest => by simp [decode, hcmd]⟩
  | dCan1Std rtr id data => exact ⟨_, rfl, decode_canBytes .can1 (stdFrame rtr id data)⟩
  | dCan1Ext rtr id data => exact ⟨_, rfl, decode_canBytes .can1 (extFrame rtr id data)⟩
  | dCan2Std rtr id data => exact ⟨_, rfl, decode_canBytes .can2 (stdFrame rtr id data)⟩
  | dCan2Ext rtr id data => exact ⟨_, rfl, decode_canBytes .can2 (extFrame rtr id data)⟩
  | dCan3Std rtr id data => exact ⟨_, rfl, decode_canBytes .can3 (stdFrame rtr id data)⟩
  | dCan3Ext rtr id data => exact ⟨_, rfl, decode_canBytes .can3 (extFrame rtr id data)⟩
  | dGpio hi | dUart1 hi | dUart2 hi | dUart3 hi | dUart4 hi | dUart5 hi | dUart6 hi | dLed hi | dBuzzer hi
  | dReserved13 hi | dReserved14 hi | dReserved15 hi => exact ⟨_, rfl, fun rest => by simp [decode]⟩
  | _ => exact absurd hrec Bool.false_ne_true

/-- Settles O14: `decodeUplink_encCan` for the CAN records; of any other the header says the source, and what follows it
is the record's. -/
theorem uplinkRoundTrip : Obligations.UplinkRoundTrip := by
  intro i hrec hwf
  cases i with
  | uCan1Std rtr id data => exact ⟨_, rfl, decodeUplink_encCan .can1 (stdFrame rtr id data) hwf⟩
  | uCan1Ext rtr id data => exact ⟨_, rfl, decodeUplink_encCan .can1 (extFrame rtr id data) hwf⟩
  | uCan2Std rtr id data => exact ⟨_, rfl, decodeUplink_encCan .can2 (stdFrame rtr id data) hwf⟩
  | uCan2Ext rtr id data => exact ⟨_, rfl, decodeUplink_encCan .can2 (extFrame rtr id data) hwf⟩
  | uCan3Std rtr id data => exact ⟨_, rfl, decodeUplink_encCan .can3 (stdFrame rtr id data) hwf⟩
  | uCan3Ext rtr id data => exact ⟨_, rfl, decodeUplink_encCan .can3 (extFrame rtr id data) hwf⟩
  | uCtrl hi rest | uGpio hi rest | uUart1 hi rest | uUart2 hi rest | uUart3 hi rest | uUart4 hi rest
  | uUart5 hi rest | uUart6 hi rest | uSensor hi rest | uReserved12 hi rest | uReserved13 hi rest
  | uReserved14 hi rest | uReserved15 hi rest => exact ⟨_, rfl, by simp [decodeUplink]⟩
  | _ => exact absurd hrec Bool.false_ne_true

/-- Settles O11: both directions read back the bytes that the uplink encoder writes. -/
theorem symmetricFormats : Obligations.SymmetricFormats := by
  intro k f h
  refine ⟨encode_uplinkCan k f, decodeUplink_encCan k f h, ?_⟩
  rw [encCan_eq_canBytes h, ← List.append_nil (canBytes k.sid f), decode_canBytes]

/-! Reserved bits (30_encoding.md R102). -/

/-- The upper two bits of a standard id field's second byte, `V16[15:14]`. -/
theorem stdField_reserved (id : StdId) (l : LenField) :
    ((stdField id l).extractLsb' 8 8).extractLsb' 6 2 = 0#2 := by
  apply BitVec.eq_of_getLsbD_eq
  intro i hi
  have hfield : ¬ 8 + (6 + i) < Config.stdIdBits ∧ ¬ 8 + (6 + i) - Config.stdIdBits < Config.lenBits := by
    simp only [Config.stdIdBits, Config.lenBits]; omega
  simp [stdField, BitVec.getLsbD_append, hfield]

/-- `dec_can` reads of the header bits 4, 5 and 6 only. -/
theorem decCan_header_congr {h h' : Byte} (h4 : h'.getLsbD 4 = h.getLsbD 4) (h5 : h'.getLsbD 5 = h.getLsbD 5)
    (h6 : h'.getLsbD 6 = h.getLsbD 6) (t : List Byte) : decCan (h' :: t) = decCan (h :: t) := by
  simp only [decCan, h4, h5, h6]

/-- A field below bit 14 does not see the upper two bits of `V16`. -/
theorem le16_field_xor (b1 b2 : Byte) (r : BitVec 2) {start len : Nat} (hlt : start + len ≤ 14) :
    (le16 b1 (b2 ^^^ (r ++ 0#6))).extractLsb' start len = (le16 b1 b2).extractLsb' start len := by
  apply BitVec.eq_of_getLsbD_eq
  intro i hi
  simp only [le16, BitVec.getLsbD_extractLsb', BitVec.getLsbD_append, BitVec.getLsbD_xor]
  have h6 : start + i - 8 < 6 := by omega
  simp [h6]

/-- `dec_can` of a standard record reads of `V16` the id and the length field only. -/
theorem decCan_std_xor {h : Byte} (hstd : h.getLsbD 4 = false) (b1 b2 : Byte) (r : BitVec 2) (t : List Byte) :
    decCan (h :: b1 :: (b2 ^^^ (r ++ 0#6)) :: t) = decCan (h :: b1 :: b2 :: t) := by
  have hid := le16_field_xor b1 b2 r (show 0 + Config.stdIdBits ≤ 14 by decide)
  have hlen := le16_field_xor b1 b2 r (show Config.stdIdBits + Config.lenBits ≤ 14 by decide)
  simp only [decCan, hstd, hid, hlen, Bool.false_eq_true, if_false]

/-- Settles O12: the encoder's header (`canHeader_bits`) and id field (`stdField_reserved`), and that `dec_can` reads
neither place. -/
theorem reservedBitsIgnored : Obligations.ReservedBitsIgnored := by
  refine ⟨fun sid f => ⟨?_, fun hstd => ?_⟩, fun h t => ?_, fun h b1 b2 r t hstd => decCan_std_xor hstd b1 b2 r t⟩
  · obtain ⟨-, -, -, hbit7, -⟩ := canHeader_bits sid f.id.isExt f.rtr (!f.data.bytes.isEmpty)
    exact hbit7
  · obtain ⟨rtr, id, data⟩ := f
    cases id with
    | std id => exact stdField_reserved id _
    | ext id => exact absurd hstd Bool.noConfusion
  · apply decCan_header_congr <;> simp

/-- Settles O15, by evaluation of the decoders. -/
theorem decodeWords : Obligations.DecodeWords := by
  unfold Obligations.DecodeWords
  decide

end Sys2Proof.Machine
end

section
/-! SUPPORT. The Frame Queue entry of a decoded record (43_can_codec.md R213; 30_encoding.md R106 to R111). -/

namespace Sys2Proof.Machine

/-! The controller's words. -/

/-- Fields side by side add up. -/
theorem shift_or_eq_add (a : Nat) {b i : Nat} (h : b < 2 ^ i) : a <<< i ||| b = a * 2 ^ i + b := by
  rw [Nat.shiftLeft_eq, Nat.mul_comm, Nat.two_pow_add_eq_or_of_lt h]

/-- The flags of an arbitration word stand above any id (30_encoding.md R106). -/
theorem arbFlags_or_toNat (xtd rtr : Bool) {id : Word} (h : id.toNat < 2 ^ 29) :
    ((BitVec.ofBool xtd).setWidth 32 <<< Config.xtdBit ||| (BitVec.ofBool rtr).setWidth 32 <<< Config.rtrBit |||
      id).toNat = (if xtd then 2 ^ 30 else 0) + (if rtr then 2 ^ 29 else 0) + id.toNat := by
  have hflags : ((BitVec.ofBool xtd).setWidth 32 <<< Config.xtdBit |||
      (BitVec.ofBool rtr).setWidth 32 <<< Config.rtrBit : Word).toNat = (2 * xtd.toNat + rtr.toNat) <<< 29 := by
    revert xtd rtr
    decide
  rw [BitVec.toNat_or, hflags, shift_or_eq_add _ h]
  cases xtd <;> cases rtr <;> rfl

/-- The arbitration word as a number: an extended id at bit 0, a standard one at bit 18 (R106, R111). -/
theorem arbWord_toNat (rtr : Bool) (id : CanId) : (arbWord rtr id).toNat =
    (if id.isExt then 2 ^ 30 else 0) + (if rtr then 2 ^ 29 else 0) +
      id.bits.toNat * (if id.isExt then 1 else 2 ^ 18) := by
  cases id with
  | std id =>
    have hid : id.toNat < 2 ^ 11 := id.isLt
    have hshift : (id.setWidth 32 <<< Config.stdIdShift : Word).toNat = (CanId.std id).bits.toNat * 2 ^ 18 := by
      simp only [CanId.bits, BitVec.toNat_shiftLeft, BitVec.toNat_setWidth, Nat.shiftLeft_eq, Config.stdIdShift,
        Config.extIdBits]
      omega
    have hlt : (CanId.std id).bits.toNat * 2 ^ 18 < 2 ^ 29 := by
      simp only [CanId.bits, BitVec.toNat_setWidth, Config.extIdBits]
      omega
    exact (arbFlags_or_toNat false rtr (hshift ▸ hlt)).trans (congrArg _ hshift)
  | ext id =>
    have hid : id.toNat < 2 ^ 29 := id.isLt
    have hwide : (id.setWidth 32 : Word).toNat = id.toNat := by
      rw [BitVec.toNat_setWidth]
      omega
    exact (arbFlags_or_toNat true rtr (hwide ▸ hid)).trans (congrArg _ (hwide.trans (Nat.mul_one _).symm))

/-- A data-length code stands at bit 16 of the control word, alone (30_encoding.md R107). -/
theorem ctrlWord_toNat (dlc : BitVec 4) : (ctrlWord dlc).toNat = dlc.toNat * 2 ^ 16 := by
  have h : dlc.toNat < 16 := dlc.isLt
  simp only [ctrlWord, BitVec.toNat_shiftLeft, BitVec.toNat_setWidth, Nat.shiftLeft_eq, Config.dlcShift]
  omega

/-! The data bytes. -/

/-- The payload is the head of the bytes after the id field. -/
theorem withPayload_bytes {rtr hasData : Bool} {id : CanId} {lenf : LenField} {p : List Byte} {f : CanFrame}
    (h : withPayload rtr hasData id lenf p = some f) : f.data.bytes <+: p := by
  unfold withPayload at h
  split at h
  · exact nomatch h
  · injection h with h
    subst h
    exact List.take_prefix _ _

/-- The id alone says how long its field is (R90). -/
theorem CanFrame.idLen_eq {f : CanFrame} {id : CanId} (h : f.id = id) : f.idLen = if id.isExt then 4 else 2 := h ▸ rfl

/-- What `dec_can` reads as payload stands in the packet after the header and the id field (R90, R98). -/
theorem decCan_bytes {bs : List Byte} {f : CanFrame} (h : decCan bs = some f) :
    f.data.bytes <+: bs.drop (1 + f.idLen) := by
  unfold decCan at h
  split at h
  · exact nomatch h
  · dsimp only at h
    split at h
    · split at h
      · rw [CanFrame.idLen_eq (withPayload_some h).1]
        exact withPayload_bytes h
      · exact absurd h (by simp)
    · split at h
      · rw [CanFrame.idLen_eq (withPayload_some h).1]
        exact withPayload_bytes h
      · exact absurd h (by simp)

/-- A byte of the packet that is not decoded yet (10_state.md R36). -/
theorem packetRest_getElem (s : State) (n : Nat) (h : n < s.packetRest.length) :
    s.packetRest[n] = s.peekDl (s.dlRd + n) := by
  simp [State.packetRest]

/-- The payload of the record at `dl.rd` is what `dl.buf` holds there. -/
theorem decCan_packetRest_getElem {s : State} {f : CanFrame} (h : decCan s.packetRest = some f) {j : Nat}
    (hj : j < f.data.bytes.length) : f.data.bytes[j] = s.peekDl (s.dlRd + 1 + f.idLen + j) := by
  have hpre := decCan_bytes h
  rw [hpre.getElem hj, List.getElem_drop, packetRest_getElem]
  congr 1
  omega

/-- The entry's data: the record's own bytes, then those of `dl.buf` (log entry 19). -/
theorem entryFor_data (s : State) (f : CanFrame) (j : Fin Config.maxData) :
    (s.entryFor f).data[j] = if h : j.val < f.data.bytes.length then f.data.bytes[j.val]
      else s.peekDl (s.dlRd + 1 + f.idLen + j.val) := by
  have hget : (s.entryFor f).data[j] = f.data.bytes.getD j.val (s.peekDl (s.dlRd + 1 + f.idLen + j.val)) :=
    Vector.getElem_ofFn _
  rw [hget]
  split
  · exact List.getD_eq_getElem ..
  · exact List.getD_eq_default _ _ (by omega)

theorem entryFor_dlc (s : State) (f : CanFrame) : (s.entryFor f).dlc.toNat = f.data.bytes.length := by
  have h : f.data.bytes.length ≤ 8 := f.data.fits
  show (BitVec.ofNat 4 f.data.bytes.length).toNat = _
  rw [BitVec.toNat_ofNat, Nat.mod_eq_of_lt (by omega)]

/-- Settles O17: the words of the entry, and its data bytes, which for the record at `dl.rd` are all `dl.buf`'s
(`decCan_packetRest_getElem`). -/
theorem entryOfRecord : Obligations.EntryOfRecord := by
  intro s f
  refine ⟨arbWord_toNat f.rtr f.id, entryFor_dlc s f, entryFor_data s f, fun h j => ?_, rfl, ?_, rfl⟩
  · rw [entryFor_data]
    split
    · exact decCan_packetRest_getElem h _
    · rfl
  · rw [← entryFor_dlc s f]
    exact ctrlWord_toNat _

end Sys2Proof.Machine
end

section
/-! SUPPORT. The source ids that no record may have (30_encoding.md R96, R97, R103). -/

namespace Sys2Proof.Machine

/-! Uplink: sources 12..15. -/

/-- No agent produces a record of an unassigned source (30_encoding.md R96). -/
theorem emits_unassigned (a : Agent) {sid : BitVec 4} (h : 12 ≤ sid.toNat) : emits a sid = false := by
  cases a with
  | main => rfl
  | usbRx => rfl
  | canRx k =>
    refine decide_eq_false fun e => ?_
    subst e
    cases k <;> exact absurd h (by decide)
  | extProd j =>
    simp only [emits, uartBase, sensorSid, Config.uartChannels, Bool.or_eq_false_iff, Bool.and_eq_false_iff,
      decide_eq_false_iff_not]
    omega

/-- An emission from such a source by a handler. -/
theorem unassignedEmitOp_refused {s : State} (h : s.inInterrupt = true) :
    unassignedEmitOp s = .refused .unassignedUplinkSource := if_pos h

/-- `BB.WRITE` where every grant of the caller's that covers the byte starts there, and the byte is such a header. -/
theorem writeGranted_unassigned {s : State} {slot off : Nat} {b : Byte} (hb : 12 ≤ (headerSid b).toNat)
    (hsome : ∃ g ∈ s.grants, g.covers s.running slot off = true)
    (hfirst : ∀ g ∈ s.grants, g.covers s.running slot off = true → g.off = off) :
    writeGranted slot off b s = .refused .unassignedUplinkSource := by
  unfold writeGranted
  split
  · rename_i hnone
    obtain ⟨g, hmem, hcov⟩ := hsome
    exact absurd hcov (List.find?_eq_none.1 hnone g hmem)
  · rename_i g hfind
    have hcov : g.covers s.running slot off = true := by simpa using List.find?_some hfind
    have hoff : g.off = off := hfirst g (List.mem_of_find?_eq_some hfind) hcov
    have href : headerRefusal s.running g off b = some .unassignedUplinkSource := by
      simp [headerRefusal, hoff, emits_unassigned _ hb, hb]
    rw [href]

/-- An operation of the interrupt context that its handler's call refuses. -/
theorem exec_producer_refused {i : Instr} {s : State} {e : Refusal} (hi : producerInstr i = true)
    (hh : s.halted = false) (h : ∀ pt, producerOp pt s i = .refused e) : exec i s = .refused e := by
  rw [exec_producer hi, runOp_running hh, h, Res.outcome_refused]

/-- Settles O27: the refusals lie before any preemption point. -/
theorem unassignedUplinkStops : Obligations.UnassignedUplinkStops := by
  intro s hi rest hh hc
  have hemit := unassignedEmitOp_refused hc
  refine ⟨exec_producer_refused rfl hh fun _ => hemit, exec_producer_refused rfl hh fun _ => hemit,
    exec_producer_refused rfl hh fun _ => hemit, exec_producer_refused rfl hh fun _ => hemit,
    fun slot off b hb hsome hfirst => exec_producer_refused rfl hh fun pt => ?_⟩
  show writeOp slot off b s = _
  rw [writeOp, writeGranted_unassigned hb hsome hfirst]
  exact if_pos hc

/-! Downlink: commands other than 0, destinations 13..15. -/

/-- A record whose handler enters the fatal halt at once (60_exceptions.md R246). -/
theorem exec_downlink_halts {i : Instr} {s t : State} (hi : downlinkRecord i = true) (hh : s.halted = false)
    (hs : s.stack = []) (hrd : s.dlRd < s.dlLen) (h : ∀ pt, runRecord pt s i = .halt t) : exec i s = .next t := by
  have hmain : s.inInterrupt = false := by simp [State.inInterrupt, State.running, hs]
  rw [exec_downlink hi, runDownlink, runOp_running hh]
  simp [inMainContext, hmain, hrd, h]

/-- Settles O43: the fatal entry is the handler's first step, so nothing preempts before it. -/
theorem reservedRecordsHalt : Obligations.ReservedRecordsHalt := by
  intro s cmd hi hh hs hrd
  exact ⟨fun hcmd => exec_downlink_halts rfl hh hs hrd fun _ => if_pos hcmd,
    exec_downlink_halts rfl hh hs hrd fun _ => rfl, exec_downlink_halts rfl hh hs hrd fun _ => rfl,
    exec_downlink_halts rfl hh hs hrd fun _ => rfl⟩

end Sys2Proof.Machine
end

section
/-! SUPPORT. The producer side of the Batch Buffer: `BB.ALLOC` (40_batch_buffer.md R131, R132), `BB.WRITE` (R133), and what
they and the uplink records are refused for (R182, R210). -/

namespace Sys2Proof.Machine

/-! Where a handler's call runs. -/

/-- An operation of the interrupt context, in it (60_exceptions.md R253). -/
theorem inInterruptContext_handler {α : Type} {s : State} (h : s.inInterrupt = true) (r : Res α) :
    inInterruptContext s r = r := if_pos h

/-- An instruction of the interrupt context is its handler's call. -/
theorem exec_producer_running {i : Instr} {s : State} (hi : producerInstr i = true) (hh : s.halted = false) :
    exec i s = (producerOp (point s.budget) s i).outcome := by rw [exec_producer hi, runOp_running hh]

/-! `BB.ALLOC` where nothing preempts it. -/

/-- `BB.ALLOC` that grants (40_batch_buffer.md R131): the grant is noted and answered. -/
theorem exec_bbAlloc_granted {s t : State} {size off : Nat} {slot : Slot} (m : s.HandlerTurn)
    (h : alloc (point s.budget) size s = .ok (some (slot, off)) t) :
    exec (.bbAlloc size) s = .next { t.addGrant slot off size with result := .granted slot off } := by
  rw [exec_producer_running rfl m.running, producerOp, allocOp, inInterruptContext_handler m.context, h]
  rfl

/-- `BB.ALLOC` that finds no room. -/
theorem exec_bbAlloc_failed {s t : State} {size : Nat} (m : s.HandlerTurn)
    (h : alloc (point s.budget) size s = .ok none t) : exec (.bbAlloc size) s = .next { t with result := .fail } := by
  rw [exec_producer_running rfl m.running, producerOp, allocOp, inInterruptContext_handler m.context, h]
  rfl

/-- Settles O18: step A3 appends to the newest opened batch. -/
theorem allocAppends : Obligations.AllocAppends := fun _ _ m h1 h2 hroom =>
  exec_bbAlloc_granted m (alloc_appends (point_still _) m.quiet h1 h2 hroom)

/-- Settles O19: the batch that steps A5 and A6 open is empty, so the grant starts at 1. -/
theorem allocOpens : Obligations.AllocOpens := fun _ _ m h1 h2 hroom hfull hempty =>
  exec_bbAlloc_granted m (alloc_opens (point_still _) m.quiet h1 h2 hroom hfull hempty)

/-- Settles O20: step A4 of a full buffer. -/
theorem allocFails : Obligations.AllocFails := fun _ _ m h1 h2 hroom hfull =>
  exec_bbAlloc_failed m (alloc_fails (point_still _) m.quiet h1 h2 hroom hfull)

/-! `BB.ALLOC` with any preemption. -/

/-- What `BB.ALLOC` answers lies in its batch, and the caller holds it; if it halts, that is the fatal halt. -/
theorem allocOp_grants {pt : Hook} (hp : Hooked pt) (size : Nat) {s : State} (i : s.Inv) :
    (allocOp pt size s).Sat (fun r t => ∀ slot off, r = .granted slot off →
      1 ≤ off ∧ off + size ≤ Config.batchSize ∧
        ∃ g ∈ t.grants, g.owner = t.running ∧ g.slot = slot ∧ g.off = off ∧ g.size = size)
      (fun t => t.halted = true) := by
  unfold allocOp inInterruptContext
  split
  · refine Res.Sat.bind ((alloc_keeps hp size (Kept.refl s)).mono (fun _ _ h => h.2) fun _ h => h.1) fun r u hr => ?_
    cases r with
    | none => exact fun _ _ h => nomatch h
    | some g =>
      rintro slot off ⟨⟩
      obtain ⟨hoff, hend⟩ := hr g rfl i
      exact ⟨hoff, hend, _, List.mem_append_right _ (List.mem_singleton_self _), rfl, rfl, rfl, rfl⟩
  · trivial

/-- An operation that answers next and is not halted has answered what it satisfies. -/
theorem runOp_sat {body : Hook → State → Res OpResult} {Q : OpResult → State → Prop} {s t : State}
    (h : ∀ pt, Hooked pt → (body pt s).Sat Q fun u => u.halted = true) (he : runOp body s = .next t)
    (ht : t.halted = false) : ∃ u, Q t.result u ∧ t = { u with result := t.result } := by
  by_cases hh : s.halted = true
  · rw [runOp_halted hh] at he
    exact nomatch he
  · rw [runOp_running (by simpa using hh)] at he
    rcases (h _ (point_hooked _)).outcome he with ⟨r, u, hq, rfl⟩ | hhalt
    · exact ⟨u, hq, rfl⟩
    · exact absurd (hhalt.symm.trans ht) (by decide)

/-- Settles O22: from `allocOp_grants`, since only a fatal halt answers otherwise. -/
theorem allocGrantInBatch : Obligations.AllocGrantInBatch := by
  intro s t size slot off i he ht hres
  obtain ⟨u, hq, e⟩ := runOp_sat (fun _ hp => allocOp_grants hp size i) he ht
  obtain ⟨hoff, hend, g, hg, howner, hgrant⟩ := hq slot off hres
  rw [e]
  exact ⟨hoff, hend, g, hg, howner, hgrant⟩

/-! `BB.WRITE`. -/

/-- The grant that `BB.WRITE` finds for a byte that one of the caller's grants covers. -/
theorem find_covering {s : State} {slot off : Nat} (h : ∃ g ∈ s.grants, g.covers s.running slot off = true) :
    ∃ g ∈ s.grants, g.covers s.running slot off = true ∧
      (s.grants.find? fun g => g.covers s.running slot off) = some g := by
  obtain ⟨g, hfind⟩ := Option.isSome_iff_exists.1 (List.find?_isSome.2 h)
  exact ⟨g, List.mem_of_find?_eq_some hfind, by simpa using List.find?_some hfind, hfind⟩

/-- The slot of a grant that covers a byte. -/
theorem Grant.covers_slot {g : Grant} {a : Agent} {slot off : Nat} (h : g.covers a slot off = true) :
    g.slot.val = slot := by
  simp only [Grant.covers, Bool.and_eq_true, decide_eq_true_eq] at h
  exact h.1.1.2

/-- The first byte of a grant, of a source the caller does not produce. -/
theorem headerRefusal_foreign {a : Agent} {b : Byte} (h : emits a (headerSid b) = false) (g : Grant) :
    headerRefusal a g g.off b = some (if 12 ≤ (headerSid b).toNat then .unassignedUplinkSource else .foreignSource) :=
  if_pos ⟨rfl, h⟩

/-- Any other byte, and a header of a source the caller produces. -/
theorem headerRefusal_none {a : Agent} {g : Grant} {off : Nat} {b : Byte}
    (h : g.off = off → emits a (headerSid b) = true) : headerRefusal a g off b = none :=
  if_neg fun hf => absurd (h hf.1.symm) (by rw [hf.2]; decide)

/-- `BB.WRITE` into a grant (40_batch_buffer.md R133). -/
theorem writeGranted_ok {s : State} {slot off : Nat} {b : Byte}
    (hsome : ∃ g ∈ s.grants, g.covers s.running slot off = true)
    (hheader : ∀ g ∈ s.grants, g.covers s.running slot off = true → g.off = off → emits s.running (headerSid b) = true) :
    writeGranted slot off b s = .ok () { s with
      batch := Memory.write .batch s.batch (Config.batchSize * slot + off) b
      grants := s.grants.map fun h => h.wrote s.running slot off } := by
  obtain ⟨g, hmem, hcov, hfind⟩ := find_covering hsome
  unfold writeGranted
  rw [hfind]
  dsimp only
  rw [headerRefusal_none (hheader g hmem hcov), ← Grant.covers_slot hcov]
  rfl

/-- `BB.WRITE` outside the caller's grants (70_reset_and_hazards.md R287). -/
theorem writeGranted_outside {s : State} {slot off : Nat} (b : Byte)
    (h : ∀ g ∈ s.grants, g.covers s.running slot off = false) : writeGranted slot off b s = .refused .notGranted := by
  unfold writeGranted
  rw [List.find?_eq_none.2 fun g hg => by simp [h g hg]]

/-- `BB.WRITE` of the header of a record that the caller does not produce (42_wire_framing.md R182). -/
theorem writeGranted_foreign {s : State} {slot off : Nat} {b : Byte}
    (hsome : ∃ g ∈ s.grants, g.covers s.running slot off = true)
    (hfirst : ∀ g ∈ s.grants, g.covers s.running slot off = true → g.off = off)
    (hb : emits s.running (headerSid b) = false) :
    writeGranted slot off b s =
      .refused (if 12 ≤ (headerSid b).toNat then .unassignedUplinkSource else .foreignSource) := by
  obtain ⟨g, hmem, hcov, hfind⟩ := find_covering hsome
  obtain rfl := hfirst g hmem hcov
  unfold writeGranted
  rw [hfind]
  dsimp only
  rw [headerRefusal_foreign hb]

/-- `BB.WRITE` as an instruction. -/
theorem exec_bbWrite {s : State} (m : s.HandlerTurn) (slot off : Nat) (b : Byte) :
    exec (.bbWrite slot off b) s = ((writeGranted slot off b s).map fun _ => .done).outcome := by
  rw [exec_producer_running rfl m.running, producerOp, writeOp, inInterruptContext_handler m.context]

/-- Settles O23: the three outcomes of `writeGranted`, and the laws of the memory. -/
theorem writeGrantedRule : Obligations.WriteGranted := by
  intro s slot off b m
  refine ⟨fun g hmem hcov hwf hheader => ?_, fun hnone => ?_, fun hsome hfirst hb => ?_⟩
  · refine ⟨Memory.write .batch s.batch (Config.batchSize * slot + off) b, ?_, fun a => ?_⟩
    · rw [exec_bbWrite m, writeGranted_ok ⟨g, hmem, hcov⟩ hheader]
      rfl
    · split
      · rename_i ha
        rw [ha, Memory.read_write_same .batch hwf]
      · rename_i ha
        exact Memory.read_write_other .batch _ b ha
  · rw [exec_bbWrite m, writeGranted_outside b hnone]
    rfl
  · rw [exec_bbWrite m, writeGranted_foreign hsome hfirst hb]
    rfl

/-! Domains. -/

/-- `BB.ALLOC` of no byte or of more than a batch holds (40_batch_buffer.md R131). -/
theorem alloc_outOfDomain {size : Nat} (h : size = 0 ∨ 63 < size) (pt : Hook) (s : State) :
    alloc pt size s = .refused .allocSize := if_pos h

/-- A record that the agent produces, longer than a batch (42_wire_framing.md R182). -/
theorem exec_emit_tooLong {i : Instr} {bs : List Byte} {s : State} (hh : s.halted = false) (hc : s.inInterrupt = true)
    (hi : emittedBytes i = some bs) (hs : emits s.running (headerSid (bs.getD 0 0)) = true) (hl : 63 < bs.length) :
    exec i s = .refused .allocSize :=
  exec_producer_refused (emittedBytes_producer hi) hh fun pt => by
    rw [producerOp_emits hi, inInterruptContext_handler hc, asProducerOf, if_pos hs, emit, alloc_outOfDomain (.inr hl)]
    rfl

/-- A record of a source that is not the agent's (R180, R182). -/
theorem exec_emit_foreign {i : Instr} {bs : List Byte} {s : State} (hh : s.halted = false) (hc : s.inInterrupt = true)
    (hi : emittedBytes i = some bs) (hs : emits s.running (headerSid (bs.getD 0 0)) = false) :
    exec i s = .refused .foreignSource :=
  exec_producer_refused (emittedBytes_producer hi) hh fun pt => by
    rw [producerOp_emits hi, inInterruptContext_handler hc, asProducerOf, hs]
    rfl

/-- Controllers of one source id are one (30_encoding.md R96). -/
theorem chan_sid_inj {j k : Chan} : j.sid = k.sid ↔ j = k := by
  cases j <;> cases k <;> decide

/-- Only `CanRx[k]` produces the source of controller `k` (30_encoding.md R96). -/
theorem emits_chan {a : Agent} {k : Chan} (h : a ≠ .canRx k) : emits a k.sid = false := by
  cases a with
  | main => rfl
  | usbRx => rfl
  | extProd j => cases k <;> rfl
  | canRx j => exact decide_eq_false fun e => h (congrArg Agent.canRx (chan_sid_inj.1 e.symm))

/-- `CAN.RX(k)` by an agent that is not `CanRx[k]` (43_can_codec.md R210). -/
theorem exec_canRx_foreign {s : State} {k : Chan} (hh : s.halted = false) (hc : s.inInterrupt = true)
    (h : s.running ≠ .canRx k) : exec (.canRx k) s = .refused .foreignSource :=
  exec_producer_refused rfl hh fun pt => by
    rw [producerOp, receiveOp, inInterruptContext_handler hc, asProducerOf, emits_chan h]
    rfl

/-- Settles O21: each refusal lies before any preemption point. -/
theorem producerDomains : Obligations.ProducerDomains := by
  intro s hh hc
  refine ⟨fun size h => ?_, fun j hi rest hj hl i hmem => ?_, fun i bs => exec_emit_foreign hh hc,
    fun k => exec_canRx_foreign hh hc⟩
  · exact exec_producer_refused rfl hh fun pt => by
      rw [producerOp, allocOp, inInterruptContext_handler hc, alloc_outOfDomain h]
      rfl
  · obtain ⟨sid, hbytes, hsid⟩ : ∃ sid, emittedBytes i = some (headerOf hi sid :: rest) ∧ emits (.extProd j) sid = true := by
      simp only [List.mem_cons, List.not_mem_nil, or_false] at hmem
      rcases hmem with rfl | rfl | rfl | rfl | rfl | rfl | rfl | rfl | rfl <;> exact ⟨_, rfl, rfl⟩
    refine exec_emit_tooLong hh hc hbytes ?_ (by rw [List.length_cons]; omega)
    rw [hj, List.getD_cons_zero, headerSid_headerOf]
    exact hsid

end Sys2Proof.Machine
end

section
/-! SUPPORT. The consumer side of the Batch Buffer: `BB.POP`, `BB.RESET`, `BB.READ` and `BB.DISCARD_ALL`
(40_batch_buffer.md R134 to R138). -/

namespace Sys2Proof.Machine

/-! Where an operation of `Main` runs. -/

/-- With no handler inside an operation `Main` runs (60_exceptions.md R252). -/
theorem inInterrupt_main {s : State} (h : s.stack = []) : s.inInterrupt = false := by
  simp [State.inInterrupt, State.running, h]

/-- An operation of the main context, in it (R253). -/
theorem runOp_main {body : Hook → State → Res OpResult} {s : State} (m : s.MainTurn) :
    runOp (fun pt s => inMainContext s (body pt s)) s = (body (point s.budget) s).outcome := by
  rw [runOp_running m.running, inMainContext, inInterrupt_main m.stack, if_neg Bool.false_ne_true]

/-! `BB.POP`. -/

/-- Settles O28: `pop_still` as an instruction. -/
theorem popRule : Obligations.PopRule := by
  intro s m
  dsimp only
  rw [exec_bbPop, runOp_main m, pop_still (point_still _) m.quiet]
  split <;> rfl

/-- What `BB.POP` answers when `bb.consumed` is `c`: it stays there, and a batch returned is the oldest, with the length it
has then. -/
def PoppedAt (c : Cursor) (r : Option (Slot × Nat)) (t : State) : Prop :=
  t.bbConsumed = c ∧ ∀ g, r = some g →
    g.1 = slotOf c ∧ g.2 = (t.wlen[g.1]).toNat ∧ 2 ≤ g.2 ∧ t.popped = some g

/-- `BB.POP` that returns `NONE`. -/
theorem poppedAt_none {c : Cursor} {s : State} (h : s.bbConsumed = c) : PoppedAt c none { s with popped := none } :=
  ⟨h, fun _ e => nomatch e⟩

/-- Step Q5 (40_batch_buffer.md R134). -/
theorem popClosed_poppedAt {c : Cursor} {s : State} {H : State → Prop} (h : s.bbConsumed = c) :
    (popClosed (slotOf c) s).Sat (PoppedAt c) H := by
  unfold popClosed
  dsimp only
  split
  · exact poppedAt_none h
  · rename_i hlen
    refine ⟨h, ?_⟩
    rintro _ ⟨⟩
    exact ⟨rfl, rfl, by omega, rfl⟩

/-- After a preemption point the operation goes on from a state the handlers led to, whatever it started from. -/
theorem Hooked.step {β : Type} {pt : Hook} {Q : β → State → Prop} (hp : Hooked pt) {s : State} {f : Unit → State → Res β}
    (hf : ∀ u, Kept s u → (f () u).Sat Q fun t => t.halted = true) :
    ((pt s).bind f).Sat Q fun t => t.halted = true :=
  Res.Sat.bind (Q := fun _ u => Kept s u) ((hp s).mono (fun _ _ h => h.1) fun _ h => h.1) fun _ u hu => hf u hu

/-- `BB.POP`, whatever preempts it (R134, R136): no handler moves `bb.consumed`, and Q5 is the last step. -/
theorem pop_poppedAt {pt : Hook} (hp : Hooked pt) (s : State) :
    (pop pt s).Sat (PoppedAt s.bbConsumed) fun t => t.halted = true := by
  unfold pop
  refine hp.step fun u hu => ?_
  dsimp only
  split
  · exact poppedAt_none hu.consumed
  · split
    · refine hp.step fun v hv => ?_
      have hvc : v.bbConsumed = s.bbConsumed := hv.consumed.trans hu.consumed
      split
      · exact poppedAt_none hvc
      · refine hp.step fun w hw => hp.step fun x hx => popClosed_poppedAt (hx.consumed.trans ?_)
        split <;> exact hw.consumed.trans hvc
    · exact hp.step fun v hv => popClosed_poppedAt (hv.consumed.trans hu.consumed)

/-- `BB.POP` as an instruction: a batch it answers is the oldest, and closed. -/
theorem execPop_closed {pt : Hook} (hp : Hooked pt) {s : State} (i : s.Inv) :
    (inMainContext s ((pop pt s).map popResult)).Sat (fun r t => ∀ slot len, r = .popped slot len →
      t.Inv ∧ PoppedAt s.bbConsumed (some (slot, len)) t ∧ 2 ≤ (t.bbProduced - t.bbConsumed).toNat)
      fun t => t.halted = true := by
  unfold inMainContext
  split
  · trivial
  · refine Res.Sat.bind ((pop_poppedAt hp s).and (pop_closed hp i.sound)) fun r t h => ?_
    obtain ⟨hpop, hsound, hclosed⟩ := h
    cases r with
    | none => exact fun _ _ h => nomatch h
    | some g =>
      rintro slot len ⟨⟩
      exact ⟨hsound.inv, hpop, hclosed rfl⟩

/-- Settles O29: `execPop_closed`; the length of a batch is at most its size by the invariant. -/
theorem popReturnsClosed : Obligations.PopReturnsClosed := by
  intro s t slot len i he ht hres
  rw [exec_bbPop] at he
  obtain ⟨u, hq, e⟩ := runOp_sat (fun _ hp => execPop_closed hp i) he ht
  obtain ⟨iu, ⟨hc, hg⟩, h2⟩ := hq slot len hres
  obtain ⟨hslot, hlen, hdata, hpopped⟩ := hg _ rfl
  have hsize : len ≤ Config.batchSize := hlen.trans_le (iu.wlens slot).2
  rw [e]
  exact ⟨hc, hslot.trans (congrArg slotOf hc.symm), hlen, hdata, hsize, h2, hpopped⟩

/-! `BB.RESET` and `BB.READ`. -/

/-- `BB.RESET` with nothing opened (R135). -/
theorem resetOldest_nothing {s : State} (h : s.bbProduced = s.bbConsumed) (pt : Hook) :
    resetOldest pt s = .refused .nothingOpened := if_pos h

/-- Settles O30: `resetOldest_still` as an instruction. -/
theorem resetRule : Obligations.ResetRule := by
  intro s m
  refine ⟨fun hne => ?_, fun he => ?_⟩
  · rw [exec_bbReset, runOp_main m, resetOldest_still (point_still _) m.quiet hne]
    rfl
  · rw [exec_bbReset, runOp_main m, resetOldest_nothing he]
    rfl

/-- A byte that something has written reads as written. -/
theorem peekBatch_written {s : State} {slot : Slot} {off : Nat} {b : Byte}
    (h : Memory.read .batch s.batch (batchAddr slot off) = some b) : s.peekBatch slot off = b := by
  rw [State.peekBatch, h]

/-- `BB.READ` of the popped batch below its length (R137). -/
theorem readPopped_below {s : State} {slot : Slot} {len off : Nat} (h : s.popped = some (slot, len)) (hoff : off < len) :
    readPopped slot off s = .ok (s.peekBatch slot off) s.drawn := by
  rw [readPopped, h]
  exact if_pos ⟨rfl, hoff⟩

/-- `BB.READ` of anything else. -/
theorem readPopped_refused {s : State} {slot off : Nat}
    (h : ∀ g : Slot × Nat, s.popped = some g → ¬ (g.1.val = slot ∧ off < g.2)) :
    readPopped slot off s = .refused .notPopped := by
  unfold readPopped
  split
  · rename_i sl len hg
    exact if_neg (h _ hg)
  · rfl

/-- `BB.READ` as an instruction that is refused. -/
theorem exec_bbRead_refused {s : State} (m : s.MainTurn) {slot off : Nat}
    (h : ∀ g : Slot × Nat, s.popped = some g → ¬ (g.1.val = slot ∧ off < g.2)) :
    exec (.bbRead slot off) s = .refused .notPopped := by
  rw [exec_bbRead, runOp_main m, readPopped_refused h]
  rfl

/-- Settles O31: `readPopped_below`, and the three ways to miss the popped batch. -/
theorem readPoppedRule : Obligations.ReadPopped := by
  intro s slot len off m
  refine ⟨fun hp hoff => ⟨s.peekBatch slot off, ?_, fun v hv => peekBatch_written hv⟩, fun hp hoff => ?_,
    fun j hp hj => ?_, fun hp => ?_⟩
  · rw [exec_bbRead, runOp_main m, readPopped_below hp hoff]
    rfl
  · refine exec_bbRead_refused m fun g hg h => ?_
    cases hp.symm.trans hg
    exact absurd h.2 (Nat.not_lt.2 hoff)
  · refine exec_bbRead_refused m fun g hg h => ?_
    cases hp.symm.trans hg
    exact hj (Fin.ext h.1.symm)
  · exact exec_bbRead_refused m fun g hg => nomatch hp.symm.trans hg

end Sys2Proof.Machine
end

section
/-! SUPPORT. `BB.DISCARD_ALL` (40_batch_buffer.md R138): what its loop leaves, by the rounds it takes from a state whose
batches stand in order (R140 clauses 3, 4). -/

namespace Sys2Proof.Machine

/-! The oldest and the newest opened batch. -/

/-- The written length of the newest opened batch. -/
def State.newestLen (s : State) : Nat := (s.wlen[slotOf (s.bbProduced - 1)]).toNat

/-- The newest opened batch is so many after the oldest. -/
theorem cursor_newest {p c : Cursor} (h : 1 ≤ (p - c).toNat) :
    p - 1 = c + BitVec.ofNat Config.cursorBits ((p - c).toNat - 1) := by
  apply BitVec.eq_of_toNat_eq
  have hp := p.isLt
  have hc := c.isLt
  have hone : (1 : Cursor).toNat = 1 := rfl
  simp only [Config.cursorBits, BitVec.toNat_add, BitVec.toNat_ofNat, BitVec.toNat_sub, hone] at *
  omega

/-- Of two to eight opened batches the newest is not in the slot of the oldest (10_state.md R26). -/
theorem slotOf_newest_ne {p c : Cursor} (h2 : 2 ≤ (p - c).toNat) (h8 : (p - c).toNat ≤ 8) :
    slotOf c ≠ slotOf (p - 1) := by
  intro e
  have := slotOf_add_inj (m := 0) (n := (p - c).toNat - 1) (by omega) (by omega)
    ((congrArg slotOf (BitVec.add_zero c)).trans (e.trans (congrArg slotOf (cursor_newest (by omega)))))
  omega

/-- Clause 4 of R140 for the oldest batch. -/
theorem State.OrderedFrom.oldest_filled {s : State} (h : s.OrderedFrom s.bbConsumed)
    (h2 : 2 ≤ (s.bbProduced - s.bbConsumed).toNat) : 1 < (s.wlen[slotOf s.bbConsumed]).toNat := by
  simpa only [BitVec.ofNat_eq_ofNat, BitVec.add_zero] using h.filled 0 (by omega)

/-- Clause 3 of R140 where one batch at most is opened. -/
theorem State.OrderedFrom.others_empty {s : State} (h : s.OrderedFrom s.bbConsumed)
    (h1 : (s.bbProduced - s.bbConsumed).toNat ≤ 1) {i : Slot} (hi : slotOf s.bbConsumed ≠ i) : s.wlen[i] = 1 :=
  h.empty i fun n hn => by
    obtain rfl : n = 0 := by omega
    simpa only [BitVec.ofNat_eq_ofNat, BitVec.add_zero] using hi

/-! Where the loop ends. -/

/-- The loop ends here: nothing is opened, or the oldest batch holds no data (R134). -/
def State.discardDone (s : State) : Prop :=
  s.bbProduced = s.bbConsumed ∨ (s.wlen[slotOf s.bbConsumed]).toNat ≤ 1

/-- In order, the loop ends only where at most one batch is opened. -/
theorem State.OrderedFrom.opened_le_one {s : State} (h : s.OrderedFrom s.bbConsumed) (hd : s.discardDone) :
    (s.bbProduced - s.bbConsumed).toNat ≤ 1 := by
  rcases hd with he | hlen
  · simp [he]
  · by_contra hlt
    exact absurd (h.oldest_filled (by omega)) (Nat.not_lt.2 hlen)

/-- Where the loop ends no batch holds data. -/
theorem State.OrderedFrom.short_of_done {s : State} (h : s.OrderedFrom s.bbConsumed) (hd : s.discardDone) (i : Slot) :
    (s.wlen[i]).toNat ≤ 1 := by
  by_cases hi : slotOf s.bbConsumed = i
  · subst hi
    rcases hd with he | hlen
    · rw [h.empty _ fun n hn => by simp [he] at hn]
      rfl
    · exact hlen
  · rw [h.others_empty (h.opened_le_one hd) hi]
    rfl

/-! One round. -/

/-- `BB.POP` closes the oldest batch where it is the newest (R134 step P4). -/
def State.closeOldest (s : State) : State :=
  { s with bbProduced := if s.bbProduced = s.bbConsumed + 1 then s.bbProduced + 1 else s.bbProduced }

/-- One round of the loop: the oldest batch closed, emptied and consumed. -/
def State.discardOldest (s : State) : State :=
  { s with
    wlen := s.wlen.set (slotOf s.bbConsumed) 1
    ranges := s.ranges.set (slotOf s.bbConsumed) []
    bbConsumed := s.bbConsumed + 1
    bbProduced := if s.bbProduced = s.bbConsumed + 1 then s.bbProduced + 1 else s.bbProduced
    popped := none
    inFlight := s.inFlight.map fun f => if f.slot = slotOf s.bbConsumed then { f with disturbed := true } else f }

theorem State.closeOldest_of_newest {s : State} (h : s.bbProduced = s.bbConsumed + 1) :
    s.closeOldest = { s with bbProduced := s.bbProduced + 1 } := by
  rw [State.closeOldest, if_pos h]

theorem State.closeOldest_of_closed {s : State} (h : s.bbProduced ≠ s.bbConsumed + 1) : s.closeOldest = s := by
  rw [State.closeOldest, if_neg h]

theorem State.discardOldest_getElem (s : State) (i : Slot) :
    s.discardOldest.wlen[i] = if slotOf s.bbConsumed = i then 1 else s.wlen[i] := getElem_set_fin _ _ _ _

theorem State.discardOldest_ranges_getElem (s : State) (i : Slot) :
    s.discardOldest.ranges[i] = if slotOf s.bbConsumed = i then [] else s.ranges[i] := getElem_set_fin _ _ _ _

/-- The oldest batch, once closed, is one of two to eight, and the batches stand in order as before. -/
theorem State.closeOldest_ordered {s : State} (hc : s.cursorsOk) (h : s.OrderedFrom s.bbConsumed) (hd : ¬ s.discardDone) :
    s.closeOldest.OrderedFrom s.bbConsumed ∧ 2 ≤ (s.closeOldest.bbProduced - s.bbConsumed).toNat ∧
      (s.closeOldest.bbProduced - s.bbConsumed).toNat ≤ 8 := by
  obtain ⟨hne, hlen⟩ := not_or.1 hd
  have hc8 : (s.bbProduced - s.bbConsumed).toNat ≤ 8 := hc
  by_cases hnew : s.bbProduced = s.bbConsumed + 1
  · rw [State.closeOldest_of_newest hnew]
    have h1 := cursor_sub_one hnew
    have hs : (s.bbProduced + 1 - s.bbConsumed).toNat = 2 := by rw [cursor_succ_sub (by omega), h1]
    have hnewest : s.bbProduced - 1 = s.bbConsumed := by rw [hnew]; exact BitVec.add_sub_cancel _ _
    refine ⟨h.openBatch (by rw [h1]; decide) fun _ => ?_, hs.ge, hs.trans_le (by decide)⟩
    simp only [hnewest]
    omega
  · rw [State.closeOldest_of_closed hnew]
    have h0 : (s.bbProduced - s.bbConsumed).toNat ≠ 0 := fun e => hne (cursor_sub_eq_zero.1 e)
    have h1 : (s.bbProduced - s.bbConsumed).toNat ≠ 1 := fun e =>
      hnew (cursor_sub_inj (e.trans (cursor_sub_one rfl).symm))
    exact ⟨h, by omega, hc8⟩

/-- A round leaves the batches in order. -/
theorem State.discardOldest_ordered {s : State} (hc : s.cursorsOk) (h : s.OrderedFrom s.bbConsumed)
    (hd : ¬ s.discardDone) : s.discardOldest.cursorsOk ∧ s.discardOldest.OrderedFrom s.discardOldest.bbConsumed := by
  obtain ⟨ho, h2, h8⟩ := s.closeOldest_ordered hc h hd
  constructor
  · show (s.closeOldest.bbProduced - (s.bbConsumed + 1)).toNat ≤ 8
    rw [cursor_sub_succ (by omega)]
    omega
  · exact (State.OrderedFrom.emptyOldest (s := s.closeOldest) ho h8 h2).consume rfl rfl rfl

/-- The newest batch after a round: the one before it, or the empty one that closing the oldest opened. -/
theorem State.discardOldest_newestLen {s : State} (hc : s.cursorsOk) (h : s.OrderedFrom s.bbConsumed)
    (hd : ¬ s.discardDone) :
    s.discardOldest.newestLen = if s.bbProduced = s.bbConsumed + 1 then 1 else s.newestLen := by
  obtain ⟨-, h2, h8⟩ := s.closeOldest_ordered hc h hd
  have hne := slotOf_newest_ne h2 h8
  show (s.discardOldest.wlen[slotOf (s.closeOldest.bbProduced - 1)]).toNat = _
  rw [State.discardOldest_getElem, if_neg hne]
  split
  · rename_i hnew
    rw [h.others_empty (cursor_sub_one hnew).le hne]
    rfl
  · rename_i hold
    rw [State.closeOldest_of_closed hold, State.newestLen]

/-- After a round a batch is still opened. -/
theorem State.discardOldest_opened {s : State} (hc : s.cursorsOk) (h : s.OrderedFrom s.bbConsumed)
    (hd : ¬ s.discardDone) : s.discardOldest.bbProduced ≠ s.discardOldest.bbConsumed := fun e => by
  obtain ⟨-, h2, -⟩ := s.closeOldest_ordered hc h hd
  have h1 : (s.closeOldest.bbProduced - s.bbConsumed).toNat = 1 := cursor_sub_one e
  omega

/-! Where the cursors end. -/

/-- `bb.produced` after `BB.DISCARD_ALL`: a newest batch that holds data is closed (R138). -/
def State.discardProduced (s : State) : Cursor :=
  if s.bbProduced ≠ s.bbConsumed ∧ 1 < s.newestLen then s.bbProduced + 1 else s.bbProduced

/-- `bb.consumed` after `BB.DISCARD_ALL`: all batches opened before are consumed, but a newest one that is empty. -/
def State.discardConsumed (s : State) : Cursor :=
  if s.bbProduced = s.bbConsumed ∨ 1 < s.newestLen then s.bbProduced else s.bbProduced - 1

theorem State.discardProduced_opened {s : State} (h : s.bbProduced ≠ s.bbConsumed) :
    s.discardProduced = if 1 < s.newestLen then s.bbProduced + 1 else s.bbProduced := by
  simp only [State.discardProduced, h, ne_eq, not_false_eq_true, true_and]

theorem State.discardConsumed_opened {s : State} (h : s.bbProduced ≠ s.bbConsumed) :
    s.discardConsumed = if 1 < s.newestLen then s.bbProduced else s.bbProduced - 1 := by
  simp only [State.discardConsumed, h, false_or]

/-- Where the loop ends the cursors stand there already. -/
theorem State.OrderedFrom.cursors_of_done {s : State} (h : s.OrderedFrom s.bbConsumed) (hd : s.discardDone) :
    s.discardProduced = s.bbProduced ∧ s.discardConsumed = s.bbConsumed := by
  have hempty : ¬ 1 < s.newestLen := Nat.not_lt.2 (h.short_of_done hd _)
  refine ⟨if_neg fun hn => hempty hn.2, ?_⟩
  by_cases hne : s.bbProduced = s.bbConsumed
  · exact (if_pos (.inl hne)).trans hne
  · have h0 : (s.bbProduced - s.bbConsumed).toNat ≠ 0 := fun e => hne (cursor_sub_eq_zero.1 e)
    have hone : (s.bbProduced - s.bbConsumed).toNat = 1 := by have := h.opened_le_one hd; omega
    rw [State.discardConsumed_opened hne, if_neg hempty, cursor_newest hone.ge, hone]
    exact BitVec.add_zero _

/-- A round does not change where they end. -/
theorem State.discardOldest_cursors {s : State} (hc : s.cursorsOk) (h : s.OrderedFrom s.bbConsumed)
    (hd : ¬ s.discardDone) :
    s.discardOldest.discardProduced = s.discardProduced ∧ s.discardOldest.discardConsumed = s.discardConsumed := by
  obtain ⟨hne, hlen⟩ := not_or.1 hd
  have hopen := State.discardOldest_opened hc h hd
  rw [State.discardProduced_opened hopen, State.discardProduced_opened hne, State.discardConsumed_opened hopen,
    State.discardConsumed_opened hne, State.discardOldest_newestLen hc h hd]
  by_cases hnew : s.bbProduced = s.bbConsumed + 1
  · have hp : s.discardOldest.bbProduced = s.bbProduced + 1 := if_pos hnew
    have hnewest : s.bbProduced - 1 = s.bbConsumed := by rw [hnew]; exact BitVec.add_sub_cancel _ _
    have hdata : 1 < s.newestLen := by
      simp only [State.newestLen, hnewest]
      omega
    rw [if_pos hnew, if_pos hdata, if_pos hdata, hp]
    exact ⟨rfl, BitVec.add_sub_cancel _ _⟩
  · have hp : s.discardOldest.bbProduced = s.bbProduced := if_neg hnew
    rw [if_neg hnew, hp]
    exact ⟨rfl, rfl⟩

/-! All rounds. -/

/-- What `BB.DISCARD_ALL`'s loop leads to: exactly the batches that held data are emptied; a packet in flight stays in
flight, disturbed or not. -/
structure Discards (s t : State) : Prop where
  frame    : t = { s with
    wlen := t.wlen, ranges := t.ranges, bbProduced := s.discardProduced, bbConsumed := s.discardConsumed
    popped := none, inFlight := t.inFlight }
  short    : ∀ i : Slot, (t.wlen[i]).toNat ≤ 1
  lengths  : ∀ i : Slot, t.wlen[i] = if 1 < (s.wlen[i]).toNat then 1 else s.wlen[i]
  ranges   : ∀ i : Slot, t.ranges[i] = if 1 < (s.wlen[i]).toNat then [] else s.ranges[i]
  flight   : ∀ f, t.inFlight = some f → ∃ g, s.inFlight = some g ∧ f.slot = g.slot ∧ f.len = g.len
  inFlight : s.inFlight.isSome = t.inFlight.isSome

/-- The last round, whose `BB.POP` returns `NONE`. -/
theorem Discards.last {s : State} (h : s.OrderedFrom s.bbConsumed) (hd : s.discardDone) :
    Discards s { s with popped := none } where
  frame := by rw [(h.cursors_of_done hd).1, (h.cursors_of_done hd).2]
  short := h.short_of_done hd
  lengths i := (if_neg (Nat.not_lt.2 (h.short_of_done hd i))).symm
  ranges i := (if_neg (Nat.not_lt.2 (h.short_of_done hd i))).symm
  flight f hf := ⟨f, hf, rfl, rfl⟩
  inFlight := rfl

/-- A round before the others. -/
theorem Discards.round {s t : State} (hc : s.cursorsOk) (h : s.OrderedFrom s.bbConsumed) (hd : ¬ s.discardDone)
    (k : Discards s.discardOldest t) : Discards s t := by
  have hdata : 1 < (s.wlen[slotOf s.bbConsumed]).toNat := Nat.not_le.1 fun hle => hd (.inr hle)
  obtain ⟨hproduced, hconsumed⟩ := State.discardOldest_cursors hc h hd
  refine ⟨?_, k.short, fun i => ?_, fun i => ?_, fun f hf => ?_, Option.isSome_map.symm.trans k.inFlight⟩
  · rw [← hproduced, ← hconsumed]
    exact k.frame
  · rw [k.lengths, State.discardOldest_getElem]
    by_cases hi : slotOf s.bbConsumed = i
    · subst hi
      rw [if_pos rfl, if_pos hdata, if_neg (by decide)]
    · rw [if_neg hi]
  · rw [k.ranges, State.discardOldest_getElem, State.discardOldest_ranges_getElem]
    by_cases hi : slotOf s.bbConsumed = i
    · subst hi
      rw [if_pos rfl, if_pos rfl, if_pos hdata, ite_self]
    · rw [if_neg hi, if_neg hi]
  · obtain ⟨g, hg, hslot, hlen⟩ := k.flight f hf
    obtain ⟨g₀, hg₀, rfl⟩ := Option.map_eq_some_iff.1 hg
    exact ⟨g₀, hg₀, hslot.trans (by split <;> rfl), hlen.trans (by split <;> rfl)⟩

/-- One round of the loop, or its end. -/
theorem discardRounds_succ {pt : Hook} (hp : Still pt) (n : Nat) {s : State} (hq : s.quiet) :
    (s.discardDone → discardRounds pt (n + 1) s = .ok () { s with popped := none }) ∧
    (¬ s.discardDone → discardRounds pt (n + 1) s = discardRounds pt n s.discardOldest) :=
  ⟨fun hd => (discardRounds_step hp n hq).trans (if_pos hd), fun hd => (discardRounds_step hp n hq).trans (if_neg hd)⟩

/-- The loop of `BB.DISCARD_ALL`, where it answers (R138 corner case (c)). -/
theorem discardRounds_discards {pt : Hook} (hp : Still pt) (n : Nat) {s t : State} (hq : s.quiet) (hc : s.cursorsOk)
    (h : s.OrderedFrom s.bbConsumed) (hr : discardRounds pt n s = .ok () t) : Discards s t := by
  induction n generalizing s with
  | zero => exact nomatch hr
  | succ n ih =>
    by_cases hd : s.discardDone
    · cases ((discardRounds_succ hp n hq).1 hd).symm.trans hr
      exact Discards.last h hd
    · rw [(discardRounds_succ hp n hq).2 hd] at hr
      obtain ⟨hc', h'⟩ := State.discardOldest_ordered hc h hd
      exact Discards.round hc h hd (ih (s := s.discardOldest) hq hc' h' hr)

/-- `BB.DISCARD_ALL` (R138): its loop, then `tx_pending <- 0`. -/
theorem discardAll_discards {pt : Hook} (hp : Still pt) {s : State} (hq : s.quiet) (hc : s.cursorsOk)
    (h : s.OrderedFrom s.bbConsumed) :
    ∃ t, discardAll pt s = .ok () { t with txPending := false } ∧ Calm s t ∧ Discards s t := by
  have hfuel : (filled s.wlen).card < s.budget * (Config.batchCount + 1) + Config.batchCount + 2 := by
    have := Finset.card_le_univ (filled s.wlen)
    simp only [Config.batchCount, Fintype.card_fin] at *
    omega
  obtain ⟨t, ht, hcalm, -⟩ := discardRounds_completes hp _ hq hfuel
  refine ⟨t, ?_, hcalm, discardRounds_discards hp _ hq hc h ht⟩
  rw [discardAll, ht, Res.bind_ok, hp.bind hcalm.quiet]

/-- `BB.POP` where no batch holds data. -/
theorem exec_bbPop_none {s : State} (m : s.MainTurn) (h : ∀ i : Slot, (s.wlen[i]).toNat ≤ 1) :
    exec .bbPop s = .next { s with popped := none, result := .noBatch } := by
  rw [popRule s m, if_pos (.inr (h _))]

/-- Settles O32: `discardAll_discards`; the state it leaves is still `Main`'s, with no batch that holds data. -/
theorem discardAllRule : Obligations.DiscardAllRule := by
  intro s m hc h
  obtain ⟨t, ht, hcalm, d⟩ := discardAll_discards (point_still s.budget) m.quiet hc h
  have hpopped : t.popped = none := by rw [d.frame]
  have turn : ({ t with txPending := false, result := .done } : State).MainTurn :=
    ⟨hcalm.halted.trans m.running, hcalm.quiet, hcalm.stack.trans m.stack⟩
  refine ⟨{ t with txPending := false, result := .done }, ?_, ?_, fun i => ⟨d.short i, d.lengths i, d.ranges i⟩, d.flight,
    d.inFlight, ?_⟩
  · rw [exec_bbDiscardAll, runOp_main m, ht]
    rfl
  · exact congrArg (fun u : State => { u with txPending := false, result := OpResult.done }) d.frame
  · rw [exec_bbPop_none turn d.short]
    exact congrArg (fun p => Host.Outcome.next { t with txPending := false, popped := p, result := OpResult.noBatch })
      hpopped.symm

end Sys2Proof.Machine
end

section
/-! SUPPORT. `UL.PUMP` (40_batch_buffer.md R139): the answer of the transport, the packet that is complete, the batch sent
before, the batch sent now. -/

namespace Sys2Proof.Machine

/-! The transport. -/

/-- Asking the transport takes its answer and nothing else (10_state.md R44). -/
theorem askReady_eq (s : State) : ∃ answers draws, s.askReady.2 = { s with readyIn := answers, draws := draws } := by
  unfold State.askReady
  split <;> exact ⟨_, _, rfl⟩

/-- With nothing in flight no packet is completed. -/
theorem completeFlight_none {s : State} (h : s.inFlight = none) : s.completeFlight = s := by
  rw [State.completeFlight, h]

/-- The packet in flight is completed (R139, D12). -/
theorem completeFlight_some {s : State} {f : Flight} (h : s.inFlight = some f) :
    s.completeFlight = { s.drawn with wire := s.wire ++ [s.packetOf f], inFlight := none } := by
  rw [State.completeFlight, h]

/-- Completing a packet puts it on the wire and changes nothing else. -/
theorem completeFlight_eq (s : State) : s.completeFlight =
    { s with wire := s.completeFlight.wire, draws := s.completeFlight.draws, inFlight := none } := by
  cases h : s.inFlight with
  | none => rw [completeFlight_none h, ← h]
  | some f =>
    rw [completeFlight_some h]
    rfl

/-- How many bytes of a packet precede `data[1]` (R44). -/
def sentinelBytes : Nat := if Config.txIncludesSentinel then 1 else 0

theorem packetOf_length (s : State) (f : Flight) : (s.packetOf f).length = sentinelBytes + (f.len - 1) := by
  unfold State.packetOf sentinelBytes
  rw [List.length_append, List.length_map, List.length_range]
  split <;> rfl

/-- A packet not disturbed in flight is the bytes of its batch (R44). -/
theorem packetOf_undisturbed {s : State} {f : Flight} (h : f.disturbed = false) : s.packetOf f =
    (if Config.txIncludesSentinel then [s.peekBatch f.slot 0] else []) ++
      (List.range (f.len - 1)).map fun i => s.peekBatch f.slot (i + 1) := by
  simp only [State.packetOf, h, Bool.false_eq_true, if_false]

/-- Byte `off` of the batch in such a packet. -/
theorem packetOf_getElem {s : State} {f : Flight} (h : f.disturbed = false) {off : Nat} (h1 : 1 - sentinelBytes ≤ off)
    (h2 : off < f.len) : (s.packetOf f)[off + sentinelBytes - 1]? = some (s.peekBatch f.slot off) := by
  have payload : ∀ o, o + 1 < f.len →
      ((List.range (f.len - 1)).map fun i => s.peekBatch f.slot (i + 1))[o]? = some (s.peekBatch f.slot (o + 1)) := by
    intro o ho
    rw [List.getElem?_map, List.getElem?_range (by omega)]
    rfl
  rw [packetOf_undisturbed h]
  unfold sentinelBytes at *
  by_cases hs : Config.txIncludesSentinel = true
  · rw [if_pos hs, if_pos hs, Nat.add_sub_cancel]
    cases off with
    | zero => rfl
    | succ o => exact payload o h2
  · rw [if_neg hs] at h1
    obtain ⟨o, rfl⟩ : ∃ o, off = o + 1 := ⟨off - 1, by omega⟩
    rw [if_neg hs, if_neg hs]
    exact payload o h2

/-! The pump where nothing preempts it. -/

/-- The batch sent before is reset, and `tx_pending` is 0 (R139). -/
def State.resetSent (s : State) : State :=
  { s with
    wlen := if s.txPending then s.wlen.set (slotOf s.bbConsumed) 1 else s.wlen
    ranges := if s.txPending then s.ranges.set (slotOf s.bbConsumed) [] else s.ranges
    bbConsumed := if s.txPending then s.bbConsumed + 1 else s.bbConsumed
    popped := if s.txPending then none else s.popped
    txPending := false }

/-- Nothing was sent before. -/
theorem State.resetSent_idle {s : State} (h : s.txPending = false) : s.resetSent = s := by
  simp only [State.resetSent, h, Bool.false_eq_true, if_false]
  rw [← h]

variable {pt : Hook}

/-- The transport is busy. -/
theorem pump_busy {s : State} (h : s.askReady.1 = false) (pt : Hook) : pump pt s = .ok false s.askReady.2 := by
  have hask : s.askReady = (false, s.askReady.2) := Prod.ext h rfl
  unfold pump
  rw [hask]

/-- The reset of the batch sent before, with its packet complete. -/
theorem resetSent_still (hp : Still pt) {s : State} (hq : s.quiet) (hf : s.inFlight = none)
    (hne : s.txPending = true → s.bbProduced ≠ s.bbConsumed) :
    (if s.txPending then
      (resetOldest pt s).bind fun _ s => (pt s).bind fun _ s => (pt { s with txPending := false })
     else .ok () s) = .ok () s.resetSent := by
  cases ht : s.txPending with
  | false => rw [if_neg Bool.false_ne_true, State.resetSent_idle ht]
  | true =>
    rw [if_pos rfl, resetOldest_still hp hq (hne ht), Res.bind_ok, hp.bind (by exact hq), hp _ (by exact hq)]
    simp only [State.resetSent, ht, hf, if_true, Option.map_none]

/-- What a ready transport leaves to the rest of the pump: the same batches, and nothing in flight. -/
theorem askReady_ready {s : State} (hq : s.quiet) (hr : s.askReady.1 = true) :
    ∃ t, s.askReady = (true, t) ∧ t.completeFlight.quiet ∧ t.completeFlight.inFlight = none ∧
      t.completeFlight.txPending = s.txPending ∧ t.completeFlight.bbProduced = s.bbProduced ∧
      t.completeFlight.bbConsumed = s.bbConsumed := by
  obtain ⟨_, _, hask⟩ := askReady_eq s
  have hcalm := completeFlight_calm (askReady_calm hq)
  refine ⟨s.askReady.2, Prod.ext hr rfl, hcalm.quiet, by rw [completeFlight_eq], ?_, ?_, ?_⟩ <;>
    rw [completeFlight_eq, hask]

/-- The transport is ready, and `BB.RESET` out of its domain (R135). -/
theorem pump_refused (hp : Still pt) {s : State} (hq : s.quiet) (hr : s.askReady.1 = true) (ht : s.txPending = true)
    (he : s.bbProduced = s.bbConsumed) : pump pt s = .refused .nothingOpened := by
  obtain ⟨t, hask, hquiet, -, htx, hproduced, hconsumed⟩ := askReady_ready hq hr
  unfold pump
  rw [hask]
  dsimp only
  rw [hp.bind hquiet, if_pos (htx.trans ht), resetOldest_nothing (hproduced.trans (he.trans hconsumed.symm))]
  rfl

/-- The transport is ready: after the reset of the batch sent before, the oldest ready batch is handed to it, where there
is one. -/
theorem pump_ready (hp : Still pt) {s u : State} (hq : s.quiet) (hr : s.askReady.1 = true)
    (hne : s.txPending = true → s.bbProduced ≠ s.bbConsumed) (hu : s.askReady.2.completeFlight.resetSent = u) :
    pump pt s =
      if u.bbProduced = u.bbConsumed ∨ (u.wlen[slotOf u.bbConsumed]).toNat ≤ 1 then .ok false { u with popped := none }
      else .ok true { u with
        bbProduced := if u.bbProduced = u.bbConsumed + 1 then u.bbProduced + 1 else u.bbProduced
        popped := some (slotOf u.bbConsumed, (u.wlen[slotOf u.bbConsumed]).toNat)
        tpTrace := u.tpTrace ++ [(slotOf u.bbConsumed, (u.wlen[slotOf u.bbConsumed]).toNat)]
        inFlight := some ⟨slotOf u.bbConsumed, (u.wlen[slotOf u.bbConsumed]).toNat, false⟩
        txPending := true } := by
  obtain ⟨t, hask, hquiet, hflight, htx, hproduced, hconsumed⟩ := askReady_ready hq hr
  have hopened : t.completeFlight.txPending = true → t.completeFlight.bbProduced ≠ t.completeFlight.bbConsumed := by
    rwa [htx, hproduced, hconsumed]
  rw [hask] at hu
  have hquiet' : u.quiet := hu ▸ hquiet
  unfold pump
  rw [hask]
  dsimp only at hu ⊢
  rw [hp.bind hquiet, resetSent_still hp hquiet hflight hopened, Res.bind_ok, hu, pop_still hp hquiet']
  split
  · rfl
  · rw [Res.bind_ok]
    dsimp only
    rw [hp.bind (by exact hquiet'), hp.bind (by exact hquiet')]
    rfl

/-- The two outcomes of an operation that answers. -/
theorem outcome_map_ite {α : Type} {f : α → OpResult} {c : Prop} [Decidable c] {a b : Res α} {s t : State}
    (ha : (a.map f).outcome = .next s) (hb : (b.map f).outcome = .next t) :
    ((if c then a else b).map f).outcome = .next (if c then s else t) := by
  split
  · exact ha
  · exact hb

/-- Settles O33: the three ways `UL.PUMP` goes, and what the packet in flight puts on the wire. -/
theorem pumpRule : Obligations.PumpRule := by
  intro s m
  have hp := point_still s.budget
  obtain ⟨answers, drawn, hask⟩ := askReady_eq s
  dsimp only
  refine ⟨fun hb => ?_, fun hr ht he => ?_, fun hr hne => ?_⟩
  · rw [exec_ulPump, runOp_main m, pump_busy hb]
    rfl
  · rw [exec_ulPump, runOp_main m, pump_refused hp m.quiet hr ht he]
    rfl
  · refine ⟨s.askReady.2.completeFlight.wire, s.askReady.2.completeFlight.draws, ?_, fun hf => ?_, fun f hf => ?_⟩
    · generalize hw : s.askReady.2.completeFlight.wire = wire
      generalize hd : s.askReady.2.completeFlight.draws = draws
      have hu : s.askReady.2.completeFlight.resetSent =
          ({ s with readyIn := answers, wire := wire, draws := draws, inFlight := none } : State).resetSent := by
        rw [completeFlight_eq, hw, hd, hask]
      rw [exec_ulPump, runOp_main m, pump_ready hp m.quiet hr hne hu, hask]
      exact outcome_map_ite rfl rfl
    · have hf' : s.askReady.2.inFlight = none := by rw [hask]; exact hf
      rw [completeFlight_none hf']
      exact ⟨by rw [hask], rfl⟩
    · have hf' : s.askReady.2.inFlight = some f := by rw [hask]; exact hf
      rw [completeFlight_some hf']
      refine ⟨rfl, s.askReady.2.packetOf f, by rw [hask], packetOf_length _ f, fun hd o b h1 h2 hb => ?_⟩
      have hb' : s.askReady.2.peekBatch f.slot o = b := peekBatch_written (by rw [hask]; exact hb)
      exact (packetOf_getElem hd h1 h2).trans (congrArg some hb')

end Sys2Proof.Machine
end

section
/-! SUPPORT. `FQ.ENQ`, `FQ.DEQ` and `FQ.FLUSH` as instructions of `Main` (41_frame_queue.md R161 to R163), and what a queue
holds from one to the next (R165). -/

namespace Sys2Proof.Machine

/-! The instructions in `Main`. -/

theorem exec_fqEnq_main {s : State} (m : s.MainTurn) (k : Chan) (build : Builder) (count : Nat) :
    exec (.fqEnq k build count) s = ((fqEnqueue k (runBuilder build) count s).map .bool).outcome := by
  rw [exec_fqEnq, runOp_main m]

theorem exec_fqDeq_main {s : State} (m : s.MainTurn) (k : Chan) (cb : Callback) (max : Nat) :
    exec (.fqDeq k cb max) s =
      ((fqDequeue k (runCallback k cb) max s).map fun r => .dequeued r.1 r.2).outcome := by
  rw [exec_fqDeq, runOp_main m]

/-- Settles O37: `fqFlushAll` as an instruction. -/
theorem flushRule : Obligations.FlushRule := by
  intro s k m
  rw [exec_fqFlush, runOp_main m]
  rfl

/-! `FQ.ENQ` (R161). -/

/-- No builder runs where there is no entry to build. -/
theorem fqEnqueue_none {s : State} {k : Chan} {count : Nat} (hc : 1 ≤ count) (hn : min count (s.fq.get k).free = 0)
    (build : Nat → State → Res Entry) : fqEnqueue k build count s = .ok false s := by
  rw [fqEnqueue, if_neg (Nat.ne_of_gt hc)]
  exact if_pos hn

/-- The entries that step E3 built are published by step E4. -/
theorem fqEnqueue_some {s t : State} {k : Chan} {build : Nat → State → Res Entry} {count : Nat}
    (hn : 1 ≤ min count (s.fq.get k).free)
    (ht : enqFill k build (s.fq.get k).produced (min count (s.fq.get k).free) 0 s = .ok () t) :
    fqEnqueue k build count s = .ok true (t.setFq k { t.fq.get k with
      produced := (s.fq.get k).produced + BitVec.ofNat Config.cursorBits (min count (s.fq.get k).free) }) := by
  rw [fqEnqueue, if_neg (by omega)]
  dsimp only
  rw [if_neg (Nat.ne_of_gt hn), ht, Res.bind_ok]

/-- A queue has no more free places than it has places (10_state.md R31). -/
theorem FrameQueue.free_le (q : FrameQueue) : q.free ≤ 16 := Nat.sub_le _ _

/-- Settles O34: what the entries are is `enqFill_entries`. -/
theorem enqueueRule : Obligations.EnqueueRule := by
  intro s k es count m
  dsimp only
  rw [exec_fqEnq_main m]
  refine ⟨fun hc => ?_, fun hc hn => ?_, fun _ hn => ?_⟩
  · subst hc
    rfl
  · rw [fqEnqueue_none hc hn]
    rfl
  · have hle := (s.fq.get k).free_le
    obtain ⟨sl, hfill, hnew, hother⟩ :=
      enqFill_entries k es (s.fq.get k).produced (min count (s.fq.get k).free) 0 s (by omega)
    rw [Nat.zero_add] at hnew hother
    refine ⟨sl, ?_, fun j hj hl hw => ?_, fun j hj hl => ?_, fun j hj _ => ?_, fun e he => ?_⟩
    · rw [fqEnqueue_some hn hfill]
      simp [State.setFq]
    · obtain ⟨e, hslot, -, hpub⟩ := hnew j (Nat.zero_le j) hj
      rw [hslot, (hpub hl).eq_of_wf hw]
    · obtain ⟨e, hslot, -, hpub⟩ := hnew j (Nat.zero_le j) hj
      exact ⟨e, hpub hl, hslot⟩
    · obtain ⟨e, hslot, hwf, -⟩ := hnew j (Nat.zero_le j) hj
      exact ⟨e, hwf, hslot⟩
    · exact hother e fun j _ hj => he j hj

/-- The builder `CAN.TXBUILD` finds the record at `dl.rd` (43_can_codec.md R213). -/
theorem runBuilder_txBuild {s : State} {f : CanFrame} (h : decCan s.packetRest = some f) (i : Nat) :
    runBuilder .txBuild i s = .ok (s.entryFor f) { s.drawn with dlRd := s.dlRd + f.size } := by
  show txBuild s = _
  rw [txBuild, h]
  rfl

/-- Settles O35: one call of the builder (`fqEnqueue_one`), which finds the record. -/
theorem enqueueRecord : Obligations.EnqueueRecord := by
  intro s k f m hf
  dsimp only
  rw [exec_fqEnq_main m, fqEnqueue_one]
  refine ⟨fun h0 => ?_, fun h1 => ?_⟩
  · rw [if_pos h0]
    rfl
  · rw [if_neg (Nat.ne_of_gt h1), runBuilder_txBuild hf]
    simp [State.putEntry, State.setFq, State.drawn]

/-! `FQ.DEQ` (R162). -/

/-- No callback runs where there is no entry to hand over. -/
theorem fqDequeue_none {s : State} {k : Chan} {max : Nat} (hn : min max (s.fq.get k).fill = 0)
    (cb : Entry → State → Res Unit) : fqDequeue k cb max s = .ok (false, []) s := by
  rw [fqDequeue]
  exact if_pos hn

/-- The entries that the callback took in step G3 leave their slots, and step G4 moves `consumed` past them. -/
theorem fqDequeue_some {s t : State} {k : Chan} {cb : Entry → State → Res Unit} {max : Nat} {es : List Entry}
    (hn : 1 ≤ min max (s.fq.get k).fill)
    (ht : deqTake k cb (s.fq.get k).consumed (min max (s.fq.get k).fill) 0 s = .ok es t) :
    let u := t.drawn.moveOut k (s.fq.get k).consumed (min max (s.fq.get k).fill)
    fqDequeue k cb max s = .ok (true, es) (u.setFq k { u.fq.get k with
      consumed := (s.fq.get k).consumed + BitVec.ofNat Config.cursorBits (min max (s.fq.get k).fill) }) := by
  rw [fqDequeue]
  dsimp only
  rw [if_neg (Nat.ne_of_gt hn), ht, Res.bind_ok]

/-- Settles O36: the entries are those `deqTake_collect` lists, and `moveOut_slots` says what is left of the slots. -/
theorem dequeueRule : Obligations.DequeueRule := by
  intro s k max m
  dsimp only
  rw [exec_fqDeq_main m]
  refine ⟨fun hn => ?_, fun hn => ?_⟩
  · rw [fqDequeue_none hn]
    rfl
  · obtain ⟨sl, hmove, hslots⟩ := moveOut_slots s.drawn k (s.fq.get k).consumed (min max (s.fq.get k).fill)
    refine ⟨sl, ?_, hslots⟩
    rw [fqDequeue_some hn (deqTake_collect k _ _ 0 s), hmove, List.range_eq_range']
    simp [State.setFq, State.drawn]

/-! What a queue holds (R165). -/

/-- The queued entries, oldest first, are `es` (10_state.md R31). -/
structure FrameQueue.Holds (q : FrameQueue) (es : List Entry) : Prop where
  fill  : es.length = q.fill
  fits  : es.length ≤ 16
  slots : ∀ j, ∀ h : j < es.length, q.slots[entryOf (q.consumed + BitVec.ofNat Config.cursorBits j)] = some es[j]

theorem FrameQueue.Holds.free {q : FrameQueue} {es : List Entry} (h : q.Holds es) : q.free = 16 - es.length := by
  rw [FrameQueue.free, h.fill]

/-- The place `j` past the newest entry is the place `es.length + j` from the oldest. -/
theorem FrameQueue.Holds.produced_add {q : FrameQueue} {es : List Entry} (h : q.Holds es) (j : Nat) :
    q.produced + BitVec.ofNat Config.cursorBits j =
      q.consumed + BitVec.ofNat Config.cursorBits (es.length + j) := by
  rw [BitVec.ofNat_add, ← BitVec.add_assoc, h.fill, FrameQueue.fill, cursor_add_distance]

/-- Entries published behind those held, in places that were free (R161). -/
theorem FrameQueue.Holds.append {q : FrameQueue} {old new : List Entry} {sl : Vector (Option Entry) Config.fqCapacity}
    (h : q.Holds old) (hroom : old.length + new.length ≤ 16)
    (hnew : ∀ j, ∀ hj : j < new.length, sl[entryOf (q.produced + BitVec.ofNat Config.cursorBits j)] = some new[j])
    (hother : ∀ e : Fin Config.fqCapacity,
      (∀ j < new.length, e ≠ entryOf (q.produced + BitVec.ofNat Config.cursorBits j)) → sl[e] = q.slots[e]) :
    FrameQueue.Holds ⟨sl, q.produced + BitVec.ofNat Config.cursorBits new.length, q.consumed⟩ (old ++ new) where
  fill := by
    have hfill : old.length = (q.produced - q.consumed).toNat := h.fill
    rw [List.length_append, hfill]
    exact (cursor_add_sub (by omega)).symm
  fits := by rwa [List.length_append]
  slots j hj := by
    rw [List.length_append] at hj
    by_cases hold : j < old.length
    · have hfree : ∀ i < new.length, entryOf (q.consumed + BitVec.ofNat Config.cursorBits j) ≠
          entryOf (q.produced + BitVec.ofNat Config.cursorBits i) := fun i hi e => by
        rw [h.produced_add] at e
        have := entryOf_add_inj (by omega) (by omega) e
        omega
      rw [hother _ hfree, h.slots j hold, List.getElem_append_left hold]
    · obtain ⟨i, rfl⟩ := Nat.exists_eq_add_of_le (Nat.le_of_not_lt hold)
      rw [entry_congr sl (h.produced_add i).symm, hnew i (by omega), List.getElem_append_right (by omega)]
      simp only [Nat.add_sub_cancel_left]

/-- The entries a queue holds are those its reader finds. -/
theorem FrameQueue.Holds.peek {s : State} {k : Chan} {es : List Entry} (h : (s.fq.get k).Holds es) :
    ((List.range es.length).map fun j =>
      s.peekEntry k ((s.fq.get k).consumed + BitVec.ofNat Config.cursorBits j)) = es := by
  refine List.ext_getElem (by simp) fun j _ hj => ?_
  rw [List.getElem_map, List.getElem_range, State.peekEntry, h.slots j hj]

/-- `FQ.ENQ` adds as many entries as find room behind those the queue holds (R161). -/
theorem exec_fqEnq_holds {s : State} {k : Chan} {old es : List Entry} (m : s.MainTurn) (h : (s.fq.get k).Holds old)
    (hes : 1 ≤ es.length) (hwf : ∀ e ∈ es.take (16 - old.length), e.wf = true) :
    ∃ t, exec (.fqEnq k (.entries es) es.length) s = .next t ∧ t.MainTurn ∧
      t.result = .bool (decide (old.length < 16)) ∧ (t.fq.get k).Holds (old ++ es.take (16 - old.length)) := by
  obtain ⟨-, hfull, hroom⟩ := enqueueRule s k es es.length m
  rw [h.free] at hfull hroom
  by_cases hlt : old.length < 16
  · obtain ⟨sl, hexec, hnew, -, -, hother⟩ := hroom hes (by omega)
    have hlen : (es.take (16 - old.length)).length = min es.length (16 - old.length) := by
      rw [List.length_take, Nat.min_comm]
    refine ⟨_, hexec, ⟨m.running, m.quiet, m.stack⟩, by rw [decide_eq_true hlt], ?_⟩
    dsimp only
    rw [PerChan.get_set_same, ← hlen]
    rw [← hlen] at hnew hother
    refine h.append (by omega) (fun j hj => ?_) hother
    have hw := hwf _ (List.getElem_mem hj)
    rw [List.getElem_take] at hw ⊢
    exact hnew j hj (by omega) hw
  · refine ⟨_, hfull hes (by omega), ⟨m.running, m.quiet, m.stack⟩, by rw [decide_eq_false hlt], ?_⟩
    rw [Nat.sub_eq_zero_of_le (Nat.le_of_not_lt hlt), List.take_zero, List.append_nil]
    exact h

/-- `FQ.DEQ` with a budget that covers the queue hands over all it holds and leaves it empty (R162). -/
theorem exec_fqDeq_holds {s : State} {k : Chan} {es : List Entry} {max : Nat} (m : s.MainTurn)
    (h : (s.fq.get k).Holds es) (hes : 1 ≤ es.length) (hmax : es.length ≤ max) :
    ∃ u, exec (.fqDeq k .collect max) s = .next u ∧ u.result = .dequeued true es ∧ (u.fq.get k).fill = 0 := by
  have hn : min max (s.fq.get k).fill = es.length := by rw [← h.fill, Nat.min_eq_right hmax]
  obtain ⟨-, htake⟩ := dequeueRule s k max m
  rw [hn] at htake
  obtain ⟨sl, hexec, -⟩ := htake hes
  refine ⟨_, hexec, by rw [h.peek], ?_⟩
  dsimp only
  rw [PerChan.get_set_same, FrameQueue.fill, cursor_sub_add (le_of_eq h.fill)]
  exact Nat.sub_eq_zero_of_le (le_of_eq h.fill.symm)

/-- Settles O38: the queue holds `old`, after `FQ.ENQ` `old` and the entries that found room, and `FQ.DEQ` hands these over. -/
theorem queueFifo : Obligations.QueueFifo := by
  intro s k old es max m
  refine ⟨fun hfill hfits hslots hes hwf hmax => ?_, fun cb => ?_⟩
  · obtain ⟨t, henq, mt, hresult, hholds⟩ := exec_fqEnq_holds m ⟨hfill, hfits, hslots⟩ hes hwf
    have hsome : 1 ≤ (old ++ es.take (16 - old.length)).length := by
      rw [List.length_append, List.length_take]
      omega
    obtain ⟨u, hdeq, hout, hempty⟩ := exec_fqDeq_holds mt hholds hsome (hholds.fits.trans hmax)
    exact ⟨t, u, henq, hresult, hdeq, hout, hempty⟩
  · rw [exec_fqDeq_main m, fqDequeue_none (Nat.zero_min _)]
    rfl

end Sys2Proof.Machine
end

section
/-! SUPPORT. `enc_can` and `dec_can` field by field (42_wire_framing.md R187 to R189), and the uplink records that `BB.ALLOC`
grants or drops (R181, R182). -/

namespace Sys2Proof

/-! `enc_can` (R188). -/

/-- The payload that `enc_can` writes: none of a remote frame (30_encoding.md R100). -/
def CanFrame.sent (f : CanFrame) : Payload := if f.rtr then .empty else f.data

theorem encCan_eq (sid : BitVec 4) (f : CanFrame) : encCan sid f = canBytes sid { f with data := f.sent } := rfl

/-- `has_data` of an uplink record. -/
theorem CanFrame.sent_hasData (f : CanFrame) :
    (!f.sent.bytes.isEmpty) = (!f.rtr && decide (0 < f.data.bytes.length)) := by
  unfold CanFrame.sent
  cases f.rtr with
  | true => rfl
  | false => cases h : f.data.bytes <;> simp [h]

/-- The bytes of that payload, by the bit that says whether there are any. -/
theorem CanFrame.sent_bytes (f : CanFrame) :
    f.sent.bytes = if !f.rtr && decide (0 < f.data.bytes.length) then f.data.bytes else [] := by
  unfold CanFrame.sent
  cases f.rtr with
  | true => rfl
  | false => cases h : f.data.bytes <;> simp [h]

/-- `lenf` of an uplink record (30_encoding.md R99). -/
theorem CanFrame.sent_lenf (f : CanFrame) :
    f.sent.bytes.length - 1 =
      if !f.rtr && decide (0 < f.data.bytes.length) then f.data.bytes.length - 1 else 0 := by
  rw [CanFrame.sent_bytes]
  split <;> rfl

/-- The length field of at most 8 data bytes, in a word of another width. -/
theorem lenField_setWidth (w : Nat) (data : Payload) :
    (lenField data.bytes).setWidth w = BitVec.ofNat w (data.bytes.length - 1) := by
  have hfits : data.bytes.length ≤ 8 := data.fits
  apply BitVec.eq_of_toNat_eq
  simp only [lenField, Config.lenBits, BitVec.toNat_setWidth, BitVec.toNat_ofNat]
  rw [Nat.mod_eq_of_lt (show data.bytes.length - 1 < 2 ^ 3 by omega)]

/-- Settles O8: the header is `canHeader_eq`, the id field `stdField_eq` or `extField_eq`. -/
theorem encCanRule : Obligations.EncCanRule := by
  intro sid f _ _
  dsimp only
  rw [encCan_eq, canBytes, ← CanFrame.sent_bytes, ← CanFrame.sent_lenf, ← CanFrame.sent_hasData, canHeader_eq]
  cases hid : f.id with
  | std id =>
    simp only [CanId.isExt, CanId.bits, stdField_eq, lenField_setWidth, Bool.false_eq_true,
      if_false]
    rw [BitVec.setWidth_setWidth_of_le _ (by decide : 16 ≤ Config.extIdBits)]
  | ext id =>
    simp only [CanId.isExt, CanId.bits, extField_eq, lenField_setWidth, if_true]

/-- Settles O10: `dec_can` reads what was written, which of a remote frame is the frame without its payload. -/
theorem canRoundTrip : Obligations.CanRoundTrip := by
  intro sid f _ _
  have hread : decCan (encCan sid f) = some { f with data := f.sent } := by
    rw [encCan_eq, ← List.append_nil (canBytes sid _), decCan_canBytes]
  refine ⟨fun h => ?_, fun h => ?_⟩
  · rw [hread, show f.sent = f.data by rw [CanFrame.sent, h]; rfl]
  · rw [hread, show f.sent = .empty by rw [CanFrame.sent, h]; rfl]

end Sys2Proof

namespace Sys2Proof.Machine

/-! `dec_can` (R189). -/

/-- A payload that runs past the end. -/
theorem withPayload_short {rtr hasData : Bool} {id : CanId} {lenf : LenField} {p : List Byte}
    (h : p.length < dataLen hasData lenf) : withPayload rtr hasData id lenf p = none := if_pos h

/-- A payload that is there. -/
theorem withPayload_whole {rtr hasData : Bool} {id : CanId} {lenf : LenField} {p : List Byte}
    (h : dataLen hasData lenf ≤ p.length) :
    ∃ f, withPayload rtr hasData id lenf p = some f ∧ f.rtr = rtr ∧ f.id = id ∧
      f.data.bytes = p.take (dataLen hasData lenf) ∧ f.data.bytes.length = dataLen hasData lenf := by
  refine ⟨_, if_neg (Nat.not_lt.2 h), rfl, rfl, rfl, ?_⟩
  exact List.length_take_of_le h

/-- There are data bytes exactly where `has_data` says so (30_encoding.md R99). -/
theorem isEmpty_of_length_dataLen {hasData : Bool} {lenf : LenField} {l : List Byte}
    (h : l.length = dataLen hasData lenf) : l.isEmpty = !hasData := by
  cases hasData <;> cases l <;> simp_all [dataLen]

/-- `dec_can` of an extended record: the id field, then the payload. -/
theorem decCan_extended {bs : List Byte} (h : (bs.getD 0 0).getLsbD 4 = true) :
    decCan bs = if bs.length < 1 + 4 then none else
      let v := le32 (bs.getD 1 0) (bs.getD 2 0) (bs.getD 3 0) (bs.getD 4 0)
      withPayload ((bs.getD 0 0).getLsbD 5) ((bs.getD 0 0).getLsbD 6) (.ext (v.extractLsb' 0 29)) (v.extractLsb' 29 3)
        (bs.drop (1 + 4)) := by
  match bs with
  | [] => rfl
  | [h0] | [h0, _] | [h0, _, _] | [h0, _, _, _] =>
    rw [List.getD_cons_zero] at h
    rw [if_pos (by simp)]
    simp only [decCan, h, if_true]
  | h0 :: b1 :: b2 :: b3 :: b4 :: p =>
    rw [List.getD_cons_zero] at h
    rw [if_neg (by simp)]
    simp only [decCan, h, if_true, List.getD_cons_zero, List.getD_cons_succ]
    rfl

/-- `dec_can` of a standard record. -/
theorem decCan_standard {bs : List Byte} (h : (bs.getD 0 0).getLsbD 4 = false) :
    decCan bs = if bs.length < 1 + 2 then none else
      let v := le16 (bs.getD 1 0) (bs.getD 2 0)
      withPayload ((bs.getD 0 0).getLsbD 5) ((bs.getD 0 0).getLsbD 6) (.std (v.extractLsb' 0 11)) (v.extractLsb' 11 3)
        (bs.drop (1 + 2)) := by
  match bs with
  | [] => rfl
  | [h0] | [h0, _] =>
    rw [List.getD_cons_zero] at h
    rw [if_pos (by simp)]
    simp only [decCan, h, Bool.false_eq_true, if_false]
  | h0 :: b1 :: b2 :: p =>
    rw [List.getD_cons_zero] at h
    rw [if_neg (by simp)]
    simp only [decCan, h, Bool.false_eq_true, if_false, List.getD_cons_zero, List.getD_cons_succ]
    rfl

/-- The cases of `dec_can` for either kind of id: no id field, no payload, a whole record. -/
theorem decCan_cases {bs : List Byte} {rtr hasData : Bool} {id : CanId} {lenf : LenField} {idlen : Nat}
    (hid : idlen = if id.isExt then 4 else 2)
    (h : decCan bs = if bs.length < 1 + idlen then none else withPayload rtr hasData id lenf (bs.drop (1 + idlen))) :
    (bs.length < 1 + idlen → decCan bs = none) ∧
    (1 + idlen ≤ bs.length → bs.length < 1 + idlen + dataLen hasData lenf → decCan bs = none) ∧
    (1 + idlen + dataLen hasData lenf ≤ bs.length →
      ∃ f, decCan bs = some f ∧ f.rtr = rtr ∧ f.id = id ∧
        f.data.bytes = (bs.drop (1 + idlen)).take (dataLen hasData lenf) ∧
        f.data.bytes.length = dataLen hasData lenf ∧ f.size = 1 + idlen + dataLen hasData lenf ∧
        f.data.bytes.isEmpty = !hasData) := by
  refine ⟨fun hlt => h.trans (if_pos hlt), fun hle hlt => ?_, fun hle => ?_⟩
  · rw [h, if_neg (Nat.not_lt.2 hle), withPayload_short (by rw [List.length_drop]; omega)]
  · rw [h, if_neg (by omega)]
    obtain ⟨f, hf, hrtr, hfid, hbytes, hlen⟩ := withPayload_whole (rtr := rtr) (hasData := hasData) (id := id)
      (lenf := lenf) (p := bs.drop (1 + idlen)) (by rw [List.length_drop]; omega)
    refine ⟨f, hf, hrtr, hfid, hbytes, hlen, ?_, isEmpty_of_length_dataLen hlen⟩
    rw [CanFrame.size, CanFrame.idLen_eq hfid, hlen, hid]

/-- Settles O9: `decCan_cases` for the id field that the `ext` bit selects. -/
theorem decCanRule : Obligations.DecCanRule := by
  intro bs
  dsimp only
  cases h : (bs.getD 0 0).getLsbD 4 with
  | true => exact decCan_cases rfl (decCan_extended h)
  | false => exact decCan_cases rfl (decCan_standard h)

/-! Uplink records (R181, R182). -/

/-- The size of a CAN record is not 0 (30_encoding.md R101). -/
theorem CanFrame.size_pos (f : CanFrame) : 1 ≤ f.size := by
  rw [CanFrame.size]
  omega

/-- What an admitted instruction emits fits an empty batch (30_encoding.md R101; 42_wire_framing.md R182). -/
theorem emittedBytes_length {i : Instr} {bs : List Byte} (hwf : i.wf = true) (h : emittedBytes i = some bs) :
    1 ≤ bs.length ∧ bs.length ≤ Config.batchPayloadMax := by
  have record : ∀ {j : Instr}, Laws.RecordLength.Statement j → j.wf = true → encode j = some bs →
      1 ≤ bs.length ∧ bs.length ≤ Config.batchPayloadMax := fun hj hw he => by
    obtain ⟨hmin, hmax, -⟩ := hj hw bs he
    exact ⟨hmin, hmax⟩
  cases i with
  | uCtrl hi rest => exact record (Laws.RecordLength.uCtrl hi rest) hwf h
  | uGpio hi rest => exact record (Laws.RecordLength.uGpio hi rest) hwf h
  | uCan1Std rtr id data => exact record (Laws.RecordLength.uCan1Std rtr id data) hwf h
  | uCan1Ext rtr id data => exact record (Laws.RecordLength.uCan1Ext rtr id data) hwf h
  | uCan2Std rtr id data => exact record (Laws.RecordLength.uCan2Std rtr id data) hwf h
  | uCan2Ext rtr id data => exact record (Laws.RecordLength.uCan2Ext rtr id data) hwf h
  | uCan3Std rtr id data => exact record (Laws.RecordLength.uCan3Std rtr id data) hwf h
  | uCan3Ext rtr id data => exact record (Laws.RecordLength.uCan3Ext rtr id data) hwf h
  | uUart1 hi rest => exact record (Laws.RecordLength.uUart1 hi rest) hwf h
  | uUart2 hi rest => exact record (Laws.RecordLength.uUart2 hi rest) hwf h
  | uUart3 hi rest => exact record (Laws.RecordLength.uUart3 hi rest) hwf h
  | uUart4 hi rest => exact record (Laws.RecordLength.uUart4 hi rest) hwf h
  | uUart5 hi rest => exact record (Laws.RecordLength.uUart5 hi rest) hwf h
  | uUart6 hi rest => exact record (Laws.RecordLength.uUart6 hi rest) hwf h
  | uSensor hi rest => exact record (Laws.RecordLength.uSensor hi rest) hwf h
  | ulCan k ext rtr id data =>
    obtain rfl : encCan k.sid ⟨rtr, .of ext id, data⟩ = bs := Option.some.inj h
    rw [encCan_eq, Laws.RecordLength.canBytes_length]
    exact ⟨CanFrame.size_pos _, (Laws.RecordLength.size_le _).trans (by decide)⟩
  | _ => exact nomatch h

/-- An instruction that emits bytes, run by an agent that produces their source, is the emission (R181, R182). -/
theorem exec_emits {s : State} {i : Instr} {bs : List Byte} (m : s.HandlerTurn) (h : emittedBytes i = some bs)
    (hsid : emits s.running (headerSid (bs.getD 0 0)) = true) :
    exec i s = ((emit (point s.budget) bs s).map emitResult).outcome := by
  rw [exec_producer_running (emittedBytes_producer h) m.running, producerOp_emits h,
    inInterruptContext_handler m.context, asProducerOf, if_pos hsid]

/-- A record that `BB.ALLOC` granted bytes for: they are written, and every other byte of the batches reads as before. -/
theorem exec_emits_written {s t : State} {i : Instr} {bs : List Byte} {slot : Slot} {off : Nat} (m : s.HandlerTurn)
    (h : emittedBytes i = some bs) (hsid : emits s.running (headerSid (bs.getD 0 0)) = true)
    (halloc : alloc (point s.budget) bs.length s = .ok (some (slot, off)) t) (hq : t.quiet)
    (hwf : Memory.wf .batch t.batch = true) :
    ∃ b, exec i s = .next { t with batch := b, result := .written } ∧
      ∀ a, Memory.read .batch b a =
        if batchAddr slot off ≤ a ∧ a < batchAddr slot off + bs.length then
          some (bs.getD (a - batchAddr slot off) 0)
        else Memory.read .batch t.batch a := by
  refine ⟨(t.pokes slot off bs).batch, ?_, (t.pokes_read slot off bs hwf).2⟩
  rw [exec_emits m h hsid, emit_written (point_still _) halloc hq]
  exact congrArg (fun u : State => Host.Outcome.next { u with result := OpResult.written }) (t.pokes_eq slot off bs)

/-- Settles O24: the grant is `alloc_appends`. -/
theorem emitAppends : Obligations.EmitAppends := by
  intro s i bs m hwf h hsid hmem hroom
  obtain ⟨h1, h2⟩ := emittedBytes_length hwf h
  exact exec_emits_written m h hsid (alloc_appends (point_still _) m.quiet h1 h2 hroom) m.quiet hmem

/-- Settles O25: the grant is `alloc_opens`. -/
theorem emitOpens : Obligations.EmitOpens := by
  intro s i bs m hwf h hsid hmem hroom hfull hempty
  obtain ⟨h1, h2⟩ := emittedBytes_length hwf h
  exact exec_emits_written m h hsid (alloc_opens (point_still _) m.quiet h1 h2 hroom hfull hempty) m.quiet hmem

/-- Settles O26: no grant, by `alloc_fails`. -/
theorem emitDrops : Obligations.EmitDrops := by
  intro s i bs m hwf h hsid hroom hfull
  obtain ⟨h1, h2⟩ := emittedBytes_length hwf h
  rw [exec_emits m h hsid, emit_dropped (alloc_fails (point_still _) m.quiet h1 h2 hroom hfull)]
  rfl

end Sys2Proof.Machine
end

section
/-! SUPPORT. The downlink records as instructions of `Main` (42_wire_framing.md R183 to R186), and `DL.DECODE` as the record
at `dl.rd` and the rest. -/

namespace Sys2Proof.Machine

variable {pt pt' : Hook}

/-! Where a record runs. -/

/-- A downlink record is the pass of `DL.DECODE`'s loop that its handler makes (R183). -/
theorem exec_record {i : Instr} {s : State} (m : s.MainTurn) (hi : downlinkRecord i = true) (hrd : s.dlRd < s.dlLen) :
    exec i s = ((runRecord (point s.budget) s i).map fun _ => .done).outcome := by
  rw [exec_downlink hi, runDownlink, runOp_main m, if_pos hrd]

/-- The CAN records of controller `k` run `DL.CAN(k)` (R183, R185). -/
theorem runRecord_downlinkCan (k : Chan) (f : CanFrame) (s : State) :
    runRecord pt s (downlinkCan k f) = downlinkFrame pt k f s := by
  obtain ⟨rtr, id, data⟩ := f
  cases k <;> cases id <;> rfl

theorem downlinkRecord_downlinkCan (k : Chan) (f : CanFrame) : downlinkRecord (downlinkCan k f) = true := by
  obtain ⟨rtr, id, data⟩ := f
  cases k <;> cases id <;> rfl

/-- The records of an out-of-scope destination run `DL.EXT` (R183, R186). -/
theorem runRecord_external {i : Instr} {sid : BitVec 4} (h : externalSid i = some sid) (s : State) :
    runRecord pt s i = external sid s := by
  cases i with
  | dGpio | dUart1 | dUart2 | dUart3 | dUart4 | dUart5 | dUart6 | dLed | dBuzzer =>
    cases h
    rfl
  | _ => exact nomatch h

theorem downlinkRecord_external {i : Instr} {sid : BitVec 4} (h : externalSid i = some sid) : downlinkRecord i = true := by
  cases i with
  | dGpio | dUart1 | dUart2 | dUart3 | dUart4 | dUart5 | dUart6 | dLed | dBuzzer => rfl
  | _ => exact nomatch h

/-! `DL.CAN` (R185). -/

/-- `DL.CAN` unpreempted: a record that runs past the packet is fatal, one that finds the queue full is lost, any other is
enqueued. -/
theorem downlinkFrame_still (hp : Still pt) (k : Chan) (f : CanFrame) {s : State} (hq : s.quiet) :
    downlinkFrame pt k f s =
      if s.dlLen < s.dlRd + f.size then .halt (s.raiseFatal 3 (.rd s.dlRd))
      else if (s.fq.get k).free = 0 then .ok () { s with
        downlinkCongested := true
        diagTrace := s.diagTrace ++ [.downlinkCongestion]
        dlRd := s.dlRd + f.size
        draws := s.draws + 1 }
      else .ok () { s with
        fq := s.fq.set k ⟨(s.fq.get k).slots.set (entryOf (s.fq.get k).produced) (some (s.entryFor f)),
          (s.fq.get k).produced + 1, (s.fq.get k).consumed⟩
        dlRd := s.dlRd + f.size
        draws := s.draws + 1 } := by
  unfold downlinkFrame
  split
  · rfl
  · rw [hp.bind hq, fqEnqueue_one]
    split
    · rw [Res.bind_ok, hp.bind hq, if_neg Bool.false_ne_true, downlinkCongestion, Res.bind_assoc,
        hp.bind (s := s.signal .downlinkCongestion) hq, Res.bind_ok,
        hp.bind (s := (s.signal .downlinkCongestion).downlinkFlag true) hq]
      rfl
    · simp only [txBuildFrame, Res.bind_ok]
      rw [hp.bind (by exact hq), if_pos trivial]
      simp [State.putEntry, State.setFq, State.drawn]

/-- Settles O39: `downlinkFrame_still` for a record that lies in the packet. -/
theorem canRecordRule : Obligations.CanRecordRule := by
  intro s k f m hfit
  have hsize := CanFrame.size_pos f
  have hexec : exec (downlinkCan k f) s = ((downlinkFrame (point s.budget) k f s).map fun _ => .done).outcome := by
    rw [exec_record m (downlinkRecord_downlinkCan k f) (by omega), runRecord_downlinkCan]
  rw [downlinkFrame_still (point_still _) k f m.quiet, if_neg (Nat.not_lt.2 hfit)] at hexec
  refine ⟨fun hfree => ?_, fun hfull => ?_⟩
  · rw [hexec, if_neg (Nat.ne_of_gt hfree)]
    rfl
  · rw [hexec, if_pos hfull]
    rfl

/-- Bytes that are no whole record are not none (R185 step 2). -/
theorem rd_lt_of_truncated {s : State} (h : decode s.packetRest = .error .truncated) : s.dlRd < s.dlLen := by
  by_contra hle
  have hnil : s.packetRest = [] := List.eq_nil_of_length_eq_zero (by rw [packetRest_length]; omega)
  rw [hnil] at h
  exact nomatch h

/-- At the head of its loop `Main` enters the fatal halt where there is no whole record at `dl.rd` (R185 step 2). -/
theorem mainStep_noRecord {s : State} {e : DecodeError} (hp : s.phase = .decode) (hrd : s.dlRd < s.dlLen)
    (he : decode s.packetRest = .error e) : mainStep s = .next (s.raiseFatal 3 (.rd s.dlRd)) := by
  unfold mainStep
  rw [hp]
  dsimp only
  rw [if_pos hrd, he]

/-- Settles O41: the fatal entry is `DL.CAN`'s first step, and that of a step that decodes no whole record. -/
theorem truncatedRecordHalts : Obligations.TruncatedRecordHalts := by
  refine ⟨fun s k f m hrd hpast => ?_, fun s m hcalls hphase hrd hdec => ?_⟩
  · refine exec_downlink_halts (downlinkRecord_downlinkCan k f) m.running m.stack hrd fun pt => ?_
    rw [runRecord_downlinkCan, downlinkFrame, if_pos hpast]
    rfl
  · rw [step_main m hcalls, mainStep_noRecord hphase hrd hdec]
    rfl

/-! Domains. -/

/-- A downlink record where the packet has no byte left (R183; log entry 26). -/
theorem exec_downlink_noRecord {i : Instr} {s : State} (hi : downlinkRecord i = true) (hh : s.halted = false)
    (hs : s.stack = []) (hrd : s.dlLen ≤ s.dlRd) : exec i s = .refused .noRecord := by
  rw [exec_downlink hi, runDownlink, runOp_running hh, inMainContext, inInterrupt_main hs, if_neg Bool.false_ne_true,
    if_neg (Nat.not_lt.2 hrd), Res.outcome_refused]

/-- `FQ.ENQ` whose first entry the builder refuses (41_frame_queue.md R161). -/
theorem fqEnqueue_refused {s : State} {k : Chan} {build : Nat → State → Res Entry} {count : Nat} {e : Refusal}
    (hc : 1 ≤ count) (hfree : 1 ≤ (s.fq.get k).free) (h : build 0 s = .refused e) :
    fqEnqueue k build count s = .refused e := by
  obtain ⟨n, hn⟩ : ∃ n, min count (s.fq.get k).free = n + 1 := Nat.exists_eq_add_of_le' (by omega)
  rw [fqEnqueue, if_neg (by omega)]
  dsimp only
  rw [hn, if_neg (Nat.succ_ne_zero n), enqFill, h]
  rfl

/-- `CAN.TXBUILD` where `dl.rd` is at no whole record (43_can_codec.md R213). -/
theorem runBuilder_noRecord {s : State} (h : decCan s.packetRest = none) (i : Nat) :
    runBuilder .txBuild i s = .refused .noRecordToBuild := by
  show txBuild s = _
  rw [txBuild, h]

/-- Settles O40: the refusals lie before any preemption point, and `control` of command 0 is `connect`. -/
theorem downlinkDomains : Obligations.DownlinkDomains := by
  intro s hh hs
  refine ⟨fun i hi hrd => exec_downlink_noRecord hi hh hs hrd, ?_, fun k count hc hfree hdec => ?_⟩
  · have hzero : ∀ pt, runRecord pt s (.dCtrlReserved 0) = runRecord pt s .dCtrlConnect := fun pt =>
      show control pt 0 s = connect pt s from if_neg fun h => h rfl
    rw [exec_downlink rfl, exec_downlink rfl, runDownlink, runDownlink, runOp_running hh, runOp_running hh, hzero]
  · rw [exec_fqEnq, runOp_running hh, inMainContext, inInterrupt_main hs, if_neg Bool.false_ne_true,
      fqEnqueue_refused hc hfree (runBuilder_noRecord hdec 0)]
    rfl

/-! The connect command (R184). -/

/-- Settles O42: `connect_still`. -/
theorem connectRule : Obligations.ConnectRule := by
  intro s m hrd
  obtain ⟨t, hdiscard, -, hconnect⟩ := connect_still (point_still s.budget) m.quiet
  refine ⟨{ t with result := .done }, ?_, ?_⟩
  · rw [exec_bbDiscardAll, runOp_main m, hdiscard]
    rfl
  · rw [exec_record m rfl hrd, runRecord, hconnect]
    rfl

/-! Records of an out-of-scope destination (R186). -/

/-- The answer of `EXT_DECODE` from State, or where it holds none from the parameter. -/
theorem askExtLen_eq {s : State} {sid : BitVec 4} {n : Nat} {answers : List Nat}
    (h : s.extLenIn = n :: answers ∨
      s.extLenIn = [] ∧ answers = [] ∧ n = Config.extDecode sid s.packet s.dlRd s.dlLen) :
    s.askExtLen sid = (n, { s with extLenIn := answers }) := by
  unfold State.askExtLen
  rcases h with hsome | ⟨hnone, rfl, rfl⟩
  · rw [hsome]
  · have hs : { s with extLenIn := [] } = s := by rw [← hnone]
    rw [hs, hnone]

/-- Settles O44: `DL.EXT` of the answer, within what is left of the packet or not. -/
theorem externalRule : Obligations.ExternalRule := by
  intro s i sid n answers hi m hrd hn
  have hexec : exec i s = ((external sid s).map fun _ => .done).outcome := by
    rw [exec_record m (downlinkRecord_external hi) hrd, runRecord_external hi]
  rw [external, askExtLen_eq hn] at hexec
  dsimp only at hexec
  refine ⟨fun h1 hle => ?_, fun hbad => ?_⟩
  · rw [hexec, if_pos ⟨h1, hle⟩]
    rfl
  · rw [hexec, if_neg (by omega)]
    rfl

/-! Unpreempted, a pass does not depend on the preemption point. -/

/-- The rounds that `BB.DISCARD_ALL` may take are more than there are batches that hold data (40_batch_buffer.md R141). -/
theorem filled_card_lt (s : State) : (filled s.wlen).card < s.budget * (Config.batchCount + 1) + Config.batchCount + 2 := by
  have h := Finset.card_le_univ (filled s.wlen)
  simp only [Config.batchCount, Fintype.card_fin] at *
  omega

theorem discardRounds_hook (hp : Still pt) (hp' : Still pt') (n : Nat) {s : State} (hq : s.quiet) :
    discardRounds pt n s = discardRounds pt' n s := by
  induction n generalizing s with
  | zero => rfl
  | succ n ih =>
    by_cases hd : s.discardDone
    · rw [(discardRounds_succ hp n hq).1 hd, (discardRounds_succ hp' n hq).1 hd]
    · rw [(discardRounds_succ hp n hq).2 hd, (discardRounds_succ hp' n hq).2 hd]
      exact ih (s := s.discardOldest) hq

theorem discardAll_hook (hp : Still pt) (hp' : Still pt') {s : State} (hq : s.quiet) :
    discardAll pt s = discardAll pt' s := by
  obtain ⟨t, ht, hcalm, -⟩ := discardRounds_completes hp _ hq (filled_card_lt s)
  rw [discardAll, discardAll, ← discardRounds_hook hp hp' _ hq, ht, Res.bind_ok, Res.bind_ok, hp.bind hcalm.quiet,
    hp'.bind hcalm.quiet]

theorem connect_hook (hp : Still pt) (hp' : Still pt') {s : State} (hq : s.quiet) : connect pt s = connect pt' s := by
  obtain ⟨t, ht, -, hconnect⟩ := connect_still hp hq
  obtain ⟨t', ht', -, hconnect'⟩ := connect_still hp' hq
  rw [discardAll_hook hp hp' hq] at ht
  cases ht.symm.trans ht'
  rw [hconnect, hconnect']

theorem downlinkFrame_hook (hp : Still pt) (hp' : Still pt') (k : Chan) (f : CanFrame) {s : State} (hq : s.quiet) :
    downlinkFrame pt k f s = downlinkFrame pt' k f s := by
  rw [downlinkFrame_still hp k f hq, downlinkFrame_still hp' k f hq]

/-- The handler of a record: only connect and `DL.CAN` have preemption points. -/
theorem runRecord_hook (hp : Still pt) (hp' : Still pt') {s : State} (hq : s.quiet) (i : Instr) :
    runRecord pt s i = runRecord pt' s i := by
  cases i with
  | dCtrlConnect => exact connect_hook hp hp' hq
  | dCtrlReserved cmd =>
    show control pt cmd s = control pt' cmd s
    rw [control, control, connect_hook hp hp' hq]
  | dCan1Std | dCan1Ext | dCan2Std | dCan2Ext | dCan3Std | dCan3Ext => exact downlinkFrame_hook hp hp' _ _ hq
  | _ => rfl

theorem decodeOne_hook (hp : Still pt) (hp' : Still pt') {s : State} (hq : s.quiet) : decodeOne pt s = decodeOne pt' s := by
  simp only [decodeOne, runRecord_hook hp hp' hq]

/-! `DL.DECODE` (R183). -/

/-- `DL.DECODE` as an instruction. -/
theorem exec_dlDecode_main {s : State} (m : s.MainTurn) :
    exec .dlDecode s = ((decodePacket (point s.budget) s).map fun _ => .done).outcome := by
  rw [exec_dlDecode, runOp_main m]

/-- `DL.DECODE` is one pass and `DL.DECODE` again. -/
theorem decodePacket_step (hp : Still pt) {s : State} (hq : s.quiet) (hrd : s.dlRd < s.dlLen) :
    decodePacket pt s = (decodeOne pt s).bind fun _ t => decodePacket (point t.budget) t := by
  have hcovers := packetBudget_covers s
  obtain ⟨n, hn⟩ : ∃ n, s.packetBudget = n + 1 := Nat.exists_eq_add_of_le' (by omega)
  have hadv := decodeOne_advances hp hq hrd
  rw [decodePacket, hn, decodeLoop, if_pos hrd]
  cases h : decodeOne pt s with
  | ok a t =>
    rw [h] at hadv
    obtain ⟨hcalm, hlt, -⟩ := hadv
    have hlen := hcalm.dlLen
    rw [Res.bind_ok, Res.bind_ok, hp.bind hcalm.quiet]
    exact decodeLoop_fuel hp (point_still _) n t.packetBudget hcalm.quiet (by omega) (packetBudget_covers t)
      fun u hu => decodeOne_hook hp (point_still _) hu
  | halt t => rfl
  | fault e => rw [h] at hadv; exact hadv.elim
  | refused e => rw [h] at hadv; exact hadv.elim

/-- Settles O45: `decodeLoop_completes` within the bound that covers the packet. -/
theorem decodeEndsPacket : Obligations.DecodeEndsPacket := by
  intro s m hle
  rw [exec_dlDecode_main m]
  rcases decodeLoop_completes (point_still s.budget) s.packetBudget m.quiet hle (packetBudget_covers s) with
    ⟨t, ht, -, hend⟩ | ⟨t, ht, hhalt⟩
  · refine ⟨{ t with result := .done }, ?_, fun _ => ⟨hend, rfl⟩⟩
    rw [decodePacket, ht]
    rfl
  · refine ⟨t, ?_, fun hrun => absurd (hhalt.symm.trans hrun) (by decide)⟩
    rw [decodePacket, ht]
    rfl

/-- A calm operation leaves `Main` its turn. -/
theorem Calm.mainTurn {s t : State} (c : Calm s t) (m : s.MainTurn) : t.MainTurn :=
  ⟨c.halted.trans m.running, c.quiet, c.stack.trans m.stack⟩

/-- `DL.DECODE` of a record: the record's own outcome, and where it does not halt, `DL.DECODE` again. -/
theorem exec_dlDecode_record {s : State} {i : Instr} (m : s.MainTurn) (hrd : s.dlRd < s.dlLen)
    (hi : decode s.packetRest = .ok i) :
    (∃ t, Calm s t ∧ exec i s = .next { t with result := .done } ∧ exec .dlDecode s = exec .dlDecode t) ∨
      ∃ t, t.halted = true ∧ exec i s = .next t ∧ exec .dlDecode s = .next t := by
  have hp := point_still s.budget
  have hone : decodeOne (point s.budget) s = runRecord (point s.budget) s i := by rw [decodeOne, hi]
  have hadv := runRecord_advances hp m.quiet hrd hi
  rw [exec_record m (decode_downlink hi) hrd, exec_dlDecode_main m, decodePacket_step hp m.quiet hrd, hone]
  cases h : runRecord (point s.budget) s i with
  | ok a t =>
    rw [h] at hadv
    obtain ⟨hcalm, -⟩ := hadv
    exact .inl ⟨t, hcalm, rfl, (exec_dlDecode_main (hcalm.mainTurn m)).symm⟩
  | halt t =>
    rw [h] at hadv
    exact .inr ⟨t, hadv, rfl, rfl⟩
  | fault e => rw [h] at hadv; exact hadv.elim
  | refused e => rw [h] at hadv; exact hadv.elim

/-- Settles O46: nothing left (`decodeLoop_done`), no whole record, or a record and the rest (`exec_dlDecode_record`). -/
theorem decodeUnrolls : Obligations.DecodeUnrolls := by
  intro s m
  refine ⟨fun hle => ?_, fun htrunc => ?_, fun i hrd hi => ?_⟩
  · rw [exec_dlDecode_main m, decodePacket, decodeLoop_done _ hle]
    rfl
  · rw [exec_dlDecode_main m, decodePacket_step (point_still _) m.quiet (rd_lt_of_truncated htrunc), decodeOne, htrunc]
    rfl
  · rcases exec_dlDecode_record m hrd hi with ⟨t, hcalm, hrec, hrest⟩ | ⟨t, hhalt, hrec, hall⟩
    · have hrunning : t.halted = false := hcalm.halted.trans m.running
      refine ⟨_, hrec, fun hhalt => absurd (hhalt.symm.trans hrunning) (by decide), fun _ => ?_⟩
      rw [hrest, ← hcalm.result]
    · exact ⟨t, hrec, fun _ => hall, fun hrun => absurd (hhalt.symm.trans hrun) (by decide)⟩

end Sys2Proof.Machine
end

section
/-! SUPPORT. The CAN Hardware Codec as instructions: `CAN.RX` by `CanRx[k]`, `CAN.PUMP` and `CAN.INIT` by `Main`
(43_can_codec.md R211 to R216). -/

namespace Sys2Proof.Machine

variable {pt : Hook}

/-! `rx_decode` (R212). -/

/-- The id of an extended receive element, and of a standard one. -/
theorem rxDecode_id (r0 r1 : Word) : (rxDecode r0 r1).id =
    if r0.getLsbD 30 then .ext (r0.extractLsb' 0 29) else .std (r0.extractLsb' 18 11) := rfl

/-- Settles O16: the two kinds of id, and the fields as numbers. -/
theorem rxDecodeRule : Obligations.RxDecodeRule := by
  intro r0 r1
  have hlen : (rxDecode r0 r1).len = min (r1.toNat / 2 ^ 16 % 2 ^ 4) 8 := by
    show min (r1.extractLsb' 16 4).toNat 8 = _
    rw [BitVec.extractLsb'_toNat, Nat.shiftRight_eq_div_pow]
  rw [rxDecode_id]
  cases h : r0.getLsbD 30 with
  | true =>
    refine ⟨rfl, rfl, fun _ => ?_, fun hf => absurd hf (by decide), hlen⟩
    show (r0.extractLsb' 0 29).toNat = _
    rw [BitVec.extractLsb'_toNat, Nat.shiftRight_zero]
  | false =>
    refine ⟨rfl, rfl, fun ht => absurd ht (by decide), fun _ => ?_, hlen⟩
    show ((r0.extractLsb' 18 11).setWidth 29).toNat = _
    rw [BitVec.toNat_setWidth_of_le (by decide), BitVec.extractLsb'_toNat, Nat.shiftRight_eq_div_pow]

/-! Receive path (R211). -/

/-- An emission unpreempted is written or dropped: an append to the newest batch, the opening of the next, or a full
buffer (40_batch_buffer.md R131). What belongs to the controllers and to the schedule is as before. -/
theorem emit_still (hp : Still pt) {bytes : List Byte} {s : State} (hq : s.quiet) (h1 : 1 ≤ bytes.length)
    (h2 : bytes.length ≤ Config.batchPayloadMax) (he : s.nextEmpty) :
    ∃ b t, emit pt bytes s = .ok b t ∧ t.quiet ∧ t.hw = s.hw ∧ t.pending = s.pending := by
  have written : ∀ {t : State} {g : Slot × Nat}, alloc pt bytes.length s = .ok (some g) t → t.quiet →
      t.hw = s.hw → t.pending = s.pending →
      ∃ b t, emit pt bytes s = .ok b t ∧ t.quiet ∧ t.hw = s.hw ∧ t.pending = s.pending :=
    fun {t g} ha hqt hhw hpend => by
      rw [emit_written hp ha hqt, State.pokes_eq]
      exact ⟨true, _, rfl, hqt, hhw, hpend⟩
  by_cases hroom : s.roomInNewest bytes.length
  · exact written (alloc_appends hp hq h1 h2 hroom) hq rfl rfl
  · by_cases hfull : (s.bbProduced - s.bbConsumed).toNat = Config.batchCount
    · exact ⟨false, _, emit_dropped (alloc_fails hp hq h1 h2 hroom hfull), hq, rfl, rfl⟩
    · exact written (alloc_opens hp hq h1 h2 hroom hfull he) hq rfl rfl

/-- The frame that `rx_decode` reads from a receive element, and its data bytes (R211 steps X3, X4). -/
def receivedFrame (e : RxElement) : CanFrame :=
  ⟨(rxDecode e.r0 e.r1).rtr, (rxDecode e.r0 e.r1).id, rxPayload e (rxDecode e.r0 e.r1).len⟩

/-- `CAN.RX` of an element is the emission of its frame, and the acknowledge (R211). -/
theorem receive_still (hp : Still pt) {k : Chan} {s t : State} {e : RxElement} {rest : List RxElement} {b : Bool}
    (hq : s.quiet) (hf : (s.hw.get k).rxFifo = e :: rest) (h : uplinkFrame pt k (receivedFrame e) s = .ok b t)
    (hqt : t.quiet) : receive pt k s = .ok b (t.rxAck k) := by
  rw [receivedFrame] at h
  unfold receive
  rw [hf]
  dsimp only
  rw [hp.bind hq, hf]
  dsimp only
  rw [hp.bind hq, hp.bind hq, h, Res.bind_ok, hp.bind hqt]

/-- `rx_ack` of the oldest element (R217; 60_exceptions.md R249). -/
theorem rxAck_eq {s : State} {k : Chan} {e : RxElement} {rest : List RxElement}
    (hf : (s.hw.get k).rxFifo = e :: rest) :
    s.rxAck k = { s with
      hw := s.hw.set k { s.hw.get k with rxFifo := rest, trace := (s.hw.get k).trace ++ [.rxAck] }
      pending := if rest.isEmpty then s.pending.filter fun r => decide (r ≠ .canRx k) else s.pending } := by
  simp [State.rxAck, State.traceHw, State.setHw, hf]

/-- `CanRx[k]` produces the records of controller `k` (30_encoding.md R96). -/
theorem emits_canRx {a : Agent} {k : Chan} (h : a = .canRx k) : emits a k.sid = true := by
  rw [h]
  exact decide_eq_true rfl

/-- The handler `CanRx[k]` is one. -/
theorem inInterrupt_canRx {s : State} {k : Chan} (h : s.running = .canRx k) : s.inInterrupt = true := by
  simp [State.inInterrupt, h]

/-- `CAN.RX(k)` by `CanRx[k]` (R210). -/
theorem exec_canRx {s : State} {k : Chan} (hh : s.halted = false) (hr : s.running = .canRx k) :
    exec (.canRx k) s = ((receive (point s.budget) k s).map emitResult).outcome := by
  rw [exec_producer_running rfl hh, producerOp, receiveOp, inInterruptContext_handler (inInterrupt_canRx hr),
    asProducerOf, if_pos (emits_canRx hr)]

/-- What `UL.CAN` emits of an id given by its operands (42_wire_framing.md R181, R188). -/
theorem emittedBytes_ulCan (k : Chan) (rtr : Bool) (id : CanId) (data : Payload) :
    emittedBytes (.ulCan k id.isExt rtr id.field data) = some (encCan k.sid ⟨rtr, id, data⟩) := by
  rw [emittedBytes, CanId.of_field]

/-- Settles O47: `UL.CAN` answers (`emit_still`), and `CAN.RX` is `UL.CAN` and the acknowledge (`receive_still`). -/
theorem receiveRule : Obligations.ReceiveRule := by
  intro s k e rest data m hempty hr hf h hdata
  have hp := point_still s.budget
  obtain rfl : data = rxPayload e h.len := Payload.ext hdata
  have hbytes := emittedBytes_ulCan k h.rtr h.id (rxPayload e h.len)
  obtain ⟨h1, h2⟩ := emittedBytes_length rfl hbytes
  obtain ⟨b, t, hemit, hqt, hhw, hpend⟩ := emit_still hp m.quiet h1 h2 hempty
  refine ⟨{ t with result := emitResult b }, ?_, by cases b <;> simp [emitResult], hhw, ?_⟩
  · rw [exec_emits m hbytes (by rw [headerSid_encCan]; exact emits_canRx hr), hemit]
    rfl
  · rw [exec_canRx m.running hr, receive_still hp m.quiet hf hemit hqt, rxAck_eq (by rw [hhw]; exact hf), hhw, hpend]
    rfl

/-! Transmit path (R214, R215). -/

/-- The state after an answer of `tx_free()`, with the answers `frees` still to come (10_state.md R46). -/
def State.afterTxFree (s : State) (k : Chan) (frees : List Nat) : State :=
  s.setHw k { s.hw.get k with txFreeIn := frees }

theorem askTxFree_cons {s : State} {k : Chan} {free : Nat} {frees : List Nat}
    (h : (s.hw.get k).txFreeIn = free :: frees) : s.askTxFree k = (free, s.afterTxFree k frees) := by
  rw [State.askTxFree, h]
  rfl

theorem State.afterTxFree_port (s : State) (k : Chan) (frees : List Nat) :
    (s.afterTxFree k frees).hw.get k = { s.hw.get k with txFreeIn := frees } := PerChan.get_set_same ..

theorem State.afterTxFree_txPutIn (s : State) (k : Chan) (frees : List Nat) :
    ((s.afterTxFree k frees).hw.get k).txPutIn = (s.hw.get k).txPutIn := by rw [State.afterTxFree_port]

theorem State.MainTurn.afterTxFree {s : State} (m : s.MainTurn) (k : Chan) (frees : List Nat) :
    (s.afterTxFree k frees).MainTurn := ⟨m.running, m.quiet.setHw k rfl, m.stack⟩

/-- `CAN.PUMP` is `FQ.DEQ` with `CAN.TXSLOT` and the answer as budget; an answer above `TX_SLOTS` is refused (log
entry 23). -/
theorem exec_canPump_asked {s : State} {k : Chan} {free : Nat} {frees : List Nat} (m : s.MainTurn)
    (h : (s.hw.get k).txFreeIn = free :: frees) :
    exec (.canPump k) s =
      if Config.txSlots < free then .refused .portContract
      else ((fqDequeue k (txSlot k) free (s.afterTxFree k frees)).map fun r => .bool r.1).outcome := by
  rw [exec_canPump, runOp_main m, transmitPump, askTxFree_cons h]
  dsimp only
  split
  · rfl
  · rw [(point_still _).bind (m.afterTxFree k frees).quiet, Res.map, Res.bind_assoc]
    rfl

/-- An operation that answers with something else has the same outcome up to that. -/
theorem withoutResult_map {α : Type} (r : Res α) (f g : α → OpResult) :
    withoutResult (r.map f).outcome = withoutResult (r.map g).outcome := by
  cases r <;> rfl

/-- The moves of `CAN.PUMP` are those of `FQ.DEQ` with the callback `CAN.TXSLOT` (R214). -/
theorem exec_canPump_fqDeq {s : State} {k : Chan} {free : Nat} {frees : List Nat} (m : s.MainTurn)
    (h : (s.hw.get k).txFreeIn = free :: frees) (hle : free ≤ Config.txSlots) :
    withoutResult (exec (.canPump k) s) =
      withoutResult (exec (.fqDeq k .txSlot free) (s.afterTxFree k frees)) := by
  rw [exec_canPump_asked m h, if_neg (Nat.not_lt.2 hle), exec_fqDeq_main (m.afterTxFree k frees)]
  exact withoutResult_map _ _ _

/-- `FQ.DEQ` with `CAN.TXSLOT`, every slot named one that exists: the entries go into the slots and leave the queue. -/
theorem fqDequeue_txSlot {s : State} {k : Chan} {free : Nat} {puts left : List Nat}
    (hn : 1 ≤ min free (s.fq.get k).fill) (hlen : puts.length = min free (s.fq.get k).fill)
    (hputs : ∀ i ∈ puts, i < Config.txSlots) (h : (s.hw.get k).txPutIn = puts ++ left) :
    let q := s.fq.get k
    let n := min free q.fill
    let es := (List.range n).map fun j => s.peekEntry k (q.consumed + BitVec.ofNat Config.cursorBits j)
    ∃ sl : Vector (Option Entry) Config.fqCapacity,
      fqDequeue k (txSlot k) free s = .ok (true, es) { s with
        hw := s.hw.set k ((s.hw.get k).afterPuts puts left es)
        fq := s.fq.set k ⟨sl, q.produced, q.consumed + BitVec.ofNat Config.cursorBits n⟩
        draws := s.draws + 1 } ∧
      ∀ e : Fin Config.fqCapacity, sl[e] =
        if ∃ j, j < n ∧ e = entryOf (q.consumed + BitVec.ofNat Config.cursorBits j) then none else q.slots[e] := by
  intro q n es
  have htake := deqTake_txSlot k q.consumed puts left 0 s hputs h
  rw [hlen, ← List.range_eq_range'] at htake
  obtain ⟨sl, hmove, hslots⟩ :=
    moveOut_slots ({ s with hw := s.hw.set k ((s.hw.get k).afterPuts puts left es) } : State).drawn k q.consumed n
  refine ⟨sl, ?_, hslots⟩
  rw [fqDequeue_some hn htake, hmove]
  simp [State.setFq, State.drawn, q, n, es]

/-- Settles O48: `CAN.PUMP` is `FQ.DEQ` (`exec_canPump_asked`), which moves nothing or what `fqDequeue_txSlot` says. -/
theorem transmitPumpRule : Obligations.TransmitPumpRule := by
  intro s k free frees puts left m hfree hput q p n es
  have hpump := exec_canPump_asked m hfree
  refine ⟨fun hle hn => ?_, fun hle hn hlen hputs => ?_, fun hgt => ?_,
    fun hle => exec_canPump_fqDeq m hfree hle⟩
  · rw [hpump, if_neg (Nat.not_lt.2 hle), fqDequeue_none (s := s.afterTxFree k frees) hn]
    rfl
  · obtain ⟨sl, hdeq, hslots⟩ := fqDequeue_txSlot (s := s.afterTxFree k frees) hn hlen hputs
      ((s.afterTxFree_txPutIn k frees).trans hput)
    refine ⟨sl, ?_, hslots⟩
    rw [hpump, if_neg (Nat.not_lt.2 hle), hdeq, State.afterTxFree_port]
    simp [State.afterTxFree, State.setHw, HwPort.afterPuts, State.peekEntry, p, q, n, es]
  · rw [hpump, if_pos hgt]

/-! Ports that break their contract (60_exceptions.md R243). -/

/-- `CAN.TXSLOT` told a slot that does not exist (R215). -/
theorem txSlot_outside (e : Entry) {s : State} {k : Chan} {i : Nat} {puts : List Nat}
    (h : (s.hw.get k).txPutIn = i :: puts) (hi : Config.txSlots ≤ i) :
    txSlot k e s = .halt ((s.setHw k { s.hw.get k with txPutIn := puts }).raiseFatal 4 (.chan k)) := by
  rw [txSlot, State.askTxPut, h]
  exact if_pos hi

/-- `FQ.DEQ` whose first callback halts (41_frame_queue.md R162). -/
theorem fqDequeue_halts {s t : State} {k : Chan} {cb : Entry → State → Res Unit} {max : Nat}
    (hmax : 1 ≤ max) (hfill : 1 ≤ (s.fq.get k).fill) (h : ∀ e, cb e s = .halt t) :
    fqDequeue k cb max s = .halt t := by
  obtain ⟨n, hn⟩ : ∃ n, min max (s.fq.get k).fill = n + 1 := Nat.exists_eq_add_of_le' (by omega)
  rw [fqDequeue]
  dsimp only
  rw [hn, if_neg (Nat.succ_ne_zero n), deqTake, h]
  rfl

/-- Settles O49: step X1 of `CAN.RX`, before any preemption point, and the first slot that `CAN.PUMP` is told. -/
theorem portFaultHalts : Obligations.PortFaultHalts := by
  refine ⟨fun s k hh hr hf => ?_, fun s k free i frees puts m hfree hput h1 hle hfill hi => ?_⟩
  · rw [exec_canRx hh hr, receive, hf]
    rfl
  · rw [exec_canPump_asked m hfree, if_neg (Nat.not_lt.2 hle),
      fqDequeue_halts (s := s.afterTxFree k frees) h1 hfill fun e =>
        txSlot_outside e ((s.afterTxFree_txPutIn k frees).trans hput) hi]
    simp [State.afterTxFree, State.setHw, State.raiseFatal, State.signal]

/-! Start-up (R216). -/

/-- Controller `k` after the configuration calls `calls`, with the answers `answers` still to come. -/
def State.configured (s : State) (k : Chan) (answers : List Bool) (calls : List HwEvent) : State :=
  s.setHw k { s.hw.get k with cfgIn := answers, trace := (s.hw.get k).trace ++ calls }

theorem State.configured_cfgIn (s : State) (k : Chan) (answers : List Bool) (calls : List HwEvent) :
    ((s.configured k answers calls).hw.get k).cfgIn = answers := by
  rw [State.configured, State.setHw_hw, PerChan.get_set_same]

/-- Configuration calls arm no notification. -/
theorem State.quiet.configured {s : State} (q : s.quiet) (k : Chan) (answers : List Bool) (calls : List HwEvent) :
    (s.configured k answers calls).quiet := q.setHw k rfl

/-- Calls after calls. -/
theorem State.configured_configured (s : State) (k : Chan) (l m : List Bool) (a b : List HwEvent) :
    (s.configured k l a).configured k m b = s.configured k m (a ++ b) := by
  simp [State.configured, State.setHw]

/-- A configuration call: `ok` goes on, `err` is fatal cause 5. -/
theorem configure_eq {s : State} {k : Chan} {ok : Bool} {answers : List Bool} (h : (s.hw.get k).cfgIn = ok :: answers)
    (step : Nat) (event : Bool → HwEvent) :
    configure k step event s =
      if ok then .ok () (s.configured k answers [event ok])
      else .halt ((s.configured k answers [event ok]).raiseFatal 5 (.initStep k step)) := by
  rw [configure, State.askCfg, h]
  simp [State.traceHw, State.setHw, State.configured]

/-- `CAN.INIT` of a quiet state: the three calls in order, up to the first `err`. -/
theorem initController_still (hp : Still pt) {s : State} {k : Chan} (hq : s.quiet) (answers : List Bool) :
    let std (ok : Bool) : HwEvent := .cfgFilter (acceptAll .standard) ok
    let ext (ok : Bool) : HwEvent := .cfgFilter (acceptAll .extended) ok
    let failed (step : Nat) (calls : List HwEvent) : Res Unit :=
      .halt ((s.configured k answers calls).raiseFatal 5 (.initStep k step))
    ((s.hw.get k).cfgIn = false :: answers → initController pt k s = failed 1 [std false]) ∧
    ((s.hw.get k).cfgIn = true :: false :: answers → initController pt k s = failed 2 [std true, ext false]) ∧
    ∀ ok, (s.hw.get k).cfgIn = true :: true :: ok :: answers → initController pt k s =
      if ok then .ok () (s.setHw k { s.hw.get k with
        cfgIn := answers, rxArmed := true, trace := (s.hw.get k).trace ++ [std true, ext true, .cfgNotify true] })
      else failed 3 [std true, ext true, .cfgNotify false] := by
  intro std ext failed
  refine ⟨fun h => ?_, fun h => ?_, fun ok h => ?_⟩
  · rw [initController, configure_eq h]
    rfl
  · rw [initController, configure_eq h, if_pos rfl, Res.bind_ok, hp.bind (hq.configured ..),
      configure_eq (State.configured_cfgIn ..), State.configured_configured]
    rfl
  · rw [initController, configure_eq h, if_pos rfl, Res.bind_ok, hp.bind (hq.configured ..),
      configure_eq (State.configured_cfgIn ..), if_pos rfl, Res.bind_ok, hp.bind ((hq.configured ..).configured ..),
      configure_eq (State.configured_cfgIn ..), State.configured_configured, State.configured_configured]
    cases ok with
    | true => simp [State.configured, State.setHw, std, ext]
    | false => rfl

/-- `CAN.INIT` in boot (60_exceptions.md R253). -/
theorem exec_canInit_boot {s : State} (m : s.MainTurn) (hb : s.phase.inBoot = true) (k : Chan) :
    exec (.canInit k) s = ((initController (point s.budget) k s).map fun _ => .done).outcome := by
  rw [exec_canInit, runOp_main m, if_pos hb]

/-- Settles O50: `initController_still`, for each first call that answers `err`. -/
theorem initRule : Obligations.InitRule := by
  intro s k answers m p std ext failed
  obtain ⟨hfirst, hsecond, hthird⟩ := initController_still (point_still s.budget) (k := k) m.quiet answers
  refine ⟨fun hb h => ?_, fun hb h => ?_, fun hb h => ?_, fun hb h => ?_, fun hb => ?_⟩
  · rw [exec_canInit_boot m hb, hthird true h]
    rfl
  · rw [exec_canInit_boot m hb, hfirst h]
    rfl
  · rw [exec_canInit_boot m hb, hsecond h]
    rfl
  · rw [exec_canInit_boot m hb, hthird false h]
    rfl
  · rw [exec_canInit, runOp_main m, hb, if_neg Bool.false_ne_true]
    rfl

end Sys2Proof.Machine
end

section
/-! SUPPORT. In which context an instruction runs (60_exceptions.md R253), and the fatal halt (R246, R247). -/

namespace Sys2Proof.Machine

/-! Contexts. -/

/-- An instruction that is no producer's is an operation of the main context (R253). -/
theorem exec_main {i : Instr} (hi : producerInstr i = false) (s : State) :
    ∃ body : Hook → State → Res OpResult, exec i s = runOp (fun pt s => inMainContext s (body pt s)) s := by
  by_cases hd : downlinkRecord i = true
  · exact ⟨_, exec_downlink hd s⟩
  cases i with
  | bbPop => exact ⟨_, exec_bbPop s⟩
  | bbReset => exact ⟨_, exec_bbReset s⟩
  | bbRead slot off => exact ⟨_, exec_bbRead s slot off⟩
  | bbDiscardAll => exact ⟨_, exec_bbDiscardAll s⟩
  | ulPump => exact ⟨_, exec_ulPump s⟩
  | fqEnq k build count => exact ⟨_, exec_fqEnq s k build count⟩
  | fqDeq k cb max => exact ⟨_, exec_fqDeq s k cb max⟩
  | fqFlush k => exact ⟨_, exec_fqFlush s k⟩
  | dlDecode => exact ⟨_, exec_dlDecode s⟩
  | canPump k => exact ⟨_, exec_canPump s k⟩
  | canInit k => exact ⟨_, exec_canInit s k⟩
  | mainIter => exact ⟨_, exec_mainIter s⟩
  | _ => first | exact absurd rfl hd | exact nomatch hi

/-- A producer's instruction is an operation of the interrupt context (R253). -/
theorem producerOp_context {i : Instr} (hi : producerInstr i = true) (pt : Hook) (s : State) :
    ∃ r : Res OpResult, producerOp pt s i = inInterruptContext s r := by
  cases i <;> first | exact ⟨_, rfl⟩ | exact nomatch hi

/-- An operation of the interrupt context called by `Main`. -/
theorem inInterruptContext_main {α : Type} {s : State} (h : s.inInterrupt = false) (r : Res α) :
    inInterruptContext s r = .refused .wrongContext := by
  rw [inInterruptContext, h, if_neg Bool.false_ne_true]

/-- An operation of the main context called by a handler. -/
theorem inMainContext_handler {α : Type} {s : State} (h : s.inInterrupt = true) (r : Res α) :
    inMainContext s r = .refused .wrongContext := if_pos h

/-- Settles O59: every instruction is one of the two kinds, and each checks its context first. -/
theorem contextRule : Obligations.ContextRule := by
  refine fun s i hh => ⟨fun hi hs => ?_, fun hi hint => ?_⟩
  · obtain ⟨r, hr⟩ := producerOp_context hi (point s.budget) s
    rw [exec_producer_running hi hh, hr, inInterruptContext_main (inInterrupt_main hs)]
    rfl
  · obtain ⟨body, hbody⟩ := exec_main hi s
    rw [hbody, runOp_running hh, inMainContext_handler hint]
    rfl

/-! The fatal halt. -/

/-- No instruction has an effect in a halted block (R247). -/
theorem exec_halted (i : Instr) {s : State} (h : s.halted = true) : exec i s = .fault .halted := by
  cases hi : producerInstr i with
  | true => rw [exec_producer hi, runOp_halted h]
  | false =>
    obtain ⟨body, hbody⟩ := exec_main hi s
    rw [hbody, runOp_halted h]

/-- No agent has a step in a halted block (R247). -/
theorem step_halted {s : State} (h : s.halted = true) : step s = .fault .halted := if_pos h

/-- Settles O53: the fatal entry field by field, and the halt it leads to. -/
theorem fatalEntry : Obligations.FatalEntry :=
  ⟨fun _ _ _ => rfl, fun _ i h => ⟨exec_halted i h, step_halted h⟩⟩

end Sys2Proof.Machine
end

section
/-! SUPPORT. The interrupts: which request starts (60_exceptions.md R250), the calls of a handler and its return
(R251), what a mask holds back (R249), and what preemption leaves to the agent it preempts (R252). -/

namespace Sys2Proof.Machine

/-! Which request starts. -/

/-- Where none is picked, none is admitted. -/
theorem pickRequest_eq_none {ok : IrqReq → Bool} {rs : List IrqReq} (h : pickRequest ok rs = none) :
    ∀ x ∈ rs, ok x = false := by
  induction rs with
  | nil => exact fun _ hx => nomatch hx
  | cons r rs ih =>
    unfold pickRequest at h
    split at h
    · rename_i hrest
      split at h
      · exact nomatch h
      · rename_i hr
        simpa [hr] using ih hrest
    · split at h <;> exact nomatch h

/-- One is picked exactly where one is admitted. -/
theorem pickRequest_isSome {ok : IrqReq → Bool} {rs : List IrqReq} :
    (pickRequest ok rs).isSome = true ↔ ∃ x ∈ rs, ok x = true := by
  constructor
  · intro h
    obtain ⟨⟨r, others⟩, hpick⟩ := Option.isSome_iff_exists.1 h
    exact ⟨r, pickRequest_mem hpick⟩
  · rintro ⟨x, hx, hok⟩
    cases hpick : pickRequest ok rs with
    | none => exact absurd ((pickRequest_eq_none hpick x hx).symm.trans hok) Bool.false_ne_true
    | some p => rfl

/-- The request `r` is of the highest level among those of `pending` that are admitted, the earliest of that level, and
`others` are the rest in their order (R250). -/
structure Picked (ok : IrqReq → Bool) (pending : List IrqReq) (r : IrqReq) (others : List IrqReq) : Prop where
  admitted : ok r = true
  highest  : ∀ x ∈ pending, ok x = true → Config.prio x.agent ≤ Config.prio r.agent
  earliest : ∃ before after, pending = before ++ r :: after ∧ others = before ++ after ∧
    ∀ x ∈ before, ok x = true → Config.prio x.agent < Config.prio r.agent

/-- The first request, where it is admitted and none of the rest is of a higher level. -/
theorem Picked.head {ok : IrqReq → Bool} {r : IrqReq} {rs : List IrqReq} (hr : ok r = true)
    (h : ∀ x ∈ rs, ok x = true → Config.prio x.agent ≤ Config.prio r.agent) : Picked ok (r :: rs) r rs where
  admitted := hr
  highest := List.forall_mem_cons.2 ⟨fun _ => Nat.le_refl _, h⟩
  earliest := ⟨[], rs, rfl, rfl, fun _ hx => nomatch hx⟩

/-- The one picked of the rest, where the first request is of a lower level or not admitted. -/
theorem Picked.cons {ok : IrqReq → Bool} {x r : IrqReq} {rs others : List IrqReq} (h : Picked ok rs r others)
    (hx : ok x = true → Config.prio x.agent < Config.prio r.agent) : Picked ok (x :: rs) r (x :: others) where
  admitted := h.admitted
  highest := List.forall_mem_cons.2 ⟨fun hok => Nat.le_of_lt (hx hok), h.highest⟩
  earliest := by
    obtain ⟨before, after, hpending, hothers, hbefore⟩ := h.earliest
    exact ⟨x :: before, after, by rw [hpending]; rfl, by rw [hothers]; rfl, List.forall_mem_cons.2 ⟨hx, hbefore⟩⟩

/-- What `pickRequest` answers. -/
theorem pickRequest_picked {ok : IrqReq → Bool} {rs others : List IrqReq} {r : IrqReq}
    (h : pickRequest ok rs = some (r, others)) : Picked ok rs r others := by
  induction rs generalizing r others with
  | nil => exact nomatch h
  | cons x xs ih =>
    unfold pickRequest at h
    split at h
    · rename_i hrest
      split at h
      · rename_i hx
        cases h
        exact .head hx fun y hy hok => absurd ((pickRequest_eq_none hrest y hy).symm.trans hok) Bool.false_ne_true
      · exact nomatch h
    · rename_i b rest hrest
      have hb := ih hrest
      split at h
      · rename_i hx
        cases h
        obtain ⟨hok, hle⟩ := (Bool.and_eq_true _ _).mp hx
        exact .head hok fun y hy hy' => Nat.le_trans (hb.highest y hy hy') (of_decide_eq_true hle)
      · rename_i hx
        cases h
        exact hb.cons fun hok => by simpa [hok] using hx

/-- A step of a state where a request is picked enters its handler (R251, R252 clause 1). -/
theorem step_picked {s : State} {r : IrqReq} {others : List IrqReq} (hh : s.halted = false)
    (h : pickRequest s.takeArrivals.admissible s.takeArrivals.pending = some (r, others)) :
    step s = (({ s.takeArrivals with pending := others }).enterHandler r r.calls).outcomeUnit := by
  unfold step stepOnce
  rw [if_neg (by simp [hh])]
  dsimp only
  rw [h]

/-- The entry of the handler of an agent that exists (R251; 10_state.md R20). -/
theorem enterHandler_exists {r : IrqReq} (h : ∀ j ops, r = .extProd j ops → 1 ≤ j ∧ j ≤ Config.nExtProducers)
    (s : State) (todo : List Call) :
    s.enterHandler r todo = .ok () { s with stack := ⟨r.agent, todo⟩ :: s.stack } := by
  cases r with
  | canRx k => rfl
  | usbRx bytes => rfl
  | extProd j ops => exact enterHandler_extProd (h j ops rfl) s ops todo

/-- Settles O55: `pickRequest_picked`, and the step that enters the handler of the one picked. -/
theorem highestPriorityStarts : Obligations.HighestPriorityStarts := by
  refine ⟨fun ok pending => ⟨pickRequest_isSome, fun r others h => ?_⟩, fun s hh => ?_⟩
  · have hp := pickRequest_picked h
    exact ⟨hp.admitted, hp.highest, hp.earliest⟩
  · intro u hex
    obtain ⟨⟨r, others⟩, hpick⟩ := Option.isSome_iff_exists.1 (pickRequest_isSome.2 hex)
    obtain ⟨hadm, hhigh, before, after, hpending, rfl, hbefore⟩ := pickRequest_picked hpick
    have hstep := step_picked hh hpick
    refine ⟨r, before, after, hpending, hadm, hhigh, hbefore, fun hj => ?_, fun j ops hr hj => ?_⟩
    · rw [hstep, enterHandler_exists hj]
      rfl
    · subst hr
      rw [hstep, enterHandler_noSuchAgent hj]
      rfl

/-! The calls of a handler and its return. -/

/-- Settles O5: the next call of the innermost handler is the running agent's next instruction. -/
theorem stepRunsHandlerCall : Obligations.StepRunsHandlerCall := by
  intro s a i todo rest hh q hs
  rw [step_quiet hh q, runNext, hs]

/-- A step of a handler with nothing left to call is its return (R251). -/
theorem step_returns {s : State} {a : Agent} {rest : List Activation} (hh : s.halted = false) (q : s.quiet)
    (hs : s.stack = ⟨a, []⟩ :: rest) : step s = s.leaveHandler.outcomeUnit := by
  rw [step_quiet hh q, runNext, hs]

/-- The running agent has left a granted byte unwritten (70_reset_and_hazards.md R285). -/
theorem unwrittenGrant_iff (s : State) :
    (s.grants.any fun g => decide (g.owner = s.running) && !g.left.isEmpty) = true ↔
      ∃ g ∈ s.grants, g.owner = s.running ∧ g.left ≠ [] := by
  simp

/-- Settles O56: the return, by whether a granted byte is left unwritten. -/
theorem handlerReturn : Obligations.HandlerReturn := by
  intro s a rest hh q hs
  have hrun : s.running = a := by rw [State.running, hs]
  have hunwritten := unwrittenGrant_iff s
  rw [hrun] at hunwritten
  rw [step_returns hh q hs, State.leaveHandler, hrun]
  refine ⟨fun hall => ?_, fun hleft => ?_⟩
  · rw [if_neg fun h => ?_, hs]
    · rfl
    · obtain ⟨g, hg, ho, hl⟩ := hunwritten.1 h
      exact hl (hall g hg ho)
  · rw [if_pos (hunwritten.2 hleft)]
    rfl

/-! Masked interrupts. -/

/-- While interrupts are masked no request is picked (R252 clause 1). -/
theorem pickRequest_masked {s : State} (h : s.irqMasked = true) (rs : List IrqReq) : pickRequest s.admissible rs = none :=
  pickRequest_none fun r _ => by rw [State.admissible, h]; rfl

/-- Settles O57: the environment's moves leave the mask as it is, and under it none is picked. -/
theorem maskedNoHandler : Obligations.MaskedNoHandler := by
  have none_picked (s : State) (h : s.irqMasked = true) :
      pickRequest s.takeArrivals.admissible s.takeArrivals.pending = none :=
    pickRequest_masked (s.takeArrivals_irqMasked.trans h) _
  refine ⟨fun n s h => ?_, fun s hh h => ?_⟩
  · cases n with
    | zero => rfl
    | succ n =>
      unfold point
      dsimp only
      rw [none_picked s h]
  · unfold step stepOnce
    rw [if_neg (by simp [hh])]
    dsimp only
    rw [none_picked s h]

/-! Preemption. -/

/-- Settles O58: what a preemption point can do is `Kept` (`point_hooked`), nested to any depth. -/
theorem preemptionKeepsConsumer : Obligations.PreemptionKeepsConsumer := by
  intro n s t hinv h
  have hkeeps := point_hooked n s
  rw [h] at hkeeps
  obtain ⟨k, -⟩ := hkeeps
  exact ⟨k.consumed, k.fq, k.stack, k.popped, k.txPending, k.halted, k.packet, k.grows hinv, k.lengths, k.ordered hinv⟩

end Sys2Proof.Machine
end

section
/-! SUPPORT. `MAIN.ITER` as its parts in order (60_exceptions.md R256), and the iteration with nothing to do (R244). -/

namespace Sys2Proof.Machine

variable {pt pt' : Hook}

/-! Unpreempted, the pumps do not depend on the preemption point. -/

/-- `UL.PUMP` (40_batch_buffer.md R139), in each of the three ways it goes. -/
theorem pump_hook (hp : Still pt) (hp' : Still pt') {s : State} (hq : s.quiet) : pump pt s = pump pt' s := by
  cases hr : s.askReady.1 with
  | false => rw [pump_busy hr, pump_busy hr]
  | true =>
    by_cases he : s.txPending = true ∧ s.bbProduced = s.bbConsumed
    · rw [pump_refused hp hq hr he.1 he.2, pump_refused hp' hq hr he.1 he.2]
    · have hne : s.txPending = true → s.bbProduced ≠ s.bbConsumed := fun ht e => he ⟨ht, e⟩
      rw [pump_ready hp hq hr hne rfl, pump_ready hp' hq hr hne rfl]

/-- Asking for the free slots takes its answer and nothing else (10_state.md R46). -/
theorem askTxFree_calm {s : State} (hq : s.quiet) (k : Chan) : Calm s (s.askTxFree k).2 := by
  unfold State.askTxFree
  split
  · exact (Calm.refl hq).setHw k rfl
  · exact ⟨hq, rfl, rfl, rfl, rfl, rfl, rfl, rfl⟩

/-- `CAN.PUMP` (43_can_codec.md R214): its one preemption point is the one before `FQ.DEQ`. -/
theorem transmitPump_hook (hp : Still pt) (hp' : Still pt') (k : Chan) {s : State} (hq : s.quiet) :
    transmitPump pt k s = transmitPump pt' k s := by
  have hq' := (askTxFree_calm hq k).quiet
  unfold transmitPump
  dsimp only
  rw [hp.bind hq', hp'.bind hq']

/-- `DL.DECODE` of a packet that is left answers calmly or is fatal (42_wire_framing.md R183). -/
theorem decodePacket_calm (hp : Still pt) {s : State} (hq : s.quiet) (hrd : s.dlRd < s.dlLen) :
    (decodePacket pt s).Calm s := by
  unfold decodePacket
  rcases decodeLoop_completes hp _ hq (Nat.le_of_lt hrd) (packetBudget_covers s) with
    ⟨t, ht, hcalm, -⟩ | ⟨t, ht, hhalt⟩
  · rw [ht]
    exact hcalm
  · rw [ht]
    exact hhalt

/-! An outcome, and the part of an iteration that leads to it. -/

/-- The outcome of an operation up to its result. -/
abbrev Res.bare {α : Type} (r : Res α) : Host.Outcome State Fault Refusal := withoutResult (r.map fun _ => .done).outcome

/-- From `s` the parts run so far, `r`, answer calmly or halt, and `o` is their outcome up to the result. -/
structure Runs {α : Type} (s : State) (r : Res α) (o : Host.Outcome State Fault Refusal) : Prop where
  calm    : r.Calm s
  outcome : withoutResult o = r.bare

/-- The next instruction, with the result that stands, of a block that is not halted. -/
theorem thenExec_running {t : State} (h : t.halted = false) (i : Instr) : thenExec t.result (.next t) i = exec i t := by
  show (if t.halted then _ else _) = _
  rw [if_neg (by simp [h])]

/-- A halted block has no next instruction (R247). -/
theorem thenExec_halted {t : State} (h : t.halted = true) (res : OpResult) (i : Instr) :
    thenExec res (.next t) i = .next t := if_pos h

/-- The next instruction sees no result: `thenExec` sets it. -/
theorem thenExec_withoutResult (o : Host.Outcome State Fault Refusal) (res : OpResult) (i : Instr) :
    withoutResult (thenExec res (withoutResult o) i) = withoutResult (thenExec res o i) := by
  cases o with
  | next t =>
    show withoutResult (if t.halted then .next { t with result := .done } else exec i { t with result := res }) =
      withoutResult (if t.halted then .next t else exec i { t with result := res })
    split <;> rfl
  | fault e => rfl
  | refused e => rfl

/-- Outcomes alike up to the result go on alike. -/
theorem thenExec_congr {o o' : Host.Outcome State Fault Refusal} (h : withoutResult o = withoutResult o') (res : OpResult)
    (i : Instr) : withoutResult (thenExec res o i) = withoutResult (thenExec res o' i) := by
  rw [← thenExec_withoutResult o, h, thenExec_withoutResult]

section runs
variable {α : Type} {s : State} {r : Res α} {o : Host.Outcome State Fault Refusal}

/-- A preemption point between two parts changes nothing. -/
theorem Runs.atPoint (hp : Still pt) (h : Runs s r o) : Runs s (r.bind fun _ t => pt t) o where
  calm := Res.Sat.bind h.calm fun _ _ c => point_calm hp c
  outcome := by
    rw [h.outcome]
    cases r with
    | ok a t =>
      have c : Calm s t := h.calm
      rw [Res.bind_ok, hp t c.quiet]
      rfl
    | halt t => rfl
    | fault e => rfl
    | refused e => rfl

/-- One part more: `part` is what the next instruction does in `Main`'s turn. -/
theorem Runs.andThen {β : Type} {i : Instr} {part : State → Res β} (m : s.MainTurn) (h : Runs s r o)
    (hi : ∀ t : State, t.MainTurn → withoutResult (exec i t) = (part t).bare)
    (hc : ∀ t, Calm s t → (part t).Calm s) :
    Runs s (r.bind fun _ t => part t) (thenExec s.result o i) where
  calm := Res.Sat.bind h.calm fun _ t c => hc t c
  outcome := by
    rw [thenExec_congr h.outcome]
    cases r with
    | ok a t =>
      have c : Calm s t := h.calm
      show withoutResult (thenExec s.result (withoutResult (.next t)) i) = _
      rw [thenExec_withoutResult, ← c.result, thenExec_running (c.halted.trans m.running)]
      exact hi t (c.mainTurn m)
    | halt t => exact congrArg withoutResult (thenExec_halted h.calm _ _)
    | fault e => rfl
    | refused e => rfl

end runs

/-! The parts. -/

/-- `UL.PUMP` in `Main`'s turn. -/
theorem exec_ulPump_bare (hp : Still pt) {t : State} (m : t.MainTurn) :
    withoutResult (exec .ulPump t) = (pump pt t).bare := by
  rw [exec_ulPump, runOp_main m, pump_hook (point_still _) hp m.quiet]
  exact withoutResult_map _ _ _

/-- `CAN.PUMP(k)` in `Main`'s turn. -/
theorem exec_canPump_bare (hp : Still pt) (k : Chan) {t : State} (m : t.MainTurn) :
    withoutResult (exec (.canPump k) t) = (transmitPump pt k t).bare := by
  rw [exec_canPump, runOp_main m, transmitPump_hook (point_still _) hp k m.quiet]
  exact withoutResult_map _ _ _

/-- `DL.DECODE` where a packet waits. -/
theorem runs_decode {s : State} (m : s.MainTurn) :
    Runs s (if s.dlRd < s.dlLen then (decodePacket (point s.budget) s).bind fun _ t => point s.budget t else .ok () s)
      (if s.dlRd < s.dlLen then exec .dlDecode s else .next s) := by
  split
  · rename_i hrd
    refine Runs.atPoint (point_still _) ⟨decodePacket_calm (point_still _) m.quiet hrd, ?_⟩
    rw [exec_dlDecode_main m]
  · exact ⟨Calm.refl m.quiet, rfl⟩

/-- The transmit pumps of the controllers `ks`, in order. -/
theorem Runs.andPumps {s : State} (m : s.MainTurn) (hp : Still pt) (ks : List Chan) {α : Type} {r : Res α}
    {o : Host.Outcome State Fault Refusal} (h : Runs s r o) :
    Runs s (r.bind fun _ t => pumpEach pt ks t) (ks.foldl (fun o k => thenExec s.result o (.canPump k)) o) := by
  induction ks generalizing α r o with
  | nil => exact ⟨Res.Sat.bind h.calm fun _ _ c => c, by rw [List.foldl_nil, h.outcome]; cases r <;> rfl⟩
  | cons k ks ih =>
    have hk := (h.atPoint hp).andThen m (fun t mt => exec_canPump_bare hp k mt) fun t c => transmitPump_calm hp k c
    have hall := ih hk
    rw [Res.bind_assoc, Res.bind_assoc] at hall
    exact hall

/-- Settles O52: the parts of the iteration one after the other (`Runs`). -/
theorem iterationIsItsParts : Obligations.IterationIsItsParts := by
  intro s m
  have hp := point_still s.budget
  have hpump := (runs_decode m).andThen m (fun t mt => exec_ulPump_bare hp mt) fun t c => pump_calm hp c
  have hall := hpump.andPumps m hp Chan.all
  rw [Res.bind_assoc] at hall
  rw [exec_mainIter, runOp_main m]
  exact hall.outcome.symm

/-! The iteration with nothing to do. -/

/-- `CAN.PUMP(k)` with no free slot or an empty queue takes the answer of `tx_free()` and nothing else (43_can_codec.md
R214). -/
theorem transmitPump_idle (hp : Still pt) {s : State} (hq : s.quiet) {k : Chan} {free : Nat} {frees : List Nat}
    (h : (s.hw.get k).txFreeIn = free :: frees) (hle : free ≤ Config.txSlots)
    (hidle : free = 0 ∨ (s.fq.get k).fill = 0) :
    transmitPump pt k s = .ok false (s.afterTxFree k frees) := by
  have hq' : (s.afterTxFree k frees).quiet := hq.setHw k rfl
  have hn : min free ((s.afterTxFree k frees).fq.get k).fill = 0 := by
    show min free (s.fq.get k).fill = 0
    omega
  rw [transmitPump, askTxFree_cons h]
  dsimp only
  rw [if_neg (Nat.not_lt.2 hle), hp.bind hq', fqDequeue_none hn]
  rfl

/-- The pumps of the controllers `ks`, each with nothing to transmit: only their answers are used up. -/
theorem pumpEach_idle (hp : Still pt) {free : Chan → Nat} {frees : Chan → List Nat} (ks : List Chan) (hks : ks.Nodup)
    {s : State} (hq : s.quiet)
    (h : ∀ k ∈ ks, (s.hw.get k).txFreeIn = free k :: frees k ∧ free k ≤ Config.txSlots ∧
      (free k = 0 ∨ (s.fq.get k).fill = 0)) :
    ∃ w : PerChan HwPort, pumpEach pt ks s = .ok () { s with hw := w } ∧
      ∀ k, w.get k = if k ∈ ks then { s.hw.get k with txFreeIn := frees k } else s.hw.get k := by
  induction ks generalizing s with
  | nil => exact ⟨s.hw, rfl, fun k => by simp⟩
  | cons k ks ih =>
    obtain ⟨hk, hks⟩ := List.nodup_cons.1 hks
    obtain ⟨hfree, hle, hidle⟩ := h k List.mem_cons_self
    have other {j : Chan} (hj : j ≠ k) : (s.afterTxFree k (frees k)).hw.get j = s.hw.get j :=
      PerChan.get_set_other _ _ hj
    obtain ⟨w, hpump, hw⟩ := ih hks (s := s.afterTxFree k (frees k)) (hq.setHw k rfl) fun j hj => by
      rw [other fun e => hk (e ▸ hj)]
      exact h j (List.mem_cons_of_mem _ hj)
    refine ⟨w, ?_, fun j => ?_⟩
    · rw [pumpEach, hp.bind hq, transmitPump_idle hp hq hfree hle hidle, Res.bind_ok, hpump]
      rfl
    · rw [hw j]
      by_cases hj : j = k
      · subst hj
        rw [if_neg hk, if_pos List.mem_cons_self, State.afterTxFree_port]
      · simp only [other hj, List.mem_cons, hj, false_or]

/-- Settles O51: no packet, a busy transport (`pump_busy`), and three pumps with nothing to do (`pumpEach_idle`). -/
theorem iterationIdle : Obligations.IterationIdle := by
  intro s ready free frees m hdone hready hports used
  have hp := point_still s.budget
  have hask : s.askReady = (false, { s with readyIn := ready }) := by rw [State.askReady, hready]
  obtain ⟨w, hpumps, hw⟩ := pumpEach_idle hp Chan.all (by decide) (s := { s with readyIn := ready }) m.quiet
    fun k _ => hports k
  obtain rfl : w = ⟨#v[used .can1, used .can2, used .can3]⟩ := PerChan.ext fun k => by
    cases k <;> exact hw _
  rw [exec_mainIter, runOp_main m, iterate, if_neg (Nat.not_lt.2 hdone), Res.bind_ok, pump_busy (by rw [hask]), hask,
    Res.bind_ok, hpumps]
  rfl

end Sys2Proof.Machine
end

section
/-! SUPPORT. What `Main` does by itself: the boot sequence (70_reset_and_hazards.md R282) and the parts of an iteration in
their order (60_exceptions.md R256). -/

namespace Sys2Proof.Machine

variable {s : State}

/-! `Main`'s own step, phase by phase; `mainStep_record` and `mainStep_noRecord` are those with a packet waiting. -/

/-- Boot step B2. -/
theorem mainStep_boot {k : Chan} (hp : s.phase = .boot k) :
    mainStep s = exec (.canInit k) { s with phase := (k.next.map Phase.boot).getD .unmask } := by
  rw [mainStep, hp]

/-- Boot step B3. -/
theorem mainStep_unmask (hp : s.phase = .unmask) : mainStep s = .next { s with irqMasked := false, phase := .decode } := by
  rw [mainStep, hp]

/-- The head of the loop, with no packet waiting. -/
theorem mainStep_noPacket (hp : s.phase = .decode) (hrd : s.dlLen ≤ s.dlRd) :
    mainStep s = exec .ulPump { s with phase := .canPump .can1 } := by
  rw [mainStep, hp]
  exact if_neg (Nat.not_lt.2 hrd)

/-- The pumps of an iteration. -/
theorem mainStep_canPump {k : Chan} (hp : s.phase = .canPump k) :
    mainStep s = exec (.canPump k) { s with phase := (k.next.map Phase.canPump).getD .decode } := by
  rw [mainStep, hp]

/-- Settles O6: `Main`'s own step in each phase. -/
theorem mainSchedule : Obligations.MainSchedule := by
  intro s m hc
  rw [step_main m hc]
  exact ⟨mainStep_boot, mainStep_boot, mainStep_boot, mainStep_unmask, mainStep_noPacket,
    mainStep_canPump, mainStep_canPump, mainStep_canPump⟩

/-! The boot sequence. -/

/-- `s` after boot step B2 of controller `k`, each of its three configuration calls answered `ok`, with the answers
`answers` still to come. -/
def State.initialised (s : State) (k : Chan) (answers : List Bool) : State :=
  { s with
    hw := s.hw.set k { s.hw.get k with
      cfgIn := answers, rxArmed := true
      trace := (s.hw.get k).trace ++
        [.cfgFilter (acceptAll .standard) true, .cfgFilter (acceptAll .extended) true, .cfgNotify true] }
    phase := (k.next.map Phase.boot).getD .unmask
    result := .done }

theorem State.initialised_port (s : State) {j k : Chan} (answers : List Bool) (h : j ≠ k) :
    (s.initialised k answers).hw.get j = s.hw.get j := PerChan.get_set_other _ _ h

/-- An armed notification starts no handler while interrupts are masked (60_exceptions.md R249). -/
theorem State.MainTurn.initialised (m : s.MainTurn) (hm : s.irqMasked = true) (k : Chan) (answers : List Bool) :
    (s.initialised k answers).MainTurn where
  running := m.running
  quiet := ⟨m.quiet.1, fun r _ => by
    have hmasked : (s.initialised k answers).irqMasked = true := hm
    rw [State.admissible, hmasked]
    rfl⟩
  stack := m.stack

/-- The step that initialises controller `k` (43_can_codec.md R216). -/
theorem step_initialises {k : Chan} {answers : List Bool} (m : s.MainTurn) (hc : s.calls = []) (hp : s.phase = .boot k)
    (h : (s.hw.get k).cfgIn = true :: true :: true :: answers) : step s = .next (s.initialised k answers) := by
  have turn : ({ s with phase := (k.next.map Phase.boot).getD .unmask } : State).MainTurn :=
    ⟨m.running, m.quiet, m.stack⟩
  have hboot : ((k.next.map Phase.boot).getD .unmask).inBoot = true := by cases k <;> rfl
  rw [step_main m hc, mainStep_boot hp]
  exact (initRule _ k answers turn).1 hboot h

/-- One step, then the rest. -/
theorem runSteps_next {t : State} (h : step s = .next t) (n : Nat) : runSteps (n + 1) s = runSteps n t := by
  rw [runSteps, h]

/-- The boot sequence from any state at its start, with interrupts masked (R282). -/
theorem runSteps_boot {answers : Chan → List Bool} (m : s.MainTurn) (hm : s.irqMasked = true) (hc : s.calls = [])
    (hp : s.phase = .boot .can1) (h : ∀ k, (s.hw.get k).cfgIn = true :: true :: true :: answers k) :
    runSteps 4 s = .next { ((s.initialised .can1 (answers .can1)).initialised .can2 (answers .can2)).initialised .can3
      (answers .can3) with irqMasked := false, phase := .decode } := by
  have m1 := m.initialised hm .can1 (answers .can1)
  have m2 := m1.initialised hm .can2 (answers .can2)
  have m3 := m2.initialised hm .can3 (answers .can3)
  have h2 : ((s.initialised .can1 (answers .can1)).hw.get .can2).cfgIn = true :: true :: true :: answers .can2 := by
    rw [State.initialised_port _ _ (by decide), h]
  have h3 : (((s.initialised .can1 (answers .can1)).initialised .can2 (answers .can2)).hw.get .can3).cfgIn =
      true :: true :: true :: answers .can3 := by
    rw [State.initialised_port _ _ (by decide), State.initialised_port _ _ (by decide), h]
  rw [runSteps_next (step_initialises m hc hp (h .can1)), runSteps_next (step_initialises m1 hc rfl h2),
    runSteps_next (step_initialises m2 hc rfl h3),
    runSteps_next ((step_main m3 hc).trans (mainStep_unmask rfl)), runSteps]

/-- Whatever the controllers hold and will answer, `Main` has the first step after reset. -/
theorem reset_mainTurn (w : PerChan HwPort) : ({ State.reset with hw := w } : State).MainTurn :=
  ⟨rfl, ⟨rfl, nofun⟩, rfl⟩

/-- Settles O7: `runSteps_boot` at reset, the controllers' ports written out one by one. -/
theorem bootSequence : Obligations.BootSequence := by
  intro answers port trace booted
  rw [runSteps_boot (answers := answers) (reset_mainTurn _) rfl rfl rfl fun k => by cases k <;> rfl]
  rfl

end Sys2Proof.Machine
end
